-- ==== Sys2Proof/Word.lean ====
section
/-! DEFINITION. The word types of the block: register words, handles and addresses of the response, bytes
(spec/00_scope.md R9, spec/10_state.md R40). -/

namespace Sys2Proof

/-- A register word: every register on the bus is 32 bits wide (R40). -/
abbrev Word := BitVec 32

/-- A 64-bit word: operand words, opaque handles and the response payload (R34, R37, R87). -/
abbrev Word64 := BitVec 64

/-- A byte of the register space as the model stores it (R66). -/
abbrev Byte := BitVec 8

end Sys2Proof
end

