-- ==== Sys2Proof/Config.lean ====
section
/-! DEFINITION. What is fixed for the life of one model instance: the parameters of spec/00_scope.md R7, the topology
table's types (spec/10_state.md R21 to R27), and the one value the spec leaves to the register agent's draw
(spec/20_memory.md R73). -/

namespace Sys2Proof

/-- `ADDR_WIDTH` of R7: the width of a register-bus address in bits. -/
abbrev addrWidth : Nat := 64

/-- `REG_STRIDE` of R7: bytes between two community-scoped registers of one kind. -/
abbrev regStride : Nat := 4

/-- `PIN_WIDTH` of R7: the width of a pin number in a command word. -/
abbrev pinWidth : Nat := 16

/-- One entry of `PADCFG_DEFAULT` (R7): the hardware default of padcfg `index` of pin `pin`. -/
structure PadcfgDefault where
  pin   : Nat
  index : Nat
  value : Word
  deriving DecidableEq, Repr

/-- The OPEN parameters of R7. `PADCFG_DEFAULT(p, k)` is a total function: its finitely many exceptions are listed in
`padcfgDefaults` and every other pair has `padcfgFallback` (pins are below 2^16 and k is 0 to 2, so every total function
is of this form). Numbers are held unbounded so that R8 can refuse the ones that do not fit. -/
structure Params where
  padcfgStride   : Nat
  pmodeShift     : Nat
  pmodeMask      : Nat
  acpiModeValue  : Nat
  trigShift      : Nat
  trigMask       : Nat
  trigEdgeVal    : Nat
  trigLevelVal   : Nat
  invBit         : Nat
  padcfgDefaults : List PadcfgDefault
  padcfgFallback : Word
  settleDelay    : Nat
  deriving DecidableEq, Repr

/-- The parameter set of spec/95_test_vectors.md 1.1, which the reset state carries (DESIGN CHOICE, unsafe: log entry 2;
the spec calls these values test values, D63). -/
def Params.example : Params where
  padcfgStride   := 16
  pmodeShift     := 10
  pmodeMask      := 7
  acpiModeValue  := 7
  trigShift      := 25
  trigMask       := 3
  trigEdgeVal    := 1
  trigLevelVal   := 0
  invBit         := 23
  padcfgDefaults := []
  padcfgFallback := 0
  settleDelay    := 0

/-- A PinDescriptor (R22). Only `number` is read by a rule. -/
structure PinDescriptor where
  number     : Nat
  name       : String
  driverData : Word64
  deriving DecidableEq, Repr

/-- The mode of a PinGroup (R23): one integer, or one per pin. -/
inductive GroupMode where
  | single (mode : Int)
  | perPin (modes : List Int)
  deriving DecidableEq, Repr

/-- A PinGroup (R23), carried and never read. -/
structure PinGroup where
  name : String
  pins : List Nat
  mode : GroupMode
  deriving DecidableEq, Repr

/-- A Function (R23), carried and never read. -/
structure PinFunction where
  name   : String
  groups : List String
  deriving DecidableEq, Repr

/-- A PadGroup (R27). `padownIndex` is an integer that check W5 wants non-negative (R203). -/
structure PadGroup where
  registerGroupIndex : Int
  basePin            : Nat
  size               : Nat
  gpioBase           : Int
  padownIndex        : Int
  deriving DecidableEq, Repr

/-- A Community (R24). An offset of 0 says that the register is absent (R25). -/
structure Community where
  barIndex              : Int
  padOwnerOffset        : Nat
  padConfigLockOffset   : Nat
  hostOwnerOffset       : Nat
  interruptEnableOffset : Nat
  padcfgOffset          : Nat
  isOffset              : Nat
  pinBase               : Nat
  pinsTotal             : Nat
  defaultPadGroupSize   : Nat
  featureFlags          : Word
  padGroups             : Option (List PadGroup)
  mappedBase            : Nat
  deriving DecidableEq, Repr

/-- The topology table `T` (R21). -/
structure Table where
  pins        : List PinDescriptor
  groups      : List PinGroup
  functions   : List PinFunction
  communities : List Community
  deriving DecidableEq, Repr

/-- The table with no pin and no community: what stands in for `T` before `INIT` (R46: no communities and no pins exist). -/
def Table.empty : Table where
  pins := []
  groups := []
  functions := []
  communities := []

/-- R73: whether the n-th write to a locked pin's padcfg takes effect is the register agent's draw. A free value: no body,
so nothing is known of it (log entry 4). -/
opaque Config.lockedWriteTakes : Nat → Bool

end Sys2Proof
end

