-- ==== Sys2Proof/Syntax.lean ====
section
/-! DEFINITION. The commands of "BSGPIO-CMD v1": one constructor of `Instr` per row of spec/opcode_table.json, with the
operand types of spec/30_encoding.md R88, R95 to R99 and R101. -/

namespace Sys2Proof

/-- The 22 opcodes of R89. -/
inductive Opcode where
  | init | resolve | regaddr | ownedByHost | acpiMode | locked | isUnlocked | readPadcfg | writePadcfg
  | setTriggerType | getInterruptType | maskUnmask | register | unregister | enable | disable | dispatch
  | shouldSave | suspend | resume | setPowerState | getPinStatus
  deriving DecidableEq, Repr

/-- Register kinds, the `SUB` of `REGADDR` (R95). -/
inductive RegKind where
  | padcfg0 | padcfg1 | padcfg2 | padOwner | padcfgLock | hostswOwn | gpiIe | gpiIs
  deriving DecidableEq, Repr

/-- A padcfg index k, 0 to 2 (R88). -/
inductive PadIdx where
  | k0 | k1 | k2
  deriving DecidableEq, Repr

/-- Trigger types (R96). -/
inductive TrigType where
  | levelHigh | levelLow | edgeRising | edgeFalling
  deriving DecidableEq, Repr

/-- Power states of `SET_POWER_STATE` (R97). -/
inductive PowerState where
  | working | sleeping
  deriving DecidableEq, Repr

/-- The words of one command as they are submitted: the command word and the three operand words (R86, R87). -/
structure CmdWords where
  cmd   : Word
  opnd0 : Word64
  opnd1 : Word64
  opnd2 : Word64
  deriving DecidableEq, Repr

/-- Why a command's words do not decode: the five checks of R91, in their order. Each ends the command with
`IllegalCommand`. -/
inductive DecodeError where
  /-- Check 1: `OPC` is not one of 0x01 to 0x16. -/
  | reservedOpcode
  /-- Check 2: `RSV` is not 0. -/
  | reservedBits
  /-- Check 3: `SUB` is not legal for `OPC`. -/
  | illegalSub
  /-- Check 4: `PIN` is not 0 for an opcode without a pin. -/
  | unusedPin
  /-- Check 5: `OPND[0]` bits 63:32 of `WRITE_PADCFG` are not 0. -/
  | operandHighBits
  deriving DecidableEq, Repr

/-- A command with its operands (R89, R101). A pin number is a non-negative integer (R11); `WellFormed` bounds it. -/
inductive Instr where
  /-- `INIT` (R201). Its table is handed over beside the words, so it is no operand here. -/
  | init
  /-- `RESOLVE` (R113). -/
  | resolve (pin : Nat)
  /-- `REGADDR` (R114). -/
  | regaddr (pin : Nat) (kind : RegKind)
  /-- `OWNED_BY_HOST` (R127). -/
  | ownedByHost (pin : Nat)
  /-- `ACPI_MODE` (R128). -/
  | acpiMode (pin : Nat)
  /-- `LOCKED` (R129). -/
  | locked (pin : Nat)
  /-- `IS_UNLOCKED` (R130). -/
  | isUnlocked (pin : Nat)
  /-- `READ_PADCFG` (R132). -/
  | readPadcfg (pin : Nat) (k : PadIdx)
  /-- `WRITE_PADCFG` (R133). -/
  | writePadcfg (pin : Nat) (k : PadIdx) (value : Word)
  /-- `SET_TRIGGER_TYPE` (R146). -/
  | setTriggerType (pin : Nat) (type : TrigType)
  /-- `GET_INTERRUPT_TYPE` (R148). -/
  | getInterruptType (pin : Nat)
  /-- `MASK_UNMASK` (R150); `mask` true masks (R98). -/
  | maskUnmask (pin : Nat) (mask : Bool)
  /-- `REGISTER` (R155). -/
  | register (pin : Nat) (owner callback context : Word64)
  /-- `UNREGISTER` (R158). -/
  | unregister (pin : Nat)
  /-- `ENABLE` (R161). -/
  | enable (pin : Nat)
  /-- `DISABLE` (R162). -/
  | disable (pin : Nat)
  /-- `DISPATCH` (R171); `first` is the first-iteration flag (R99). -/
  | dispatch (first : Bool)
  /-- `SHOULD_SAVE` (R181). -/
  | shouldSave (pin : Nat)
  /-- `SUSPEND` (R183). -/
  | suspend
  /-- `RESUME` (R186). -/
  | resume
  /-- `SET_POWER_STATE` (R191). -/
  | setPowerState (state : PowerState)
  /-- `GET_PIN_STATUS` (R131). -/
  | getPinStatus (pin : Nat)
  deriving DecidableEq, Repr

end Sys2Proof
end

