-- ==== Sys2Proof/WellFormed.lean ====
section
/-! DEFINITION. Which commands the encoding can hold: every `SUB` operand is legal by its type (spec/30_encoding.md R88), so
what is left to check is the pin number (R11, R101). The topology table's checks are in Machine/TableCheck.lean. -/

namespace Sys2Proof

/-- A pin number fits the 16-bit `PIN` field (R11, R86). -/
def pinWf (pin : Nat) : Bool := decide (pin < 2 ^ pinWidth)

/-- A command is well formed when its pin, if it has one, fits the `PIN` field: "A pin number of 2^16 or above has no
encoding" (R101). -/
def Instr.wf : Instr → Bool
  | .init => true
  | .resolve pin => pinWf pin
  | .regaddr pin _ => pinWf pin
  | .ownedByHost pin => pinWf pin
  | .acpiMode pin => pinWf pin
  | .locked pin => pinWf pin
  | .isUnlocked pin => pinWf pin
  | .readPadcfg pin _ => pinWf pin
  | .writePadcfg pin _ _ => pinWf pin
  | .setTriggerType pin _ => pinWf pin
  | .getInterruptType pin => pinWf pin
  | .maskUnmask pin _ => pinWf pin
  | .register pin _ _ _ => pinWf pin
  | .unregister pin => pinWf pin
  | .enable pin => pinWf pin
  | .disable pin => pinWf pin
  | .dispatch _ => true
  | .shouldSave pin => pinWf pin
  | .suspend => true
  | .resume => true
  | .setPowerState _ => true
  | .getPinStatus pin => pinWf pin

end Sys2Proof
end

