-- ==== Sys2Proof/Decode.lean ====
section
/-! DEFINITION. Decoding of command words and, after it, the encoder, both written from spec/30_encoding.md R86 to R101.
Every word is accepted or rejected by the name of the check of R91 that it fails. -/

namespace Sys2Proof

/-- The `OPC` field's value of each opcode (R89). -/
def Opcode.bits : Opcode → BitVec 5
  | .init => 0x01#5
  | .resolve => 0x02#5
  | .regaddr => 0x03#5
  | .ownedByHost => 0x04#5
  | .acpiMode => 0x05#5
  | .locked => 0x06#5
  | .isUnlocked => 0x07#5
  | .readPadcfg => 0x08#5
  | .writePadcfg => 0x09#5
  | .setTriggerType => 0x0A#5
  | .getInterruptType => 0x0B#5
  | .maskUnmask => 0x0C#5
  | .register => 0x0D#5
  | .unregister => 0x0E#5
  | .enable => 0x0F#5
  | .disable => 0x10#5
  | .dispatch => 0x11#5
  | .shouldSave => 0x12#5
  | .suspend => 0x13#5
  | .resume => 0x14#5
  | .setPowerState => 0x15#5
  | .getPinStatus => 0x16#5

/-- The opcode map of R89, in the order of the table. -/
def opcodeList : List Opcode :=
  [.init, .resolve, .regaddr, .ownedByHost, .acpiMode, .locked, .isUnlocked, .readPadcfg, .writePadcfg,
    .setTriggerType, .getInterruptType, .maskUnmask, .register, .unregister, .enable, .disable, .dispatch,
    .shouldSave, .suspend, .resume, .setPowerState, .getPinStatus]

/-- The opcode with a given `OPC` field; none for 0x00 and 0x17 to 0x1F (R89, R91 check 1). -/
def Opcode.ofBits (b : BitVec 5) : Option Opcode :=
  opcodeList.find? (fun o => o.bits == b)

/-- The code of a register kind (R95). -/
def RegKind.code : RegKind → BitVec 3
  | .padcfg0 => 0#3
  | .padcfg1 => 1#3
  | .padcfg2 => 2#3
  | .padOwner => 3#3
  | .padcfgLock => 4#3
  | .hostswOwn => 5#3
  | .gpiIe => 6#3
  | .gpiIs => 7#3

/-- The register kind of a code; every code is one (R95, R114). -/
def RegKind.ofCode (b : BitVec 3) : RegKind :=
  if b = 0#3 then .padcfg0
  else if b = 1#3 then .padcfg1
  else if b = 2#3 then .padcfg2
  else if b = 3#3 then .padOwner
  else if b = 4#3 then .padcfgLock
  else if b = 5#3 then .hostswOwn
  else if b = 6#3 then .gpiIe
  else .gpiIs

/-- The padcfg index as a number (R88). -/
def PadIdx.code : PadIdx → BitVec 3
  | .k0 => 0#3
  | .k1 => 1#3
  | .k2 => 2#3

/-- The padcfg index of a `SUB` value; none for 3 to 7 (R88). -/
def PadIdx.ofCode (b : BitVec 3) : Option PadIdx :=
  if b = 0#3 then some .k0 else if b = 1#3 then some .k1 else if b = 2#3 then some .k2 else none

/-- The code of a trigger type (R96). -/
def TrigType.code : TrigType → BitVec 3
  | .levelHigh => 0#3
  | .levelLow => 1#3
  | .edgeRising => 2#3
  | .edgeFalling => 3#3

/-- The trigger type of a `SUB` value; none for 4 to 7 (R88, R96). -/
def TrigType.ofCode (b : BitVec 3) : Option TrigType :=
  if b = 0#3 then some .levelHigh
  else if b = 1#3 then some .levelLow
  else if b = 2#3 then some .edgeRising
  else if b = 3#3 then some .edgeFalling
  else none

/-- A one-bit `SUB`: bit 24 is the flag and bits 26:25 must be 0 (R88). -/
def flagOfCode (b : BitVec 3) : Option Bool :=
  if b = 0#3 then some false else if b = 1#3 then some true else none

/-- The `SUB` of a one-bit flag (R88, R98, R99). -/
def flagCode (f : Bool) : BitVec 3 := if f then 1#3 else 0#3

/-- The `SUB` of a power state: 1 sleeping, 0 working (R97). -/
def PowerState.code : PowerState → BitVec 3
  | .working => 0#3
  | .sleeping => 1#3

/-- The power state of a `SUB` value (R88, R97). -/
def PowerState.ofCode (b : BitVec 3) : Option PowerState :=
  if b = 0#3 then some .working else if b = 1#3 then some .sleeping else none

/-- An opcode without a `SUB` operand wants 0 there (R88). -/
def noSub (b : BitVec 3) : Option Unit := if b = 0#3 then some () else none

/-- R89: the pin column. -/
def Opcode.takesPin : Opcode → Bool
  | .init | .dispatch | .suspend | .resume | .setPowerState => false
  | _ => true

/-- R89, R90: how many operand words a command has. -/
def Opcode.operandWords : Opcode → Nat
  | .register => 3
  | .writePadcfg => 1
  | _ => 0

/-- Check 3 of R91 with operand assembly (R101): the command an opcode, a `SUB` value, a pin and the operand words make;
none where `SUB` is illegal for the opcode (R88). -/
def assemble (o : Opcode) (sub : BitVec 3) (pin : Nat) (w : CmdWords) : Option Instr :=
  match o with
  | .init => (noSub sub).map fun _ => .init
  | .resolve => (noSub sub).map fun _ => .resolve pin
  | .regaddr => some (.regaddr pin (RegKind.ofCode sub))
  | .ownedByHost => (noSub sub).map fun _ => .ownedByHost pin
  | .acpiMode => (noSub sub).map fun _ => .acpiMode pin
  | .locked => (noSub sub).map fun _ => .locked pin
  | .isUnlocked => (noSub sub).map fun _ => .isUnlocked pin
  | .readPadcfg => (PadIdx.ofCode sub).map fun k => .readPadcfg pin k
  | .writePadcfg => (PadIdx.ofCode sub).map fun k => .writePadcfg pin k (w.opnd0.extractLsb' 0 32)
  | .setTriggerType => (TrigType.ofCode sub).map fun t => .setTriggerType pin t
  | .getInterruptType => (noSub sub).map fun _ => .getInterruptType pin
  | .maskUnmask => (flagOfCode sub).map fun m => .maskUnmask pin m
  | .register => (noSub sub).map fun _ => .register pin w.opnd0 w.opnd1 w.opnd2
  | .unregister => (noSub sub).map fun _ => .unregister pin
  | .enable => (noSub sub).map fun _ => .enable pin
  | .disable => (noSub sub).map fun _ => .disable pin
  | .dispatch => (flagOfCode sub).map fun f => .dispatch f
  | .shouldSave => (noSub sub).map fun _ => .shouldSave pin
  | .suspend => (noSub sub).map fun _ => .suspend
  | .resume => (noSub sub).map fun _ => .resume
  | .setPowerState => (PowerState.ofCode sub).map fun p => .setPowerState p
  | .getPinStatus => (noSub sub).map fun _ => .getPinStatus pin

/-- The fields of a command word (R86). -/
def opcField (c : Word) : BitVec 5 := c.extractLsb' 27 5

/-- `SUB`, bits 26:24 (R86). -/
def subField (c : Word) : BitVec 3 := c.extractLsb' 24 3

/-- `RSV`, bits 23:16 (R86). -/
def rsvField (c : Word) : BitVec 8 := c.extractLsb' 16 8

/-- `PIN`, bits 15:0 (R86). -/
def pinField (c : Word) : BitVec 16 := c.extractLsb' 0 16

/-- R91: the checks in their order; the first that fails names the rejection. -/
def decode (w : CmdWords) : Except DecodeError Instr :=
  match Opcode.ofBits (opcField w.cmd) with
  | none => .error .reservedOpcode
  | some o =>
    if rsvField w.cmd ≠ 0#8 then .error .reservedBits
    else
      match assemble o (subField w.cmd) (pinField w.cmd).toNat w with
      | none => .error .illegalSub
      | some i =>
        if o.takesPin = false ∧ pinField w.cmd ≠ 0#16 then .error .unusedPin
        else if o = .writePadcfg ∧ w.opnd0.extractLsb' 32 32 ≠ 0#32 then .error .operandHighBits
        else .ok i

/-- The opcode of a command (R89). -/
def Instr.opcode : Instr → Opcode
  | .init => .init
  | .resolve _ => .resolve
  | .regaddr _ _ => .regaddr
  | .ownedByHost _ => .ownedByHost
  | .acpiMode _ => .acpiMode
  | .locked _ => .locked
  | .isUnlocked _ => .isUnlocked
  | .readPadcfg _ _ => .readPadcfg
  | .writePadcfg _ _ _ => .writePadcfg
  | .setTriggerType _ _ => .setTriggerType
  | .getInterruptType _ => .getInterruptType
  | .maskUnmask _ _ => .maskUnmask
  | .register _ _ _ _ => .register
  | .unregister _ => .unregister
  | .enable _ => .enable
  | .disable _ => .disable
  | .dispatch _ => .dispatch
  | .shouldSave _ => .shouldSave
  | .suspend => .suspend
  | .resume => .resume
  | .setPowerState _ => .setPowerState
  | .getPinStatus _ => .getPinStatus

/-- The `SUB` field a command is encoded with (R88). -/
def Instr.sub : Instr → BitVec 3
  | .regaddr _ kind => kind.code
  | .readPadcfg _ k => k.code
  | .writePadcfg _ k _ => k.code
  | .setTriggerType _ t => t.code
  | .maskUnmask _ m => flagCode m
  | .dispatch f => flagCode f
  | .setPowerState p => p.code
  | _ => 0#3

/-- The pin a command is encoded with; 0 where the opcode has none (R89). -/
def Instr.pin : Instr → Nat
  | .init | .dispatch _ | .suspend | .resume | .setPowerState _ => 0
  | .resolve pin | .regaddr pin _ | .ownedByHost pin | .acpiMode pin | .locked pin | .isUnlocked pin
  | .readPadcfg pin _ | .writePadcfg pin _ _ | .setTriggerType pin _ | .getInterruptType pin
  | .maskUnmask pin _ | .register pin _ _ _ | .unregister pin | .enable pin | .disable pin
  | .shouldSave pin | .getPinStatus pin => pin

/-- R86: a command word from its four fields, `OPC` uppermost. -/
def packCmd (opc : BitVec 5) (sub : BitVec 3) (rsv : BitVec 8) (pin : BitVec 16) : Word :=
  opc ++ sub ++ rsv ++ pin

/-- The words of a command (R86, R87, R90): unused operand words are 0. -/
def encode (i : Instr) : CmdWords :=
  let cmd := packCmd i.opcode.bits i.sub 0#8 (BitVec.ofNat 16 i.pin)
  match i with
  | .writePadcfg _ _ value => ⟨cmd, value.setWidth 64, 0, 0⟩
  | .register _ owner callback context => ⟨cmd, owner, callback, context⟩
  | _ => ⟨cmd, 0, 0, 0⟩

/-- The words of an instruction whose lowest `nbits` bits are those of `w` and whose other bits are 0: the command word
first (bits 31:0), then the operand words, 64 bits each. -/
def wordsOfBits (nbits w : Nat) : CmdWords :=
  let v := w % 2 ^ nbits
  ⟨BitVec.ofNat 32 v, BitVec.ofNat 64 (v >>> 32), BitVec.ofNat 64 (v >>> 96), BitVec.ofNat 64 (v >>> 160)⟩

/-- What the decoder reads from an instruction numbered as spec/opcode_table.json numbers its bits. -/
def decodeTableWord (nbits w : Nat) : Option Instr :=
  match decode (wordsOfBits nbits w) with
  | .ok i => some i
  | .error _ => none

/-- One row of spec/opcode_table.json: the bits an opcode fixes in its command word. -/
structure OpcodeRow where
  opcode : Opcode
  pattern : Word
  mask : Word
  deriving DecidableEq, Repr

/-- The rows of spec/opcode_table.json. -/
def opcodeRows : List OpcodeRow :=
  [⟨.init, 0x08000000#32, 0xFFFFFFFF#32⟩, ⟨.resolve, 0x10000000#32, 0xFFFF0000#32⟩,
    ⟨.regaddr, 0x18000000#32, 0xF8FF0000#32⟩, ⟨.ownedByHost, 0x20000000#32, 0xFFFF0000#32⟩,
    ⟨.acpiMode, 0x28000000#32, 0xFFFF0000#32⟩, ⟨.locked, 0x30000000#32, 0xFFFF0000#32⟩,
    ⟨.isUnlocked, 0x38000000#32, 0xFFFF0000#32⟩, ⟨.readPadcfg, 0x40000000#32, 0xF8FF0000#32⟩,
    ⟨.writePadcfg, 0x48000000#32, 0xF8FF0000#32⟩, ⟨.setTriggerType, 0x50000000#32, 0xFCFF0000#32⟩,
    ⟨.getInterruptType, 0x58000000#32, 0xFFFF0000#32⟩, ⟨.maskUnmask, 0x60000000#32, 0xFEFF0000#32⟩,
    ⟨.register, 0x68000000#32, 0xFFFF0000#32⟩, ⟨.unregister, 0x70000000#32, 0xFFFF0000#32⟩,
    ⟨.enable, 0x78000000#32, 0xFFFF0000#32⟩, ⟨.disable, 0x80000000#32, 0xFFFF0000#32⟩,
    ⟨.dispatch, 0x88000000#32, 0xFEFFFFFF#32⟩, ⟨.shouldSave, 0x90000000#32, 0xFFFF0000#32⟩,
    ⟨.suspend, 0x98000000#32, 0xFFFFFFFF#32⟩, ⟨.resume, 0xA0000000#32, 0xFFFFFFFF#32⟩,
    ⟨.setPowerState, 0xA8000000#32, 0xFEFFFFFF#32⟩, ⟨.getPinStatus, 0xB0000000#32, 0xFFFF0000#32⟩]

/-- A command word has a row's fixed bits. -/
def OpcodeRow.fits (r : OpcodeRow) (c : Word) : Bool := c &&& r.mask == r.pattern

end Sys2Proof
end

