-- ==== Sys2Proof/Machine/State.lean ====
section
/-! DEFINITION. The state of the block and of what surrounds it (spec/10_state.md R30 to R38, R45, R46; the register
agent's registers of spec/20_memory.md R62; the gate's queue of R76; the register agent's and the submitters' coming steps
of R72 and R76). Plain data throughout. -/

namespace Sys2Proof.Machine

/-- Why the machine stops with a fault. -/
inductive Fault where
  /-- `MemRead` or `MemWrite` at an address of 2^64 or above, outside the register-bus space (R63). `INIT` refuses a table
  that could give one (R203 W8). Safe: the model stops where the spec has no address. -/
  | outsideAddressSpace (address : Nat)
  deriving DecidableEq, Repr

/-- Why the model refuses a step. -/
inductive Refusal where
  /-- An arm of `exec` without a meaning. No arm uses it. Safe. -/
  | notModelled (mnemonic : String)
  /-- An access that is no multiple of 4: "must refuse the step (refuse, not a value)" (R65). Raised by the bus operations.
  Safe: it cannot arise under a table that `INIT` accepts (R203 W9). -/
  | misalignedAccess (address : Nat)
  /-- The instance's parameters break R8: "A model instance whose parameters break one is ill-formed and the model refuses
  it". Raised by `step`. Safe. -/
  | illFormedInstance
  deriving DecidableEq, Repr

/-- The per-pin interrupt states of R34. -/
inductive IrqState where
  | unregistered | masked | unmasked
  deriving DecidableEq, Repr

/-- The per-pin interrupt record `irq[p]` (R34). -/
structure IrqRecord where
  state    : IrqState
  owner    : Word64
  callback : Word64
  context  : Word64
  trig     : Option TrigType
  deriving DecidableEq, Repr

/-- The record's reset and `INIT` value (R34, R46). -/
def IrqRecord.cleared : IrqRecord := ⟨.unregistered, 0, 0, 0, none⟩

/-- `ctx.pin[p]` (R35). -/
structure PinContext where
  valid   : Bool
  padcfg0 : Word
  padcfg1 : Word
  padcfg2 : Word
  deriving DecidableEq, Repr

/-- The zero-filled pin snapshot (R35, R46). -/
def PinContext.zero : PinContext := ⟨false, 0, 0, 0⟩

/-- `ctx.comm[c]` (R35): one word of each array per pad group. -/
structure CommContext where
  valid   : Bool
  ie      : List Word
  hostown : List Word
  deriving DecidableEq, Repr

/-- The output events of R36. -/
inductive Event where
  /-- The block invokes a registered callback (R172). -/
  | callback (callback context : Word64) (source : Nat)
  /-- The warning-class condition of resume (R189). -/
  | advisory (owner : Word64) (pin : Nat)
  /-- An `InactiveCommunity` result was produced (R215). -/
  | defectSignal (opcode : BitVec 5) (pin c : Nat)
  deriving DecidableEq, Repr

/-- A micro-step that the register bus or the outside can see (R38): the two accesses of R64 and the settling delay of R176. -/
inductive MicroStep where
  | read (address : Nat) (value : Word)
  | write (address : Nat) (value : Word)
  | settle (delay : Nat)
  deriving DecidableEq, Repr

/-- A command as the gate accepts it (R76): its words, and the table that `INIT` carries beside them (R201). -/
structure Submission where
  words : CmdWords
  table : Table
  deriving DecidableEq, Repr

/-- One step of the register agent (R72 E1 to E4, and its draw of R47), or a submitter's command being accepted (R76). A
register is named by a pin and a kind, which is how every register of the spec is named (R112). -/
inductive AgentStep where
  /-- R47: the start value of a register, drawn before `INIT`. -/
  | powerOn (address : Nat) (value : Word)
  /-- E1: set bits of the GPI_IS register of the pin's group. -/
  | pending (pin : Nat) (bits : Word)
  /-- E2: change a register of a community that is inactive. -/
  | railOff (pin : Nat) (kind : RegKind) (value : Word)
  /-- E3: firmware changes a HOSTSW_OWN, PADCFG_LOCK, PAD_OWNER, GPI_IE or padcfg register. -/
  | firmware (pin : Nat) (kind : RegKind) (value : Word)
  /-- E4: an interrupt event, which submits `DISPATCH` with `first` = 1 (R216). -/
  | interruptLine
  /-- A submitter's command enters the gate's queue. -/
  | submit (sub : Submission)
  deriving DecidableEq, Repr

/-- The register agent's registers, byte by byte (R62, R66): addresses strictly rising, no entry equal to what an unlisted
address reads as (`unlistedByte`). -/
abbrev Memory := List Host.Cell

structure State where
  /-- The parameters of R7: configuration, written by no step. -/
  params      : Params
  /-- The topology table `T` (R21): configuration, written by `INIT` alone. -/
  table       : Table
  /-- R30. -/
  initialized : Bool
  /-- R31. -/
  suspended   : Bool
  /-- `active[c]` by community index (R32). -/
  active      : List Bool
  /-- `busy[c]` by community index (R33). -/
  busy        : List Bool
  /-- `irq[p]` by pin number, ascending (R34). -/
  irq         : List (Nat × IrqRecord)
  /-- `ctx.pin[p]` by pin number, ascending (R35). -/
  ctxPin      : List (Nat × PinContext)
  /-- `ctx.comm[c]` by community index (R35). -/
  ctxComm     : List CommContext
  /-- The output event log (R36). -/
  events      : List Event
  /-- `CMD` (R37). -/
  cmd         : Word
  /-- `OPND[0]` (R37). -/
  opnd0       : Word64
  /-- `OPND[1]` (R37). -/
  opnd1       : Word64
  /-- `OPND[2]` (R37). -/
  opnd2       : Word64
  /-- `RESP_CODE` (R37). -/
  respCode    : BitVec 8
  /-- `RESP_VALUE` (R37). -/
  respValue   : Word64
  /-- The table handed over with the command in `CMD` (R201's `T'`). -/
  handed      : Table
  /-- The gate's queue of accepted, not yet started commands (R45, R76). -/
  queue       : List Submission
  /-- The register agent's map `REG` (R62). -/
  mem         : Memory
  /-- The model's own: how many locked writes have been drawn (R73, log entry 4). -/
  draws       : Nat
  /-- The model's own: the coming steps of the register agent and the submitters, one batch for each point between two
  micro-steps or two commands (R72, R76, log entry 3). -/
  agent       : List (List AgentStep)
  /-- The model's own: the micro-steps made so far, written and never read (R38, log entry 5). -/
  trace       : List MicroStep
  deriving DecidableEq, Repr

/-- The machine right after reset (R46, R236): uninitialized, no table, nothing queued. Registers that nothing has written
read as `unlistedByte` (log entry 1). -/
def State.reset : State where
  params      := Params.example
  table       := Table.empty
  initialized := false
  suspended   := false
  active      := []
  busy        := []
  irq         := []
  ctxPin      := []
  ctxComm     := []
  events      := []
  cmd         := 0
  opnd0       := 0
  opnd1       := 0
  opnd2       := 0
  respCode    := 0
  respValue   := 0
  handed      := Table.empty
  queue       := []
  mem         := []
  draws       := 0
  agent       := []
  trace       := []

end Sys2Proof.Machine
end

