-- ==== Sys2Proof/Machine/Memory.lean ====
section
/-! DEFINITION. Sorted stores: the register space byte by byte with its 32-bit little-endian words (spec/20_memory.md R62 to
R66), and the per-pin arrays `irq` and `ctx.pin` (spec/10_state.md R34, R35). -/

namespace Sys2Proof.Machine

/-- The entry of a store at a key; `dflt` where the key has none. -/
def storeGet {α : Type} (dflt : α) : List (Nat × α) → Nat → α
  | [], _ => dflt
  | (k, v) :: rest, q => if q = k then v else storeGet dflt rest q

/-- Put an entry into a store at its place, replacing the key's old one. -/
def storeSet {α : Type} : List (Nat × α) → Nat → α → List (Nat × α)
  | [], k, v => [(k, v)]
  | (k', v') :: rest, k, v =>
    if k < k' then (k, v) :: (k', v') :: rest
    else if k = k' then (k, v) :: rest
    else (k', v') :: storeSet rest k v

/-- Take a key's entries out of a store. -/
def storeDrop {α : Type} : List (Nat × α) → Nat → List (Nat × α)
  | [], _ => []
  | (k', v') :: rest, k => if k = k' then storeDrop rest k else (k', v') :: storeDrop rest k

/-- Every key of a store is above `lo`, and the keys strictly rise. -/
def storeRisesFrom {α : Type} : Option Nat → List (Nat × α) → Bool
  | _, [] => true
  | none, (k, _) :: rest => storeRisesFrom (some k) rest
  | some lo, (k, _) :: rest => decide (lo < k) && storeRisesFrom (some k) rest

/-- The keys of a store strictly rise. -/
def storeRises {α : Type} (m : List (Nat × α)) : Bool := storeRisesFrom none m

/-- The store with one value at each key of a list. -/
def storeFill {α : Type} (v : α) : List Nat → List (Nat × α)
  | [] => []
  | k :: rest => storeSet (storeFill v rest) k v

/-- What an unlisted address of the register space reads as: the start value of a register is a free draw of the register
agent (R47), made by its `powerOn` steps; where it draws none the byte is 0 (DESIGN CHOICE, unsafe: log entry 1). -/
def unlistedByte : Byte := 0

/-- Read one byte of the register space. -/
def Memory.readByte (m : Memory) (a : Nat) : Byte := storeGet unlistedByte m a

/-- Write one byte of the register space, keeping the canonical form. -/
def Memory.writeByte (m : Memory) (a : Nat) (b : Byte) : Memory :=
  if b = unlistedByte then storeDrop m a else storeSet m a b

/-- Read a register: the four bytes from its address, the lowest address least significant (R66). -/
def Memory.readWord (m : Memory) (a : Nat) : Word :=
  m.readByte (a + 3) ++ m.readByte (a + 2) ++ m.readByte (a + 1) ++ m.readByte a

/-- Write a register: four bytes, the least significant at the lowest address (R66). -/
def Memory.writeWord (m : Memory) (a : Nat) (v : Word) : Memory :=
  (((m.writeByte a (v.extractLsb' 0 8)).writeByte (a + 1) (v.extractLsb' 8 8)).writeByte (a + 2)
    (v.extractLsb' 16 8)).writeByte (a + 3) (v.extractLsb' 24 8)

/-- The canonical form of the register space: addresses strictly rise and no entry equals an unlisted byte. -/
def Memory.wf (m : Memory) : Bool :=
  storeRises m && m.all (fun cell => cell.2 != unlistedByte)

end Sys2Proof.Machine
end

