-- ==== Sys2Proof/Machine/Operands.lean ====
section
/-! DEFINITION. How a pin operand reaches its registers: the effective pad groups, `resolve` and `addr` of
spec/40_resolver.md R111 and R112. Pure functions of the topology table and the parameters (R115). -/

namespace Sys2Proof.Machine

/-- Pair the entries of a list with their positions, counting from `n`. -/
def indexedFrom {α : Type} (n : Nat) : List α → List (Nat × α)
  | [] => []
  | x :: rest => (n, x) :: indexedFrom (n + 1) rest

/-- The implicit pad group `G_k` of a community without a pad-group table (R111). -/
def implicitGroup (C : Community) (k : Nat) : PadGroup where
  registerGroupIndex := k
  basePin := C.pinBase + k * C.defaultPadGroupSize
  size := min C.defaultPadGroupSize (C.pinsTotal - k * C.defaultPadGroupSize)
  gpioBase := 0
  padownIndex := k

/-- How many implicit pad groups a community has: `ceil(pins_total / default_pad_group_size)` (R111). -/
def implicitCount (C : Community) : Nat :=
  (C.pinsTotal + C.defaultPadGroupSize - 1) / C.defaultPadGroupSize

/-- The effective pad-group list `groups(c)` (R28). -/
def groupsOf (C : Community) : List PadGroup :=
  match C.padGroups with
  | some gs => gs
  | none => (List.range (implicitCount C)).map (implicitGroup C)

/-- The pins of a community, ascending (R24, R183). -/
def communityPins (C : Community) : List Nat := (List.range C.pinsTotal).map (C.pinBase + ·)

/-- Every pin of every community, in table order: the resolvable pins of an accepted table, ascending (R205). -/
def allPins (T : Table) : List Nat := T.communities.flatMap communityPins

/-- Where a pin lies: community and pad-group index with the entries they select (R111). -/
structure Loc where
  c : Nat
  g : Nat
  com : Community
  grp : PadGroup
  deriving DecidableEq, Repr

/-- The bit index of a pin in its pad group's registers (R42, R111). -/
def Loc.bit (loc : Loc) (pin : Nat) : Nat := pin - loc.grp.basePin

/-- The first pad group that holds a pin, with its index (R111). -/
def findGroup : List PadGroup → Nat → Nat → Option (Nat × PadGroup)
  | [], _, _ => none
  | G :: rest, g, pin =>
    if G.basePin ≤ pin ∧ pin < G.basePin + G.size then some (g, G) else findGroup rest (g + 1) pin

/-- A pin inside community `C` of index `c`: the pad group that holds it (R111). -/
def resolveIn (C : Community) (c pin : Nat) : Option Loc :=
  match C.padGroups with
  | some gs => (findGroup gs 0 pin).map fun x => ⟨c, x.1, C, x.2⟩
  | none =>
    let g := (pin - C.pinBase) / C.defaultPadGroupSize
    some ⟨c, g, C, implicitGroup C g⟩

/-- The walk of R111 over the communities, from index `c` on. -/
def resolveFrom : List Community → Nat → Nat → Option Loc
  | [], _, _ => none
  | C :: rest, c, pin =>
    if C.pinBase ≤ pin ∧ pin < C.pinBase + C.pinsTotal then resolveIn C c pin
    else resolveFrom rest (c + 1) pin

/-- `resolve(p)` (R111); none is `NotFound`. -/
def resolve (T : Table) (pin : Nat) : Option Loc := resolveFrom T.communities 0 pin

/-- The offset field of a community-scoped register kind (R112); a padcfg kind has none. -/
def kindOffset (C : Community) : RegKind → Nat
  | .padOwner => C.padOwnerOffset
  | .padcfgLock => C.padConfigLockOffset
  | .hostswOwn => C.hostOwnerOffset
  | .gpiIe => C.interruptEnableOffset
  | .gpiIs => C.isOffset
  | .padcfg0 | .padcfg1 | .padcfg2 => 0

/-- `reg(C, G, o)` of spec/44_power_context.md: the address of a pad group's register of the kind with offset `o` (R112). -/
def groupReg (C : Community) (G : PadGroup) (o : Nat) : Nat :=
  C.mappedBase + o + G.padownIndex.toNat * regStride

/-- The address of padcfg `k` of a pin (R112). -/
def padcfgReg (P : Params) (C : Community) (pin k : Nat) : Nat :=
  C.mappedBase + C.padcfgOffset + (pin - C.pinBase) * P.padcfgStride + 4 * k

/-- The address of a register kind for a pin that resolves to `loc`; none where the kind is absent (R25, R112). -/
def Loc.addr (P : Params) (loc : Loc) (pin : Nat) (kind : RegKind) : Option Nat :=
  match kind with
  | .padcfg0 => some (padcfgReg P loc.com pin 0)
  | .padcfg1 => some (padcfgReg P loc.com pin 1)
  | .padcfg2 => some (padcfgReg P loc.com pin 2)
  | _ => if kindOffset loc.com kind = 0 then none else some (groupReg loc.com loc.grp (kindOffset loc.com kind))

/-- `addr(p, kind)` (R112); none is `AddressingFailure`. -/
def regAddr (P : Params) (T : Table) (pin : Nat) (kind : RegKind) : Option Nat :=
  (resolve T pin).bind fun loc => loc.addr P pin kind

/-- The number of a padcfg index (R88). -/
def padIdxNum (k : PadIdx) : Nat := k.code.toNat

/-- R172: the source number of bit `i` of a pad group: remapped through a positive `gpio_base`, else the pin number. -/
def sourceNumber (G : PadGroup) (i : Nat) : Nat :=
  if 0 < G.gpioBase then G.gpioBase.toNat + i else G.basePin + i

/-- `PADCFG_DEFAULT(p, k)` (R7). -/
def padcfgDefault (P : Params) (pin k : Nat) : Word :=
  match P.padcfgDefaults.find? (fun d => d.pin == pin && d.index == k) with
  | some d => d.value
  | none => P.padcfgFallback

end Sys2Proof.Machine
end

