-- ==== Sys2Proof/Machine/Flags.lean ====
section
/-! DEFINITION. The block has no condition flags (spec/10_state.md R39); what it computes on bits is here: the fields of
padcfg0 (R44, spec/42_interrupt.md R147), a pin's bit of a per-group register (R42, R43), and the result codes with their
boundary statuses (spec/30_encoding.md R92, R94). -/

namespace Sys2Proof.Machine

/-- Bit `b` of a per-group register (R42). -/
def pinBit (v : Word) (b : Nat) : Bool := v.getLsbD b

/-- `1 << b` (R9). -/
def bitMask (b : Nat) : Word := 1#32 <<< b

/-- The value `MASK_UNMASK` writes to GPI_IE: bit `b` cleared to mask, set to unmask (R150; C6). -/
def enableBits (mask : Bool) (v : Word) (b : Nat) : Word :=
  if mask then v &&& ~~~ (bitMask b) else v ||| bitMask b

/-- `PMODE(v)`: the mux-mode field of padcfg0 (R44). -/
def pmodeField (P : Params) (v : Word) : Word := (v >>> P.pmodeShift) &&& BitVec.ofNat 32 P.pmodeMask

/-- A padcfg0 value says ACPI mode (R44, R126). -/
def acpiBits (P : Params) (v : Word) : Bool := pmodeField P v == BitVec.ofNat 32 P.acpiModeValue

/-- `TRIG(v)`: the edge/level field of padcfg0 (R44). -/
def trigField (P : Params) (v : Word) : Word := (v >>> P.trigShift) &&& BitVec.ofNat 32 P.trigMask

/-- `FIELD = TRIG_MASK << TRIG_SHIFT` (R147). -/
def trigFieldMask (P : Params) : Word := BitVec.ofNat 32 P.trigMask <<< P.trigShift

/-- `kindval(t)` (R147). -/
def kindVal (P : Params) : TrigType → Word
  | .levelHigh | .levelLow => BitVec.ofNat 32 P.trigLevelVal
  | .edgeRising | .edgeFalling => BitVec.ofNat 32 P.trigEdgeVal

/-- `inv(t)` (R147). -/
def invVal : TrigType → Bool
  | .levelHigh | .edgeRising => false
  | .levelLow | .edgeFalling => true

/-- `enc(t, v)` (R147): the padcfg0 value with the edge/level field and the polarity bit of a trigger type. -/
def encTrig (P : Params) (t : TrigType) (v : Word) : Word :=
  (v &&& ~~~ (trigFieldMask P) &&& ~~~ (bitMask P.invBit))
    ||| (kindVal P t <<< P.trigShift)
    ||| (if invVal t then bitMask P.invBit else 0#32)

/-- `dec(v)` (R147): the trigger type a padcfg0 value holds. -/
def decTrig (P : Params) (v : Word) : Option TrigType :=
  let f := trigField P v
  let i := v.getLsbD P.invBit
  if f = BitVec.ofNat 32 P.trigLevelVal then some (if i then .levelLow else .levelHigh)
  else if f = BitVec.ofNat 32 P.trigEdgeVal then some (if i then .edgeFalling else .edgeRising)
  else none

/-- A Boolean answer in `RESP_VALUE` (R93). -/
def boolValue (b : Bool) : Word64 := if b then 1#64 else 0#64

/-- `RESOLVE`'s payload (R93, R113). -/
def resolveValue (loc : Loc) (pin : Nat) : Word64 :=
  0#16 ++ BitVec.ofNat 16 (pin - loc.com.pinBase) ++ BitVec.ofNat 16 loc.g ++ BitVec.ofNat 16 loc.c

/-- The trigger-type code in `RESP_VALUE` (R93, R96). -/
def trigValue (t : TrigType) : Word64 := t.code.setWidth 64

/-- The result codes of R92. -/
inductive ResultCode where
  | ok | addressingFailure | ownershipDenied | locked | alreadyRegistered | notRegistered | inactiveCommunity
  | notInitialized | illegalCommand | unknownTriggerType | invalidTable | alreadyInitialized
  deriving DecidableEq, Repr

/-- The number of a result code in `RESP_CODE` (R92). -/
def resultBits : ResultCode → BitVec 8
  | .ok => 0x00#8
  | .addressingFailure => 0x01#8
  | .ownershipDenied => 0x02#8
  | .locked => 0x03#8
  | .alreadyRegistered => 0x04#8
  | .notRegistered => 0x05#8
  | .inactiveCommunity => 0x06#8
  | .notInitialized => 0x07#8
  | .illegalCommand => 0x08#8
  | .unknownTriggerType => 0x09#8
  | .invalidTable => 0x0A#8
  | .alreadyInitialized => 0x0B#8

/-- The boundary's status categories (R94); their numbers are the collaborator's. -/
inductive BoundaryStatus where
  | success | notPermitted | notFound | busy | notReady | unsupported | badArgument
  deriving DecidableEq, Repr

/-- The boundary status of a result code (R94). -/
def boundaryStatus : ResultCode → BoundaryStatus
  | .ok => .success
  | .ownershipDenied | .locked => .notPermitted
  | .addressingFailure | .notRegistered => .notFound
  | .alreadyRegistered | .alreadyInitialized => .busy
  | .inactiveCommunity | .notInitialized => .notReady
  | .unknownTriggerType => .unsupported
  | .illegalCommand | .invalidTable => .badArgument

end Sys2Proof.Machine
end

