-- ==== Sys2Proof/Machine/Boundary.lean ====
section
/-! DEFINITION. The boundary's names: the pseudo-instructions of spec/30_encoding.md R103 and the assembly syntax of R102.
Neither takes part in a step. -/

namespace Sys2Proof.Machine

/-- The inbound boundary names of R103. -/
inductive BoundaryCall where
  | getInterruptType (pin : Nat)
  | registerInterrupt (pin : Nat) (owner handler context : Word64)
  | unregisterInterrupt (pin : Nat)
  | enableInterrupt (pin : Nat)
  | disableInterrupt (pin : Nat)
  | setInterruptTypeForPin (pin : Nat) (type : TrigType)
  | getPinStatus (pin : Nat)
  | setPowerState (state : PowerState)
  | enable (pin : Nat)
  | disable (pin : Nat)
  | isUnlocked (pin : Nat)
  deriving DecidableEq, Repr

/-- The one command a boundary name stands for (R103). -/
def expandCall : BoundaryCall → Instr
  | .getInterruptType pin => .getInterruptType pin
  | .registerInterrupt pin owner handler context => .register pin owner handler context
  | .unregisterInterrupt pin => .unregister pin
  | .enableInterrupt pin => .enable pin
  | .disableInterrupt pin => .disable pin
  | .setInterruptTypeForPin pin type => .setTriggerType pin type
  | .getPinStatus pin => .getPinStatus pin
  | .setPowerState state => .setPowerState state
  | .enable pin => .enable pin
  | .disable pin => .disable pin
  | .isUnlocked pin => .isUnlocked pin

/-- A register kind's name (R95). -/
def kindName : RegKind → String
  | .padcfg0 => "PADCFG0"
  | .padcfg1 => "PADCFG1"
  | .padcfg2 => "PADCFG2"
  | .padOwner => "PAD_OWNER"
  | .padcfgLock => "PADCFG_LOCK"
  | .hostswOwn => "HOSTSW_OWN"
  | .gpiIe => "GPI_IE"
  | .gpiIs => "GPI_IS"

/-- A trigger type's name (R96). -/
def trigName : TrigType → String
  | .levelHigh => "LevelHigh"
  | .levelLow => "LevelLow"
  | .edgeRising => "EdgeRising"
  | .edgeFalling => "EdgeFalling"

/-- A mnemonic and its operands, separated by commas (R102). -/
def asmLine (mnemonic : String) (operands : List String) : String :=
  match operands with
  | [] => mnemonic
  | _ => mnemonic ++ " " ++ String.intercalate ", " operands

/-- A flag as an operand (R102). -/
def flagText (f : Bool) : String := if f then "1" else "0"

/-- The assembly line of a command (R102), its numbers in decimal. -/
def asmOf : Instr → String
  | .init => asmLine "INIT" []
  | .resolve pin => asmLine "RESOLVE" [toString pin]
  | .regaddr pin kind => asmLine "REGADDR" [toString pin, kindName kind]
  | .ownedByHost pin => asmLine "OWNED_BY_HOST" [toString pin]
  | .acpiMode pin => asmLine "ACPI_MODE" [toString pin]
  | .locked pin => asmLine "LOCKED" [toString pin]
  | .isUnlocked pin => asmLine "IS_UNLOCKED" [toString pin]
  | .readPadcfg pin k => asmLine "READ_PADCFG" [toString pin, toString (padIdxNum k)]
  | .writePadcfg pin k value => asmLine "WRITE_PADCFG" [toString pin, toString (padIdxNum k), toString value.toNat]
  | .setTriggerType pin type => asmLine "SET_TRIGGER_TYPE" [toString pin, trigName type]
  | .getInterruptType pin => asmLine "GET_INTERRUPT_TYPE" [toString pin]
  | .maskUnmask pin mask => asmLine "MASK_UNMASK" [toString pin, flagText mask]
  | .register pin owner callback context =>
    asmLine "REGISTER" [toString pin, toString owner.toNat, toString callback.toNat, toString context.toNat]
  | .unregister pin => asmLine "UNREGISTER" [toString pin]
  | .enable pin => asmLine "ENABLE" [toString pin]
  | .disable pin => asmLine "DISABLE" [toString pin]
  | .dispatch first => asmLine "DISPATCH" [flagText first]
  | .shouldSave pin => asmLine "SHOULD_SAVE" [toString pin]
  | .suspend => asmLine "SUSPEND" []
  | .resume => asmLine "RESUME" []
  | .setPowerState .sleeping => asmLine "SET_POWER_STATE" ["sleeping"]
  | .setPowerState .working => asmLine "SET_POWER_STATE" ["working"]
  | .getPinStatus pin => asmLine "GET_PIN_STATUS" [toString pin]

end Sys2Proof.Machine
end

