-- ==== Sys2Proof/Machine/TableCheck.lean ====
section
/-! DEFINITION. What an instance must satisfy: the parameter constraints of spec/00_scope.md R8 and the table checks W1 to W9
of spec/45_lifecycle.md R203. -/

namespace Sys2Proof.Machine

/-- A mask is non-zero and of the form 2^w - 1 (R8). -/
def isLowMask (m : Nat) : Bool := m != 0 && (m &&& (m + 1)) == 0

/-- The constraints of R8, in its order. -/
def paramsWf (P : Params) : Bool :=
  isLowMask P.pmodeMask && isLowMask P.trigMask
    && decide (P.pmodeMask <<< P.pmodeShift < 2 ^ 32) && decide (P.trigMask <<< P.trigShift < 2 ^ 32)
    && decide (P.invBit ≤ 31) && !(P.trigMask <<< P.trigShift).testBit P.invBit
    && P.trigEdgeVal != P.trigLevelVal && decide (P.trigEdgeVal ≤ P.trigMask) && decide (P.trigLevelVal ≤ P.trigMask)
    && decide (P.acpiModeValue ≤ P.pmodeMask)
    && P.padcfgStride % 4 == 0 && decide (12 ≤ P.padcfgStride)

/-- `end(C)` (R203). -/
def pinEnd (C : Community) : Nat := C.pinBase + C.pinsTotal

/-- W1: declared numbers and community ends fit 16 bits. -/
def checkW1 (T : Table) : Bool :=
  T.pins.all (fun d => decide (d.number < 2 ^ pinWidth)) && T.communities.all (fun C => decide (pinEnd C ≤ 2 ^ pinWidth))

/-- W2: each community ends before the next begins. -/
def checkW2From : List Community → Bool
  | [] => true
  | C :: rest =>
    (match rest with
      | [] => true
      | D :: _ => decide (pinEnd C ≤ D.pinBase)) && checkW2From rest

/-- W2 of a table. -/
def checkW2 (T : Table) : Bool := checkW2From T.communities

/-- W3: every community has a pin. -/
def checkW3 (T : Table) : Bool := T.communities.all (fun C => decide (1 ≤ C.pinsTotal))

/-- W4: explicit pad groups hold 1 to 32 pins. -/
def checkW4 (T : Table) : Bool :=
  T.communities.all fun C =>
    match C.padGroups with
    | some gs => gs.all (fun G => decide (1 ≤ G.size) && decide (G.size ≤ 32))
    | none => true

/-- The chain of W5: each group begins where the one before ended, the last ends at `stop`. -/
def groupsChain : List PadGroup → Nat → Nat → Bool
  | [], at', stop => at' == stop
  | G :: rest, at', stop => G.basePin == at' && groupsChain rest (G.basePin + G.size) stop

/-- W5: explicit pad groups are non-empty, contiguous, cover the community and have indices that are not negative. -/
def checkW5 (T : Table) : Bool :=
  T.communities.all fun C =>
    match C.padGroups with
    | some gs => !gs.isEmpty && groupsChain gs C.pinBase (pinEnd C) && gs.all (fun G => decide (0 ≤ G.padownIndex))
    | none => true

/-- W6: implicit pad groups hold 1 to 32 pins. -/
def checkW6 (T : Table) : Bool :=
  T.communities.all fun C =>
    match C.padGroups with
    | some _ => true
    | none => decide (1 ≤ C.defaultPadGroupSize) && decide (C.defaultPadGroupSize ≤ 32)

/-- No number stands twice in a list. -/
def noRepeats : List Nat → Bool
  | [] => true
  | n :: rest => !rest.contains n && noRepeats rest

/-- W7: the declared pins are exactly the pins of the communities, each once. -/
def checkW7 (T : Table) : Bool :=
  let numbers := T.pins.map (·.number)
  noRepeats numbers && numbers.all (fun n => T.communities.any (fun C => decide (C.pinBase ≤ n) && decide (n < pinEnd C)))
    && (allPins T).all (fun p => numbers.contains p)

/-- The offset fields of a community's community-scoped registers (R24). -/
def scopedOffsets (C : Community) : List Nat :=
  [C.padOwnerOffset, C.padConfigLockOffset, C.hostOwnerOffset, C.interruptEnableOffset, C.isOffset]

/-- W8: every address lies below 2^64. -/
def checkW8 (P : Params) (T : Table) : Bool :=
  T.communities.all fun C =>
    decide (C.mappedBase + C.padcfgOffset + (C.pinsTotal - 1) * P.padcfgStride + 8 + 3 < 2 ^ addrWidth)
      && (scopedOffsets C).all (fun o => o == 0 || (groupsOf C).all (fun G => decide (groupReg C G o + 3 < 2 ^ addrWidth)))

/-- W9: the base, the pad-config offset and the offset fields are multiples of 4 (0 is one). -/
def checkW9 (T : Table) : Bool :=
  T.communities.all fun C =>
    C.mappedBase % 4 == 0 && C.padcfgOffset % 4 == 0 && (scopedOffsets C).all (fun o => o % 4 == 0)

/-- `well_formed(T')` (R203). -/
def tableWf (P : Params) (T : Table) : Bool :=
  checkW1 T && checkW2 T && checkW3 T && checkW4 T && checkW5 T && checkW6 T && checkW7 T && checkW8 P T && checkW9 T

end Sys2Proof.Machine
end

