-- ==== Sys2Proof/Machine/Ops.lean ====
section
/-! DEFINITION. The operations every command is written with: responses and failure (spec/00_scope.md R10,
spec/60_exceptions.md R219), the register agent's steps (spec/20_memory.md R72), the register bus (R64 to R68, R73), the
guard (spec/41_guard.md R126), the checks of R212 to R214, and the gate (R76). -/

namespace Sys2Proof.Machine

/-- One step's outcome. -/
abbrev Out := Host.Outcome State Fault Refusal

/-- A piece of a command that answers a value in the state it leaves. -/
abbrev Run (α : Type) := Host.Outcome (α × State) Fault Refusal

/-- Go on with a piece's value and state; a stop stays a stop. -/
def Run.andThen {α β : Type} (r : Run α) (k : α → State → Host.Outcome β Fault Refusal) : Host.Outcome β Fault Refusal :=
  match r with
  | .next (v, s) => k v s
  | .fault f => .fault f
  | .refused x => .refused x

/-- Go on from the state a piece leaves; a stop stays a stop. -/
def thenState (r : Out) (k : State → Out) : Out :=
  match r with
  | .next s => k s
  | .fault f => .fault f
  | .refused x => .refused x

/-- `for x ascending in xs` (R10). -/
def forEach {α : Type} : List α → (α → State → Out) → State → Out
  | [], _, s => .next s
  | x :: rest, f, s => thenState (f x s) (forEach rest f)

/-! ## Responses -/

/-- `respond(code, value)` (R10, R92). -/
def respond (code : ResultCode) (value : Word64) (s : State) : State :=
  { s with respCode := resultBits code, respValue := value }

/-- `raise E`: failure entry (R219, R10). `RESP_VALUE` is 0; nothing is saved, masked or jumped to, and there is no return. -/
def raise (code : ResultCode) (s : State) : State := respond code 0 s

/-- `emit` (R10, R36). -/
def emit (e : Event) (s : State) : State := { s with events := s.events ++ [e] }

/-! ## Per-community and per-pin state -/

/-- `active[c]` (R32). -/
def isActive (s : State) (c : Nat) : Bool := s.active.getD c false

/-- `busy[c]` (R33). -/
def isBusy (s : State) (c : Nat) : Bool := s.busy.getD c false

/-- `busy[c] <- v` (R33). -/
def setBusy (c : Nat) (v : Bool) (s : State) : State := { s with busy := s.busy.set c v }

/-- `irq[p]` (R34). -/
def irqOf (s : State) (pin : Nat) : IrqRecord := storeGet IrqRecord.cleared s.irq pin

/-- `irq[p] <- r` (R34). -/
def setIrq (pin : Nat) (r : IrqRecord) (s : State) : State := { s with irq := storeSet s.irq pin r }

/-- `ctx.pin[p]` (R35). -/
def pinCtx (s : State) (pin : Nat) : PinContext := storeGet PinContext.zero s.ctxPin pin

/-- `ctx.pin[p] <- x` (R35). -/
def setPinCtx (pin : Nat) (x : PinContext) (s : State) : State := { s with ctxPin := storeSet s.ctxPin pin x }

/-- The zero-filled snapshot of a community: one word of each kind per pad group (R35). -/
def zeroComm (C : Community) : CommContext :=
  ⟨false, (groupsOf C).map (fun _ => 0), (groupsOf C).map (fun _ => 0)⟩

/-- `ctx.comm[c]` (R35). -/
def commCtx (s : State) (c : Nat) : CommContext := s.ctxComm.getD c ⟨false, [], []⟩

/-- `ctx.comm[c] <- x` (R35). -/
def setCommCtx (c : Nat) (x : CommContext) (s : State) : State := { s with ctxComm := s.ctxComm.set c x }

/-! ## The register agent (R72, R73, R76) -/

/-- Change a register of the register space. -/
def setReg (a : Nat) (v : Word) (s : State) : State := { s with mem := s.mem.writeWord a v }

/-- Accept a command into the gate's queue, behind the earlier ones (R76). -/
def enqueue (sub : Submission) (s : State) : State := { s with queue := s.queue ++ [sub] }

/-- Address `a` holds a GPI_IS register of a community that `sel` picks (R68, R71). -/
def isStatusReg (T : Table) (sel : Nat → Bool) (a : Nat) : Bool :=
  (indexedFrom 0 T.communities).any fun x =>
    sel x.1 && x.2.isOffset != 0 && (groupsOf x.2).any (fun G => groupReg x.2 G x.2.isOffset == a)

/-- Pin `pin`'s PADCFG_LOCK bit is 1 in the register space (R43). -/
def lockBitSet (s : State) (pin : Nat) : Bool :=
  match resolve s.table pin with
  | none => false
  | some loc =>
    loc.com.padConfigLockOffset != 0
      && pinBit (s.mem.readWord (groupReg loc.com loc.grp loc.com.padConfigLockOffset)) (loc.bit pin)

/-- Address `a` is a padcfg register of a pin whose PADCFG_LOCK bit is 1 (R68). -/
def isLockedPadcfg (s : State) (a : Nat) : Bool :=
  (allPins s.table).any fun p =>
    ((regAddr s.params s.table p .padcfg0 == some a) || (regAddr s.params s.table p .padcfg1 == some a)
      || (regAddr s.params s.table p .padcfg2 == some a)) && lockBitSet s p

/-- The interrupt-delivery facility's command: `DISPATCH` with `first` = 1 (R216). DESIGN CHOICE: its three operand words are
0, where the spec says only that they are ignored (R87; log entry 23), and the table beside them is empty (log entry 11). -/
def dispatchFirst : Submission := ⟨encode (.dispatch true), Table.empty⟩

/-- One step of the register agent or of a submitter. A step that R72 does not allow in this state changes nothing: "It takes
no others"; and none clears a GPI_IS bit of an active community. -/
def applyAgent (x : AgentStep) (s : State) : State :=
  match x with
  | .powerOn a v => if s.initialized = false ∧ a % 4 = 0 ∧ a < 2 ^ addrWidth then setReg a v s else s
  | .pending pin bits =>
    match regAddr s.params s.table pin .gpiIs with
    | some a => setReg a (s.mem.readWord a ||| bits) s
    | none => s
  | .railOff pin kind v =>
    match resolve s.table pin, regAddr s.params s.table pin kind with
    | some loc, some a =>
      if isActive s loc.c = false ∧ isStatusReg s.table (isActive s) a = false then setReg a v s else s
    | _, _ => s
  | .firmware pin kind v =>
    match regAddr s.params s.table pin kind with
    | some a => if kind ≠ .gpiIs ∧ isStatusReg s.table (isActive s) a = false then setReg a v s else s
    | none => s
  | .interruptLine => enqueue dispatchFirst s
  | .submit sub => enqueue sub s

/-- A batch of steps, in order. -/
def applyAll : List AgentStep → State → State
  | [], s => s
  | x :: rest, s => applyAll rest (applyAgent x s)

/-- The point between two micro-steps or two commands: the next batch of the register agent's and submitters' steps (R38,
R72). -/
def agentTurn (s : State) : State :=
  match s.agent with
  | [] => s
  | batch :: rest => applyAll batch { s with agent := rest }

/-! ## The register bus (R64 to R68) -/

/-- Record a micro-step (R38). -/
def logStep (m : MicroStep) (s : State) : State := { s with trace := s.trace ++ [m] }

/-- The register agent's effect of `MemWrite(a, 4, v)` (R68): write-one-to-clear for GPI_IS, the agent's draw for a locked
pin's padcfg (R73), a plain write for every other register. -/
def regWrite (a : Nat) (v : Word) (s : State) : State :=
  if isStatusReg s.table (fun _ => true) a then setReg a (s.mem.readWord a &&& ~~~ v) s
  else if isLockedPadcfg s a then
    let s' := { s with draws := s.draws + 1 }
    if Config.lockedWriteTakes s.draws then setReg a v s' else s'
  else setReg a v s

/-- `MemRead(a, 4)` (R64): the register's value at the moment of the read; no side effect (R67). A misaligned address is
refused (R65). -/
def memRead (a : Nat) (s : State) : Run Word :=
  if a % 4 ≠ 0 then .refused (.misalignedAccess a)
  else if 2 ^ addrWidth ≤ a then .fault (.outsideAddressSpace a)
  else
    let s1 := agentTurn s
    .next (s1.mem.readWord a, logStep (.read a (s1.mem.readWord a)) s1)

/-- `MemWrite(a, 4, v)` (R64). -/
def memWrite (a : Nat) (v : Word) (s : State) : Out :=
  if a % 4 ≠ 0 then .refused (.misalignedAccess a)
  else if 2 ^ addrWidth ≤ a then .fault (.outsideAddressSpace a)
  else .next (logStep (.write a v) (regWrite a v (agentTurn s)))

/-- `settle()` (R176): one micro-step without an access or a state change; register-agent steps may occur during it. -/
def settle (s : State) : State := logStep (.settle s.params.settleDelay) (agentTurn s)

/-! ## The guard (R126) -/

/-- The three answers of `lock_state` (R126, R129). -/
inductive LockState where
  | unlocked | locked | noLockSupport
  deriving DecidableEq, Repr

/-- The three answers of `guard` (R126). -/
inductive Verdict where
  | pass | ownershipDenied | locked
  deriving DecidableEq, Repr

/-- `host_bit(p)` (R126). -/
def hostBit (loc : Loc) (pin : Nat) (s : State) : Run Bool :=
  if loc.com.hostOwnerOffset = 0 then .next (true, s)
  else (memRead (groupReg loc.com loc.grp loc.com.hostOwnerOffset) s).andThen fun v s1 =>
    .next (pinBit v (loc.bit pin), s1)

/-- `acpi(p)` (R126). -/
def acpi (loc : Loc) (pin : Nat) (s : State) : Run Bool :=
  (memRead (padcfgReg s.params loc.com pin 0) s).andThen fun v s1 => .next (acpiBits s1.params v, s1)

/-- `lock_state(p)` (R126). -/
def lockState (loc : Loc) (pin : Nat) (s : State) : Run LockState :=
  if loc.com.padConfigLockOffset = 0 then .next (.noLockSupport, s)
  else (memRead (groupReg loc.com loc.grp loc.com.padConfigLockOffset) s).andThen fun v s1 =>
    .next (if pinBit v (loc.bit pin) then .locked else .unlocked, s1)

/-- `guard(p)` (R126): host bit, ACPI mode, lock, stopping at the first that fails. -/
def guard (loc : Loc) (pin : Nat) (s : State) : Run Verdict :=
  (hostBit loc pin s).andThen fun host s1 =>
    if host = false then .next (.ownershipDenied, s1)
    else (acpi loc pin s1).andThen fun firmware s2 =>
      if firmware then .next (.ownershipDenied, s2)
      else (lockState loc pin s2).andThen fun lock s3 =>
        .next (if lock = .locked then .locked else .pass, s3)

/-! ## The checks of a command (R212) -/

/-- The initialized check (R213). -/
def whenInit (s : State) (k : Out) : Out :=
  if s.initialized then k else .next (raise .notInitialized s)

/-- `if resolve(pin) = NotFound: raise E`, then the rest with the pin's place. -/
def whenResolved (e : ResultCode) (pin : Nat) (s : State) (k : Loc → Out) : Out :=
  match resolve s.table pin with
  | none => .next (raise e s)
  | some loc => k loc

/-- `check_active(c)` (R214) with its defect signal (R215), for the command `i` on `pin`. -/
def whenActive (i : Instr) (pin : Nat) (loc : Loc) (s : State) (k : Out) : Out :=
  if isActive s loc.c then k
  else .next (raise .inactiveCommunity (emit (.defectSignal i.opcode.bits pin loc.c) s))

/-- The guard with the errors a failing guard raises (R133 and the other guarded commands). -/
def whenGuarded (loc : Loc) (pin : Nat) (s : State) (k : State → Out) : Out :=
  (guard loc pin s).andThen fun v s1 =>
    match v with
    | .ownershipDenied => .next (raise .ownershipDenied s1)
    | .locked => .next (raise .locked s1)
    | .pass => k s1

/-! ## Sequences that more than one command runs -/

/-- `MASK_UNMASK`'s sequence from `check_active` on (R150), for the command `i`, which may be `ENABLE` or `DISABLE`. -/
def maskSequence (i : Instr) (pin : Nat) (mask : Bool) (loc : Loc) (s : State) : Out :=
  whenActive i pin loc s <| whenGuarded loc pin s fun s1 =>
    let a := groupReg loc.com loc.grp loc.com.interruptEnableOffset
    (memRead a s1).andThen fun v s2 =>
      thenState (memWrite a (enableBits mask v (loc.bit pin)) s2) fun s3 =>
        let r := irqOf s3 pin
        let s4 := if r.state = .unregistered then s3
          else setIrq pin { r with state := if mask then .masked else .unmasked } s3
        .next (respond .ok 0 s4)

/-- `ENABLE` and `DISABLE` (R161, R162): the checks that come before `MASK_UNMASK`'s sequence. -/
def registeredMask (i : Instr) (pin : Nat) (mask : Bool) (s : State) : Out :=
  whenInit s <| whenResolved .addressingFailure pin s fun loc =>
    if loc.com.interruptEnableOffset = 0 then .next (raise .addressingFailure s)
    else if (irqOf s pin).state = .unregistered then .next (raise .notRegistered s)
    else maskSequence i pin mask loc s

/-! ## The gate (R76) -/

/-- Start an accepted command: its words reach `CMD` and `OPND`, its table is at hand (R37, R201). -/
def accept (sub : Submission) (rest : List Submission) (s : State) : State :=
  { s with cmd := sub.words.cmd, opnd0 := sub.words.opnd0, opnd1 := sub.words.opnd1, opnd2 := sub.words.opnd2,
           handed := sub.table, queue := rest }

end Sys2Proof.Machine
end

