-- ==== Sys2Proof/Machine/DispatchPass.lean ====
section
/-! DEFINITION. The dispatch pass: pending-status scan and handler fan-out (spec/43_dispatch.md R171, R172). -/

namespace Sys2Proof.Machine

/-- `deliver(c, G, i)` (R172): a callback for an unmasked pin, nothing for any other bit. -/
def deliver (G : PadGroup) (i : Nat) (s : State) : State :=
  if G.size ≤ i then s
  else
    let r := irqOf s (G.basePin + i)
    if r.state = .unmasked then emit (.callback r.callback r.context (sourceNumber G i)) s else s

/-- The bits of `v` that are set, at the positions listed, each delivered in turn (R171). -/
def deliverBits (G : PadGroup) (v : Word) : List Nat → State → State
  | [], s => s
  | i :: rest, s => deliverBits G v rest (if v.getLsbD i then deliver G i s else s)

/-- One pad group's part of the pass (R171): read, write back exactly the bits read, deliver. -/
def scanGroup (C : Community) (G : PadGroup) (s : State) : Out :=
  let a := groupReg C G C.isOffset
  (memRead a s).andThen fun v s1 =>
    if v = 0 then .next s1
    else thenState (memWrite a v s1) fun s2 => .next (deliverBits G v (List.range 32) s2)

/-- One community's part of the pass (R171); an inactive, busy or status-less community is skipped. -/
def scanCommunity (x : Nat × Community) (s : State) : Out :=
  if isActive s x.1 = false ∨ isBusy s x.1 = true ∨ x.2.isOffset = 0 then .next s
  else thenState (forEach (groupsOf x.2) (scanGroup x.2) (setBusy x.1 true s)) fun s1 => .next (setBusy x.1 false s1)

/-- `DISPATCH` (R171). -/
def execDispatch (first : Bool) (s : State) : Out :=
  whenInit s <|
    thenState (forEach (indexedFrom 0 s.table.communities) scanCommunity (if first then settle s else s)) fun s1 =>
      .next (respond .ok 0 s1)

end Sys2Proof.Machine
end

