-- ==== Sys2Proof/Machine/GuardCmds.lean ====
section
/-! DEFINITION. The guard's commands (spec/41_guard.md R127 to R133). -/

namespace Sys2Proof.Machine

/-- `OWNED_BY_HOST` (R127): a community without a host-ownership register answers 1 without an access. -/
def execOwnedByHost (pin : Nat) (s : State) : Out :=
  whenInit s <| whenResolved .addressingFailure pin s fun loc =>
    if loc.com.hostOwnerOffset = 0 then .next (respond .ok 1 s)
    else whenActive (.ownedByHost pin) pin loc s <|
      (hostBit loc pin s).andThen fun host s1 => .next (respond .ok (boolValue host) s1)

/-- `ACPI_MODE` (R128). -/
def execAcpiMode (pin : Nat) (s : State) : Out :=
  whenInit s <| whenResolved .addressingFailure pin s fun loc =>
    whenActive (.acpiMode pin) pin loc s <|
      (acpi loc pin s).andThen fun firmware s1 => .next (respond .ok (boolValue firmware) s1)

/-- `LOCKED` (R129): 2 is `NoLockSupport`, answered without an access. -/
def execLocked (pin : Nat) (s : State) : Out :=
  whenInit s <| whenResolved .addressingFailure pin s fun loc =>
    if loc.com.padConfigLockOffset = 0 then .next (respond .ok 2 s)
    else whenActive (.locked pin) pin loc s <|
      (lockState loc pin s).andThen fun lock s1 => .next (respond .ok (if lock = .locked then 1 else 0) s1)

/-- `IS_UNLOCKED` (R130). -/
def execIsUnlocked (pin : Nat) (s : State) : Out :=
  whenInit s <| whenResolved .addressingFailure pin s fun loc =>
    if loc.com.padConfigLockOffset = 0 then .next (respond .ok 1 s)
    else whenActive (.isUnlocked pin) pin loc s <|
      (lockState loc pin s).andThen fun lock s1 => .next (respond .ok (if lock = .locked then 0 else 1) s1)

/-- `GET_PIN_STATUS` (R131): no error and no defect signal past the initialized check. -/
def execGetPinStatus (pin : Nat) (s : State) : Out :=
  whenInit s <|
    match resolve s.table pin with
    | none => .next (respond .ok 0 s)
    | some loc =>
      if isActive s loc.c = false then .next (respond .ok 0 s)
      else (guard loc pin s).andThen fun v s1 => .next (respond .ok (if v = .pass then 1 else 0) s1)

/-- `READ_PADCFG` (R132): no guard. -/
def execReadPadcfg (pin : Nat) (k : PadIdx) (s : State) : Out :=
  whenInit s <| whenResolved .addressingFailure pin s fun loc =>
    whenActive (.readPadcfg pin k) pin loc s <|
      (memRead (padcfgReg s.params loc.com pin (padIdxNum k)) s).andThen fun v s1 =>
        .next (respond .ok (v.setWidth 64) s1)

/-- `WRITE_PADCFG` (R133): guarded, and the whole register is replaced. -/
def execWritePadcfg (pin : Nat) (k : PadIdx) (value : Word) (s : State) : Out :=
  whenInit s <| whenResolved .addressingFailure pin s fun loc =>
    whenActive (.writePadcfg pin k value) pin loc s <| whenGuarded loc pin s fun s1 =>
      thenState (memWrite (padcfgReg s1.params loc.com pin (padIdxNum k)) value s1) fun s2 =>
        .next (respond .ok 0 s2)

end Sys2Proof.Machine
end

