-- ==== Sys2Proof/Machine/Interrupt.lean ====
section
/-! DEFINITION. The interrupt controller's per-pin commands: trigger type, mask and registration
(spec/42_interrupt.md R146 to R162). -/

namespace Sys2Proof.Machine

/-- `SET_TRIGGER_TYPE` (R146): a read-modify-write of padcfg0, issued even when nothing changes, then the record. -/
def execSetTriggerType (pin : Nat) (type : TrigType) (s : State) : Out :=
  whenInit s <| whenResolved .addressingFailure pin s fun loc =>
    whenActive (.setTriggerType pin type) pin loc s <| whenGuarded loc pin s fun s1 =>
      let a := padcfgReg s1.params loc.com pin 0
      (memRead a s1).andThen fun v s2 =>
        thenState (memWrite a (encTrig s2.params type v) s2) fun s3 =>
          .next (respond .ok 0 (setIrq pin { irqOf s3 pin with trig := some type } s3))

/-- `GET_INTERRUPT_TYPE` (R148): the recorded type without an access, else padcfg0 decoded and not stored. -/
def execGetInterruptType (pin : Nat) (s : State) : Out :=
  whenInit s <| whenResolved .addressingFailure pin s fun loc =>
    match (irqOf s pin).trig with
    | some t => .next (respond .ok (trigValue t) s)
    | none =>
      whenActive (.getInterruptType pin) pin loc s <|
        (memRead (padcfgReg s.params loc.com pin 0) s).andThen fun v s1 =>
          match decTrig s1.params v with
          | none => .next (raise .unknownTriggerType s1)
          | some t => .next (respond .ok (trigValue t) s1)

/-- `MASK_UNMASK` (R150). -/
def execMaskUnmask (pin : Nat) (mask : Bool) (s : State) : Out :=
  whenInit s <| whenResolved .addressingFailure pin s fun loc =>
    if loc.com.interruptEnableOffset = 0 then .next (raise .addressingFailure s)
    else maskSequence (.maskUnmask pin mask) pin mask loc s

/-- `REGISTER` (R155): the pin starts masked; no register is written. -/
def execRegister (pin : Nat) (owner callback context : Word64) (s : State) : Out :=
  whenInit s <| whenResolved .addressingFailure pin s fun loc =>
    if loc.grp.gpioBase < 0 then .next (raise .addressingFailure s)
    else if (irqOf s pin).state ≠ .unregistered then .next (raise .alreadyRegistered s)
    else whenActive (.register pin owner callback context) pin loc s <| whenGuarded loc pin s fun s1 =>
      let r := { irqOf s1 pin with owner := owner, callback := callback, context := context, state := .masked }
      .next (respond .ok 0 (setIrq pin r s1))

/-- `UNREGISTER` (R158): no access, no active community needed; a pin that does not resolve is not registered (C7). -/
def execUnregister (pin : Nat) (s : State) : Out :=
  whenInit s <| whenResolved .notRegistered pin s fun _ =>
    if (irqOf s pin).state = .unregistered then .next (raise .notRegistered s)
    else .next (respond .ok 0 (setIrq pin IrqRecord.cleared s))

/-- `ENABLE` (R161). -/
def execEnable (pin : Nat) (s : State) : Out := registeredMask (.enable pin) pin false s

/-- `DISABLE` (R162). -/
def execDisable (pin : Nat) (s : State) : Out := registeredMask (.disable pin) pin true s

end Sys2Proof.Machine
end

