-- ==== Sys2Proof/Machine/Lifecycle.lean ====
section
/-! DEFINITION. `INIT` (spec/45_lifecycle.md R201 to R203). -/

namespace Sys2Proof.Machine

/-- The state a successful `INIT` installs for a table (R201, R46); `events` and the register space stay. -/
def installTable (T : Table) (s : State) : State :=
  { s with
    table := T
    active := T.communities.map (fun _ => true)
    busy := T.communities.map (fun _ => false)
    irq := storeFill IrqRecord.cleared (allPins T)
    ctxPin := storeFill PinContext.zero (allPins T)
    ctxComm := T.communities.map zeroComm
    suspended := false
    initialized := true }

/-- `INIT` (R201): the table is the one handed over with the command. -/
def execInit (s : State) : Out :=
  if s.initialized then .next (raise .alreadyInitialized s)
  else if tableWf s.params s.handed = false then .next (raise .invalidTable s)
  else .next (respond .ok 0 (installTable s.handed s))

end Sys2Proof.Machine
end

