-- ==== Sys2Proof/Machine/Power.lean ====
section
/-! DEFINITION. The register context snapshot and restore engine (spec/44_power_context.md R181 to R191). -/

namespace Sys2Proof.Machine

/-- The three reads of `save_test`, from index `k` on, stopping at the first difference from the default (R182). -/
def differsFromDefault (loc : Loc) (pin : Nat) : List Nat → State → Run Bool
  | [], s => .next (false, s)
  | k :: rest, s =>
    (memRead (padcfgReg s.params loc.com pin k) s).andThen fun v s1 =>
      if v ≠ padcfgDefault s1.params pin k then .next (true, s1) else differsFromDefault loc pin rest s1

/-- `save_test(p)` (R182). -/
def saveTest (loc : Loc) (pin : Nat) (s : State) : Run Bool :=
  (hostBit loc pin s).andThen fun host s1 =>
    if host = false then .next (false, s1)
    else (lockState loc pin s1).andThen fun lock s2 =>
      if lock = .locked then .next (false, s2) else differsFromDefault loc pin [0, 1, 2] s2

/-- `SHOULD_SAVE` (R181). -/
def execShouldSave (pin : Nat) (s : State) : Out :=
  whenInit s <| whenResolved .addressingFailure pin s fun loc =>
    whenActive (.shouldSave pin) pin loc s <|
      (saveTest loc pin s).andThen fun save s1 => .next (respond .ok (boolValue save) s1)

/-! ## Suspend (R183) -/

/-- The zero-filled snapshot store (R35, R183). -/
def zeroFill (s : State) : State :=
  { s with ctxComm := s.table.communities.map zeroComm, ctxPin := storeFill PinContext.zero (allPins s.table) }

/-- Read a pad group's register of the kind with offset `o`, if the community has one, into its snapshot word (R183). -/
def snapshotReg (C : Community) (G : PadGroup) (o : Nat) (store : Word → State → State) (s : State) : Out :=
  if o = 0 then .next s else (memRead (groupReg C G o) s).andThen fun v s1 => .next (store v s1)

/-- `ctx.comm[c].ie[g] <- v` (R183). -/
def storeIe (c g : Nat) (v : Word) (s : State) : State :=
  let x := commCtx s c
  setCommCtx c { x with ie := x.ie.set g v } s

/-- `ctx.comm[c].hostown[g] <- v` (R183). -/
def storeHostown (c g : Nat) (v : Word) (s : State) : State :=
  let x := commCtx s c
  setCommCtx c { x with hostown := x.hostown.set g v } s

/-- One pad group of the community snapshot: GPI_IE, then HOSTSW_OWN (R183, R184). -/
def snapshotGroup (c : Nat) (C : Community) (x : Nat × PadGroup) (s : State) : Out :=
  thenState (snapshotReg C x.2 C.interruptEnableOffset (storeIe c x.1) s)
    (snapshotReg C x.2 C.hostOwnerOffset (storeHostown c x.1))

/-- One community's snapshot (R183). -/
def snapshotCommunity (x : Nat × Community) (s : State) : Out :=
  thenState (forEach (indexedFrom 0 (groupsOf x.2)) (snapshotGroup x.1 x.2) s) fun s1 =>
    .next (setCommCtx x.1 { commCtx s1 x.1 with valid := true } s1)

/-- The three snapshot reads of a pin, padcfg0 first (R183). -/
def readPadcfgs (loc : Loc) (pin : Nat) (s : State) : Run PinContext :=
  (memRead (padcfgReg s.params loc.com pin 0) s).andThen fun v0 s1 =>
    (memRead (padcfgReg s1.params loc.com pin 1) s1).andThen fun v1 s2 =>
      (memRead (padcfgReg s2.params loc.com pin 2) s2).andThen fun v2 s3 =>
        .next (⟨true, v0, v1, v2⟩, s3)

/-- One pin's part of the pin snapshot (R183). -/
def snapshotPin (pin : Nat) (s : State) : Out :=
  match resolve s.table pin with
  | none => .next s
  | some loc =>
    (saveTest loc pin s).andThen fun save s1 =>
      if save then (readPadcfgs loc pin s1).andThen fun x s2 => .next (setPinCtx pin x s2)
      else .next s1

/-- A community keeps its rail through a suspend (R26, R185). -/
def keepsActive (C : Community) : Bool := C.featureFlags.getLsbD 0

/-- The power-down of R183: every community without the keep-active flag becomes inactive. -/
def powerDownFrom : List Community → List Bool → List Bool
  | C :: rest, a :: as => (if keepsActive C then a else false) :: powerDownFrom rest as
  | _, as => as

/-- `SUSPEND`'s sequence (R183); a repeated suspend does nothing (R185). -/
def suspendSequence (s : State) : Out :=
  if s.suspended then .next (respond .ok 0 s)
  else
    thenState (forEach (indexedFrom 0 s.table.communities) snapshotCommunity (zeroFill s)) fun s1 =>
      thenState (forEach (allPins s1.table) snapshotPin s1) fun s2 =>
        .next (respond .ok 0
          { s2 with active := powerDownFrom s2.table.communities s2.active, suspended := true })

/-- `SUSPEND` (R183). -/
def execSuspend (s : State) : Out := whenInit s <| suspendSequence s

/-! ## Resume (R186) -/

/-- Write the words of a snapshot array back, pad groups ascending (R187). -/
def restoreGroup (C : Community) (o : Nat) (words : List Word) (x : Nat × PadGroup) (s : State) : Out :=
  memWrite (groupReg C x.2 o) (words.getD x.1 0) s

/-- Write every pad group's register of the kind with offset `o`, if the community has one (R186). -/
def restoreKind (C : Community) (o : Nat) (words : List Word) (s : State) : Out :=
  if o = 0 then .next s else forEach (indexedFrom 0 (groupsOf C)) (restoreGroup C o words) s

/-- One community's restore: every HOSTSW_OWN, then every GPI_IE (R186, R187). -/
def restoreCommunity (x : Nat × Community) (s : State) : Out :=
  if (commCtx s x.1).valid then
    thenState (restoreKind x.2 x.2.hostOwnerOffset (commCtx s x.1).hostown s) fun s1 =>
      restoreKind x.2 x.2.interruptEnableOffset (commCtx s1 x.1).ie s1
  else .next s

/-- One pin's restore: three writes without a guard (R188). -/
def restorePin (pin : Nat) (s : State) : Out :=
  match resolve s.table pin with
  | none => .next s
  | some loc =>
    let x := pinCtx s pin
    if x.valid then
      thenState (memWrite (padcfgReg s.params loc.com pin 0) x.padcfg0 s) fun s1 =>
        thenState (memWrite (padcfgReg s1.params loc.com pin 1) x.padcfg1 s1) fun s2 =>
          memWrite (padcfgReg s2.params loc.com pin 2) x.padcfg2 s2
    else .next s

/-- A registered pin that fails its re-validation: left masked, its owner told (R189). -/
def refuseRearm (pin : Nat) (s : State) : State :=
  let r := irqOf s pin
  emit (.advisory r.owner pin) (setIrq pin { r with state := .masked } s)

/-- `revalidate(p)` (R189). -/
def revalidate (loc : Loc) (pin : Nat) (s : State) : Out :=
  if (irqOf s pin).state = .unmasked then
    if loc.com.interruptEnableOffset = 0 ∨ isActive s loc.c = false then .next (refuseRearm pin s)
    else (guard loc pin s).andThen fun v s1 =>
      if v = .pass then
        let a := groupReg loc.com loc.grp loc.com.interruptEnableOffset
        (memRead a s1).andThen fun w s2 => memWrite a (enableBits false w (loc.bit pin)) s2
      else .next (refuseRearm pin s1)
  else (guard loc pin s).andThen fun v s1 =>
    .next (if v = .pass then s1 else emit (.advisory (irqOf s1 pin).owner pin) s1)

/-- `revalidate` for a registered pin, nothing for any other (R186). -/
def revalidatePin (pin : Nat) (s : State) : Out :=
  if (irqOf s pin).state = .unregistered then .next s
  else
    match resolve s.table pin with
    | none => .next s
    | some loc => revalidate loc pin s

/-- The end of `RESUME`: the snapshot's `valid` flags are cleared, its words stay (R186). -/
def discardSnapshot (s : State) : State :=
  { s with
    ctxComm := s.ctxComm.map (fun x => { x with valid := false })
    ctxPin := s.ctxPin.map (fun e => (e.1, { e.2 with valid := false }))
    suspended := false }

/-- `RESUME`'s sequence (R186); a resume while not suspended does nothing (R190). -/
def resumeSequence (s : State) : Out :=
  if s.suspended = false then .next (respond .ok 0 s)
  else
    let s0 := { s with active := s.table.communities.map (fun _ => true) }
    thenState (forEach (indexedFrom 0 s0.table.communities) restoreCommunity s0) fun s1 =>
      thenState (forEach (allPins s1.table) restorePin s1) fun s2 =>
        thenState (forEach (allPins s2.table) revalidatePin s2) fun s3 =>
          .next (respond .ok 0 (discardSnapshot s3))

/-- `RESUME` (R186). -/
def execResume (s : State) : Out := whenInit s <| resumeSequence s

/-- `SET_POWER_STATE` (R191). -/
def execSetPowerState (state : PowerState) (s : State) : Out :=
  whenInit s <|
    match state with
    | .sleeping => suspendSequence s
    | .working => resumeSequence s

end Sys2Proof.Machine
end

