-- ==== Sys2Proof/Machine/Resolver.lean ====
section
/-! DEFINITION. `RESOLVE` and `REGADDR` (spec/40_resolver.md R113, R114): no access, no active community needed. -/

namespace Sys2Proof.Machine

/-- `RESOLVE` (R113). -/
def execResolve (pin : Nat) (s : State) : Out :=
  whenInit s <| whenResolved .addressingFailure pin s fun loc =>
    .next (respond .ok (resolveValue loc pin) s)

/-- `REGADDR` (R114). -/
def execRegaddr (pin : Nat) (kind : RegKind) (s : State) : Out :=
  whenInit s <|
    match regAddr s.params s.table pin kind with
    | none => .next (raise .addressingFailure s)
    | some a => .next (respond .ok (BitVec.ofNat 64 a) s)

end Sys2Proof.Machine
end

