-- ==== Sys2Proof/Machine/Dispatch.lean ====
section
/-! DEFINITION. The meaning of a decoded command: one arm per row of spec/opcode_table.json. -/

namespace Sys2Proof.Machine

def exec (i : Instr) (s : State) : Host.Outcome State Fault Refusal :=
  match i with
  | .init => Sys2Proof.Machine.execInit s
  | .resolve pin => Sys2Proof.Machine.execResolve pin s
  | .regaddr pin kind => Sys2Proof.Machine.execRegaddr pin kind s
  | .ownedByHost pin => Sys2Proof.Machine.execOwnedByHost pin s
  | .acpiMode pin => Sys2Proof.Machine.execAcpiMode pin s
  | .locked pin => Sys2Proof.Machine.execLocked pin s
  | .isUnlocked pin => Sys2Proof.Machine.execIsUnlocked pin s
  | .readPadcfg pin k => Sys2Proof.Machine.execReadPadcfg pin k s
  | .writePadcfg pin k value => Sys2Proof.Machine.execWritePadcfg pin k value s
  | .setTriggerType pin type => Sys2Proof.Machine.execSetTriggerType pin type s
  | .getInterruptType pin => Sys2Proof.Machine.execGetInterruptType pin s
  | .maskUnmask pin mask => Sys2Proof.Machine.execMaskUnmask pin mask s
  | .register pin owner callback context => Sys2Proof.Machine.execRegister pin owner callback context s
  | .unregister pin => Sys2Proof.Machine.execUnregister pin s
  | .enable pin => Sys2Proof.Machine.execEnable pin s
  | .disable pin => Sys2Proof.Machine.execDisable pin s
  | .dispatch first => Sys2Proof.Machine.execDispatch first s
  | .shouldSave pin => Sys2Proof.Machine.execShouldSave pin s
  | .suspend => Sys2Proof.Machine.execSuspend s
  | .resume => Sys2Proof.Machine.execResume s
  | .setPowerState state => Sys2Proof.Machine.execSetPowerState state s
  | .getPinStatus pin => Sys2Proof.Machine.execGetPinStatus pin s

end Sys2Proof.Machine
end

