-- ==== Sys2Proof/Machine/Step.lean ====
section
/-! DEFINITION. One step of the machine: the next command of the gate, whole (spec/20_memory.md R76,
spec/30_encoding.md R91). -/

namespace Sys2Proof.Machine

/-- One step: the instance's parameters hold (R8), the register agent and the submitters take their steps between commands
(R72, R76), and the next accepted command runs. With nothing queued the block waits (R46). Words that do not decode end with
`IllegalCommand` (R91). -/
def step (s : State) : Host.Outcome State Fault Refusal :=
  if paramsWf s.params = false then .refused .illFormedInstance
  else
    let s1 := agentTurn s
    match s1.queue with
    | [] => .next s1
    | sub :: rest =>
      let s2 := accept sub rest s1
      match decode sub.words with
      | .error _ => .next (raise .illegalCommand s2)
      | .ok i => exec i s2

/-- Put a command at the head of the gate's queue, so that the next step runs it. Its words are the table's bits; the table
handed over beside the words is the empty one (log entry 6). -/
def State.withFetchWord (s : State) (nbits w : Nat) : State :=
  { s with queue := ⟨wordsOfBits nbits w, Table.empty⟩ :: s.queue }

end Sys2Proof.Machine
end

