-- ==== Sys2Proof/Safety.lean ====
section
/-! DEFINITION. What counts as a sound state, and the words the statements are written in: what a pin's registers say, what a
guard reads, which registers exist, what a dispatch pass and a snapshot should give. Nothing here takes part in a step. -/

namespace Sys2Proof.Machine

/-- A register-bus address that may be accessed: a multiple of 4 below 2^64 (R63, R65). -/
abbrev onBus (a : Nat) : Prop := a % 4 = 0 ∧ a < 2 ^ addrWidth

/-- No register-agent or submitter step is to come (the premise "no register-agent step falls inside it" of R135). -/
abbrev Quiet (s : State) : Prop := s.agent = []

/-- `t` differs from `s` at most in what the bus, the register agent and the gate hold: block state, configuration and
response are as they were. -/
abbrev sameBlock (s t : State) : Prop :=
  t = { s with mem := t.mem, queue := t.queue, agent := t.agent, draws := t.draws, trace := t.trace }

/-! ## What a pin's registers say -/

/-- The pin's HOSTSW_OWN register. -/
abbrev hostReg (loc : Loc) : Nat := groupReg loc.com loc.grp loc.com.hostOwnerOffset

/-- The pin's PADCFG_LOCK register. -/
abbrev lockReg (loc : Loc) : Nat := groupReg loc.com loc.grp loc.com.padConfigLockOffset

/-- The pin's GPI_IE register. -/
abbrev enableReg (loc : Loc) : Nat := groupReg loc.com loc.grp loc.com.interruptEnableOffset

/-- Host-owned (R127): no host-ownership register, or the pin's bit of it is 1. -/
def hostOwned (loc : Loc) (pin : Nat) (m : Memory) : Bool :=
  loc.com.hostOwnerOffset == 0 || (m.readWord (hostReg loc)).getLsbD (pin - loc.grp.basePin)

/-- In ACPI mode (R44, R128). -/
def inAcpiMode (P : Params) (loc : Loc) (pin : Nat) (m : Memory) : Bool :=
  ((m.readWord (padcfgReg P loc.com pin 0) >>> P.pmodeShift) &&& BitVec.ofNat 32 P.pmodeMask)
    == BitVec.ofNat 32 P.acpiModeValue

/-- Locked (R43, R129): a lock register is present and the pin's bit of it is 1. -/
def lockHeld (loc : Loc) (pin : Nat) (m : Memory) : Bool :=
  loc.com.padConfigLockOffset != 0 && (m.readWord (lockReg loc)).getLsbD (pin - loc.grp.basePin)

/-- The three checks of R126 pass. -/
def mayMutate (P : Params) (loc : Loc) (pin : Nat) (m : Memory) : Bool :=
  hostOwned loc pin m && !inAcpiMode P loc pin m && !lockHeld loc pin m

/-- A read of a register of `m`, as the bus shows it. -/
def readOf (m : Memory) (a : Nat) : MicroStep := .read a (m.readWord a)

/-- The read of HOSTSW_OWN, if the community has one. -/
def hostReads (loc : Loc) (m : Memory) : List MicroStep :=
  if loc.com.hostOwnerOffset = 0 then [] else [readOf m (hostReg loc)]

/-- The read of PADCFG_LOCK, if the community has one. -/
def lockReads (loc : Loc) (m : Memory) : List MicroStep :=
  if loc.com.padConfigLockOffset = 0 then [] else [readOf m (lockReg loc)]

/-- The guard's reads, in order, stopping at the first failing check (R126). -/
def guardReads (P : Params) (loc : Loc) (pin : Nat) (m : Memory) : List MicroStep :=
  hostReads loc m ++
    if hostOwned loc pin m = false then []
    else readOf m (padcfgReg P loc.com pin 0) :: if inAcpiMode P loc pin m then [] else lockReads loc m

/-- The addresses the guard may read are on the bus. -/
def guardOnBus (P : Params) (loc : Loc) (pin : Nat) : Prop :=
  (loc.com.hostOwnerOffset ≠ 0 → onBus (hostReg loc)) ∧ onBus (padcfgReg P loc.com pin 0) ∧
    (loc.com.padConfigLockOffset ≠ 0 → onBus (lockReg loc))

/-- A write at `a` is a plain one (the third case of R68). -/
abbrev plainReg (s : State) (a : Nat) : Prop :=
  isStatusReg s.table (fun _ => true) a = false ∧ isLockedPadcfg s a = false

/-- `t` is `s` with the register at `a` holding `v`: no other byte, no block state, no queue entry changes. -/
def registerBecomes (a : Nat) (v : Word) (s t : State) : Prop :=
  t = { s with mem := t.mem } ∧ t.mem.readWord a = v ∧ ∀ q, q < a ∨ a + 4 ≤ q → t.mem.readByte q = s.mem.readByte q

/-- A pin's three padcfg registers in a register space. -/
def heldPadcfgs (P : Params) (loc : Loc) (pin : Nat) (m : Memory) : PinContext :=
  ⟨true, m.readWord (padcfgReg P loc.com pin 0), m.readWord (padcfgReg P loc.com pin 1),
    m.readWord (padcfgReg P loc.com pin 2)⟩

/-- `should_save` (R182): host-owned, not locked, and one of the three padcfg registers differs from its default. -/
def wouldSave (P : Params) (loc : Loc) (pin : Nat) (m : Memory) : Bool :=
  hostOwned loc pin m && !lockHeld loc pin m &&
    (m.readWord (padcfgReg P loc.com pin 0) != padcfgDefault P pin 0
      || m.readWord (padcfgReg P loc.com pin 1) != padcfgDefault P pin 1
      || m.readWord (padcfgReg P loc.com pin 2) != padcfgDefault P pin 2)

/-- The reads of padcfg `k` and on, up to the first that differs from its default (R182). -/
def differReads (P : Params) (loc : Loc) (pin : Nat) (m : Memory) : List Nat → List MicroStep
  | [] => []
  | k :: rest =>
    readOf m (padcfgReg P loc.com pin k) ::
      if m.readWord (padcfgReg P loc.com pin k) = padcfgDefault P pin k then differReads P loc pin m rest else []

/-- The reads of `save_test`, in order, stopping at the first that settles the answer (R182). -/
def saveReads (P : Params) (loc : Loc) (pin : Nat) (m : Memory) : List MicroStep :=
  hostReads loc m ++
    if hostOwned loc pin m = false then []
    else lockReads loc m ++ if lockHeld loc pin m then [] else differReads P loc pin m [0, 1, 2]

/-! ## Words and parameters, as the spec lists them -/

/-- A mask of the form 2^w - 1 that is not 0 (R8). -/
def maskForm (m : Nat) : Prop := ∃ w, 0 < w ∧ m + 1 = 2 ^ w

/-- The constraints of R8, in its words. -/
def paramsMeetR8 (P : Params) : Prop :=
  maskForm P.pmodeMask ∧ maskForm P.trigMask ∧
    P.pmodeMask * 2 ^ P.pmodeShift < 2 ^ 32 ∧ P.trigMask * 2 ^ P.trigShift < 2 ^ 32 ∧
    P.invBit ≤ 31 ∧ (P.trigMask * 2 ^ P.trigShift).testBit P.invBit = false ∧
    P.trigEdgeVal ≠ P.trigLevelVal ∧ P.trigEdgeVal ≤ P.trigMask ∧ P.trigLevelVal ≤ P.trigMask ∧
    P.acpiModeValue ≤ P.pmodeMask ∧ P.padcfgStride % 4 = 0 ∧ 12 ≤ P.padcfgStride

/-- The checks W1 to W9 of R203, in its words. W4 to W6 speak of the pad groups a community lists, or of its uniform size;
W8 and W9 of its addresses. -/
def tableMeetsR203 (P : Params) (T : Table) : Prop :=
  ((∀ d ∈ T.pins, d.number < 2 ^ 16) ∧ ∀ C ∈ T.communities, C.pinBase + C.pinsTotal ≤ 2 ^ 16) ∧
  (∀ c C D, T.communities[c]? = some C → T.communities[c + 1]? = some D → C.pinBase + C.pinsTotal ≤ D.pinBase) ∧
  (∀ C ∈ T.communities, 1 ≤ C.pinsTotal) ∧
  (∀ C ∈ T.communities, ∀ gs, C.padGroups = some gs → ∀ G ∈ gs, 1 ≤ G.size ∧ G.size ≤ 32) ∧
  (∀ C ∈ T.communities, ∀ gs, C.padGroups = some gs →
    gs ≠ [] ∧ (∀ G, gs[0]? = some G → G.basePin = C.pinBase) ∧
    (∀ i G H, gs[i]? = some G → gs[i + 1]? = some H → H.basePin = G.basePin + G.size) ∧
    (∀ G, gs.getLast? = some G → G.basePin + G.size = C.pinBase + C.pinsTotal) ∧ ∀ G ∈ gs, 0 ≤ G.padownIndex) ∧
  (∀ C ∈ T.communities, C.padGroups = none → 1 ≤ C.defaultPadGroupSize ∧ C.defaultPadGroupSize ≤ 32) ∧
  ((∀ n, n ∈ T.pins.map (·.number) ↔ ∃ C ∈ T.communities, C.pinBase ≤ n ∧ n < C.pinBase + C.pinsTotal) ∧
    (T.pins.map (·.number)).Nodup) ∧
  (∀ C ∈ T.communities, C.mappedBase + C.padcfgOffset + (C.pinsTotal - 1) * P.padcfgStride + 8 + 3 < 2 ^ 64 ∧
    ∀ o ∈ scopedOffsets C, o ≠ 0 → ∀ G ∈ groupsOf C, C.mappedBase + o + G.padownIndex.toNat * 4 + 3 < 2 ^ 64) ∧
  ∀ C ∈ T.communities, C.mappedBase % 4 = 0 ∧ C.padcfgOffset % 4 = 0 ∧ ∀ o ∈ scopedOffsets C, o ≠ 0 → o % 4 = 0

/-- The `SUB` values that R88 calls legal for an `OPC` value. -/
def legalSub (opc sub : Nat) : Prop :=
  if opc = 0x03 then True
  else if opc = 0x08 ∨ opc = 0x09 then sub ≤ 2
  else if opc = 0x0A then sub ≤ 3
  else if opc = 0x0C ∨ opc = 0x11 ∨ opc = 0x15 then sub ≤ 1
  else sub = 0

/-- The words that pass the five checks of R91, in numbers. -/
def legalWords (w : CmdWords) : Prop :=
  let opc := (w.cmd.extractLsb' 27 5).toNat
  (1 ≤ opc ∧ opc ≤ 0x16) ∧ w.cmd.extractLsb' 16 8 = 0 ∧ legalSub opc (w.cmd.extractLsb' 24 3).toNat ∧
    ((opc = 0x01 ∨ opc = 0x11 ∨ opc = 0x13 ∨ opc = 0x14 ∨ opc = 0x15) → w.cmd.extractLsb' 0 16 = 0) ∧
    (opc = 0x09 → w.opnd0.extractLsb' 32 32 = 0)

/-! ## The registers of a table -/

/-- The community-scoped registers of a pad group that are present (R25, R42). -/
def groupRegs (C : Community) (G : PadGroup) : List Nat :=
  ((scopedOffsets C).filter (· != 0)).map (groupReg C G)

/-- The padcfg registers of a pin (R41). -/
def pinRegs (P : Params) (C : Community) (pin : Nat) : List Nat :=
  [padcfgReg P C pin 0, padcfgReg P C pin 1, padcfgReg P C pin 2]

/-- Every register of a table's communities. -/
def allRegs (P : Params) (T : Table) : List Nat :=
  T.communities.flatMap fun C => (groupsOf C).flatMap (groupRegs C) ++ (communityPins C).flatMap (pinRegs P C)

/-- No two registers lie at one address: `INIT` does not check it (R203), so it is a premise where it is needed. -/
def layoutDistinct (P : Params) (T : Table) : Prop := (allRegs P T).Nodup

/-! ## A dispatch pass -/

/-- A community that a pass scans (R171). -/
def isScanned (s : State) (c : Nat) (C : Community) : Bool :=
  isActive s c && !isBusy s c && C.isOffset != 0

/-- The callback of bit `i` of a pad group, if it has one (R172). -/
def bitCallback (s : State) (G : PadGroup) (i : Nat) : List Event :=
  if i < G.size ∧ (irqOf s (G.basePin + i)).state = .unmasked then
    [.callback (irqOf s (G.basePin + i)).callback (irqOf s (G.basePin + i)).context
      (if 0 < G.gpioBase then G.gpioBase.toNat + i else G.basePin + i)]
  else []

/-- The callbacks of the pending bits `v` of a pad group, ascending by bit (R173). -/
def groupCallbacks (s : State) (G : PadGroup) (v : Word) : List Event :=
  ((List.range 32).filter (fun i => v.getLsbD i)).flatMap (bitCallback s G)

/-- The callbacks of a pass: by community, then pad group, then bit (R173). -/
def passCallbacks (s : State) : List Event :=
  (indexedFrom 0 s.table.communities).flatMap fun x =>
    if isScanned s x.1 x.2 then
      (groupsOf x.2).flatMap fun G => groupCallbacks s G (s.mem.readWord (groupReg x.2 G x.2.isOffset))
    else []

/-- The micro-steps of a pass (R171): the settling delay if asked for, then for each pad group scanned one read of its
GPI_IS register and, if a bit is pending, the write-back of exactly the bits read. -/
def passSteps (s : State) (first : Bool) : List MicroStep :=
  (if first then [.settle s.params.settleDelay] else []) ++
    (indexedFrom 0 s.table.communities).flatMap fun x =>
      if isScanned s x.1 x.2 then
        (groupsOf x.2).flatMap fun G =>
          let a := groupReg x.2 G x.2.isOffset
          readOf s.mem a :: if s.mem.readWord a = 0 then [] else [.write a (s.mem.readWord a)]
      else []

/-! ## A suspend -/

/-- The reads of a suspend (R183): for each pad group GPI_IE, then HOSTSW_OWN, where present; then for each pin, ascending,
the reads of `save_test` and, if it passes, padcfg0, padcfg1 and padcfg2. -/
def suspendReads (s : State) : List MicroStep :=
  ((indexedFrom 0 s.table.communities).flatMap fun x =>
    (groupsOf x.2).flatMap fun G =>
      (if x.2.interruptEnableOffset = 0 then [] else [readOf s.mem (groupReg x.2 G x.2.interruptEnableOffset)]) ++
        (if x.2.hostOwnerOffset = 0 then [] else [readOf s.mem (groupReg x.2 G x.2.hostOwnerOffset)])) ++
  (allPins s.table).flatMap fun p =>
    match resolve s.table p with
    | none => []
    | some loc =>
      saveReads s.params loc p s.mem ++
        if wouldSave s.params loc p s.mem then (pinRegs s.params loc.com p).map (readOf s.mem) else []

/-! ## A resume -/

/-- The writes of a register kind's snapshot words, pad groups ascending; none where the kind is absent (R186). -/
def kindWrites (C : Community) (o : Nat) (words : List Word) : List MicroStep :=
  if o = 0 then [] else (indexedFrom 0 (groupsOf C)).map fun y => .write (groupReg C y.2 o) (words.getD y.1 0)

/-- The restore writes of a resume: for each community with a valid snapshot every HOSTSW_OWN, then every GPI_IE (R187);
then for each pin with one, ascending, padcfg0, padcfg1 and padcfg2 (R188). -/
def restoreWrites (s : State) : List MicroStep :=
  ((indexedFrom 0 s.table.communities).flatMap fun x =>
    if (commCtx s x.1).valid then
      kindWrites x.2 x.2.hostOwnerOffset (commCtx s x.1).hostown ++
        kindWrites x.2 x.2.interruptEnableOffset (commCtx s x.1).ie
    else []) ++
  (allPins s.table).flatMap fun p =>
    match resolve s.table p with
    | none => []
    | some loc =>
      if (pinCtx s p).valid then
        [.write (padcfgReg s.params loc.com p 0) (pinCtx s p).padcfg0,
          .write (padcfgReg s.params loc.com p 1) (pinCtx s p).padcfg1,
          .write (padcfgReg s.params loc.com p 2) (pinCtx s p).padcfg2]
      else []

/-- A resume re-arms pin `p` (R189): it is unmasked, its community has GPI_IE, and the guard passes in the register space
`m`. Re-arming writes GPI_IE alone, which no guard reads, so the guard finds in the registers a resume leaves what it found
in the restored ones. -/
def rearms (s : State) (m : Memory) (p : Nat) : Bool :=
  match resolve s.table p with
  | none => false
  | some loc =>
    (irqOf s p).state == .unmasked && loc.com.interruptEnableOffset != 0 && mayMutate s.params loc p m

/-- GPI_IE of pad group `g` of community `c` before any re-arm: the saved word where the snapshot is valid, else the word the
register held (R186). -/
def restoredEnable (s : State) (c : Nat) (C : Community) (g : Nat) (G : PadGroup) : Word :=
  if (commCtx s c).valid then (commCtx s c).ie.getD g 0
  else s.mem.readWord (groupReg C G C.interruptEnableOffset)

/-- The bits of the re-armed pins among the first `n` of a pad group (R189). -/
def rearmBits (s : State) (m : Memory) (G : PadGroup) (n : Nat) : Word :=
  ((List.range n).filter fun i => rearms s m (G.basePin + i)).foldl (fun w i => w ||| 1#32 <<< i) 0

/-- The accesses of pin `p`'s re-validation (R189): none if it is unregistered, or unmasked without GPI_IE; else the guard's
reads, and for a re-armed pin one read of GPI_IE, which shows the pins below it re-armed, and one write that adds its bit. -/
def revalidateSteps (s : State) (m : Memory) (p : Nat) : List MicroStep :=
  match resolve s.table p with
  | none => []
  | some loc =>
    if (irqOf s p).state = .unregistered ∨ (irqOf s p).state = .unmasked ∧ loc.com.interruptEnableOffset = 0 then []
    else
      let v := restoredEnable s loc.c loc.com loc.g loc.grp ||| rearmBits s m loc.grp (p - loc.grp.basePin)
      guardReads s.params loc p m ++
        if rearms s m p then
          [.read (enableReg loc) v, .write (enableReg loc) (v ||| 1#32 <<< (p - loc.grp.basePin))]
        else []

/-- The micro-steps of a resume (R186): the restore writes, then each pin's re-validation, ascending. -/
def resumeSteps (s : State) (m : Memory) : List MicroStep :=
  restoreWrites s ++ (allPins s.table).flatMap (revalidateSteps s m)

/-- The advisories of a resume, pins ascending (R189): an unmasked pin that is not re-armed, a masked one whose guard
fails. -/
def resumeAdvisories (s : State) (m : Memory) : List Event :=
  (allPins s.table).flatMap fun p =>
    match resolve s.table p with
    | none => []
    | some loc =>
      if (irqOf s p).state = .unmasked ∧ rearms s m p = false ∨
          (irqOf s p).state = .masked ∧ mayMutate s.params loc p m = false then
        [.advisory (irqOf s p).owner p]
      else []

/-- The registers a resume may write: HOSTSW_OWN and GPI_IE of the communities with a valid snapshot, padcfg of the pins
with one, and GPI_IE of the unmasked pins (R186 to R189). -/
def resumeWrites (s : State) : List Nat :=
  ((indexedFrom 0 s.table.communities).flatMap fun x =>
    if (commCtx s x.1).valid then
      (groupsOf x.2).flatMap fun G =>
        (if x.2.hostOwnerOffset = 0 then [] else [groupReg x.2 G x.2.hostOwnerOffset]) ++
          (if x.2.interruptEnableOffset = 0 then [] else [groupReg x.2 G x.2.interruptEnableOffset])
    else []) ++
  (allPins s.table).flatMap fun p =>
    match resolve s.table p with
    | none => []
    | some loc =>
      (if (pinCtx s p).valid then pinRegs s.params loc.com p else []) ++
        (if (irqOf s p).state = .unmasked ∧ loc.com.interruptEnableOffset ≠ 0 then [enableReg loc] else [])

/-! ## The invariant -/

/-- The configuration is one that `INIT` accepts (R8, R203). -/
def configOk (s : State) : Bool := paramsWf s.params && tableWf s.params s.table

/-- The arrays have the table's sizes, "sized once at initialization" (R34, R35, R205). -/
def shapesOk (s : State) : Bool :=
  s.active.length == s.table.communities.length && s.busy.length == s.table.communities.length
    && s.irq.map (·.1) == allPins s.table && s.ctxPin.map (·.1) == allPins s.table
    && s.ctxComm.map (fun x => (x.ie.length, x.hostown.length))
      == s.table.communities.map (fun C => ((groupsOf C).length, (groupsOf C).length))

/-- Between commands no community is busy (R33). -/
def idleOk (s : State) : Bool := s.busy.all (· == false)

/-- Outside the suspend window every community is active and no snapshot is valid (R183, R186). -/
def awakeOk (s : State) : Bool :=
  s.suspended || (s.active.all (· == true) && s.ctxPin.all (fun e => !e.2.valid) && s.ctxComm.all (fun x => !x.valid))

/-- An unregistered pin's handles are 0 (R34). -/
def recordsOk (s : State) : Bool :=
  s.irq.all fun e => e.2.state != .unregistered || (e.2.owner == 0 && e.2.callback == 0 && e.2.context == 0)

/-- The response is one of R92's: a code up to 0x0B, and 0 as the value when it is not `OK`. -/
def responseOk (s : State) : Bool := decide (s.respCode.toNat ≤ 0x0B) && (s.respCode == 0 || s.respValue == 0)

/-- Before `INIT` there is no table and no suspend window (R46). -/
def bareOk (s : State) : Bool := s.initialized || (s.table == Table.empty && !s.suspended)

/-- The invariant of the state between commands. -/
def Invariant (s : State) : Prop :=
  configOk s = true ∧ shapesOk s = true ∧ idleOk s = true ∧ awakeOk s = true ∧ recordsOk s = true ∧
    responseOk s = true ∧ bareOk s = true ∧ s.mem.wf = true

end Sys2Proof.Machine
end

