-- ==== Sys2Proof/Certificates/Slice0/Obligations.lean ====
section
/-! DEFINITION. The statements for the provers, in the order of OBLIGATIONS.json. The words they use beyond the model's own
are in Sys2Proof/Safety.lean. -/

open Sys2Proof Sys2Proof.Machine

/-! ## Words -/

/-- No bit of a command's encoding is dropped (R86 to R90, R101): decoding what the encoder writes gives the command back. -/
def Obligations.DecodeReadsEncode : Prop :=
  ∀ i : Instr, i.wf = true → decode (encode i) = .ok i

/-- Every legal word has one meaning: the command it decodes to is well formed and is encoded by the same command word and
the same operand words, for the operand words its opcode names (R87, R90). -/
def Obligations.EncodeReadsDecode : Prop :=
  ∀ (w : CmdWords) (i : Instr), decode w = .ok i →
    i.wf = true ∧
      encode i = ⟨w.cmd, if 1 ≤ i.opcode.operandWords then w.opnd0 else 0,
        if 2 ≤ i.opcode.operandWords then w.opnd1 else 0, if 3 ≤ i.opcode.operandWords then w.opnd2 else 0⟩

/-- R91, R100: the words that decode are exactly the legal ones, and a step whose command is illegal ends with
`IllegalCommand` (0x08) and has no other effect. -/
def Obligations.IllegalWordsEndWithIllegalCommand : Prop :=
  (∀ w : CmdWords, (∃ i, decode w = .ok i) ↔ legalWords w) ∧
  ∀ (s : State) (sub : Submission) (rest : List Submission), paramsWf s.params = true →
    (agentTurn s).queue = sub :: rest → ¬ legalWords sub.words →
    step s = .next { accept sub rest (agentTurn s) with respCode := 0x08#8, respValue := 0 }

/-- A few words of the spec's examples and vectors decode to the commands it says they are. -/
def Obligations.SpecWordsDecode : Prop :=
  decode ⟨0x08000000#32, 0, 0, 0⟩ = .ok .init ∧
  decode ⟨0x1E00002A#32, 0, 0, 0⟩ = .ok (.regaddr 42 .gpiIe) ∧
  decode ⟨0x4800002A#32, 0x12345678#64, 0, 0⟩ = .ok (.writePadcfg 42 .k0 0x12345678#32) ∧
  decode ⟨0x5300002A#32, 0, 0, 0⟩ = .ok (.setTriggerType 42 .edgeFalling) ∧
  decode ⟨0x6800002A#32, 0x10#64, 0x20#64, 0x30#64⟩ = .ok (.register 42 0x10 0x20 0x30) ∧
  decode ⟨0x89000000#32, 0, 0, 0⟩ = .ok (.dispatch true) ∧
  decode ⟨0xA9000000#32, 0, 0, 0⟩ = .ok (.setPowerState .sleeping)

/-! ## The step -/

/-- One step: the register agent and the submitters take their turn, the command at the head of the gate's queue leaves it,
its words reach `CMD` and `OPND`, and the decoded command runs whole; with nothing queued the step only takes the agent's turn.
The queue, `CMD`, `OPND` and the waiting block are R76, R37 and R46. That one step is the agent's turn and then one whole
command (log entry 9), that the table handed over reaches the field `handed` (log entry 11) and that a step with nothing
queued is idle and answers a next state (log entry 17) are the model's choices. -/
def Obligations.StepRunsDecodedCommand : Prop :=
  ∀ s : State, paramsWf s.params = true →
    (∀ (sub : Submission) (rest : List Submission) (i : Instr), (agentTurn s).queue = sub :: rest →
      decode sub.words = .ok i →
      step s = exec i { agentTurn s with
        cmd := sub.words.cmd, opnd0 := sub.words.opnd0, opnd1 := sub.words.opnd1, opnd2 := sub.words.opnd2,
        handed := sub.table, queue := rest }) ∧
    ((agentTurn s).queue = [] → step s = .next (agentTurn s))

/-- R8: the parameter sets that the step runs under are exactly those that meet every constraint; any other instance is
refused, whatever its state. -/
def Obligations.IllFormedInstanceIsRefused : Prop :=
  (∀ P : Params, paramsWf P = true ↔ paramsMeetR8 P) ∧
    ∀ s : State, ¬ paramsMeetR8 s.params → step s = .refused .illFormedInstance

/-- What the spec gives for reset (R46, R236): no communities, no pins, nothing queued, registers 0. -/
def Obligations.ResetHoldsSpecValues : Prop :=
  State.reset.initialized = false ∧ State.reset.suspended = false ∧ State.reset.table.communities = [] ∧
  State.reset.table.pins = [] ∧ State.reset.active = [] ∧ State.reset.busy = [] ∧ State.reset.irq = [] ∧
  State.reset.ctxPin = [] ∧ State.reset.ctxComm = [] ∧ State.reset.events = [] ∧ State.reset.cmd = 0 ∧
  State.reset.opnd0 = 0 ∧ State.reset.opnd1 = 0 ∧ State.reset.opnd2 = 0 ∧ State.reset.respCode = 0 ∧
  State.reset.respValue = 0 ∧ State.reset.queue = []

/-- The register agent and the submitters change no block state: between commands and micro-steps only the register space,
the gate's queue (added to at its end) and the coming steps change (R38, R62, R76). -/
def Obligations.AgentLeavesBlockAlone : Prop :=
  ∀ s : State, (∃ m q a, agentTurn s = { s with mem := m, queue := q, agent := a }) ∧
    ∃ q, (agentTurn s).queue = s.queue ++ q

/-- R72: "The register agent never clears a GPI_IS bit of an active community." -/
def Obligations.AgentNeverClearsPending : Prop :=
  ∀ (x : AgentStep) (s : State) (c : Nat) (C : Community) (G : PadGroup), s.initialized = true →
    paramsWf s.params = true → tableWf s.params s.table = true → s.table.communities[c]? = some C →
    isActive s c = true → C.isOffset ≠ 0 → G ∈ groupsOf C →
    ∀ b, (s.mem.readWord (groupReg C G C.isOffset)).getLsbD b = true →
      ((applyAgent x s).mem.readWord (groupReg C G C.isOffset)).getLsbD b = true

/-- What each step of the register agent and the submitters does (R72, R216). E4 queues `DISPATCH` with `first` = 1; a
submission enters at the queue's end. E1 sets exactly the bits named in the GPI_IS register of the pin's pad group. E2 changes
a register of an inactive community and none of an active one; E3 changes a register of any kind but GPI_IS. A register the
community lacks, or a pin that does not resolve, leaves everything as it is. That the operand words of E4's command are 0 (log
entry 23) and the table beside them empty (log entry 11), and that a register is named by a pin and a kind and drawn before
`INIT` alone (R47; log entry 22), are the model's choices; `layoutDistinct` rules out the addresses of log entry 16. -/
def Obligations.AgentStepEffects : Prop :=
  ∀ s : State,
    applyAgent .interruptLine s = { s with queue := s.queue ++ [⟨⟨0x89000000#32, 0, 0, 0⟩, Table.empty⟩] } ∧
    (∀ sub, applyAgent (.submit sub) s = { s with queue := s.queue ++ [sub] }) ∧
    (∀ a v, (s.initialized = true → applyAgent (.powerOn a v) s = s) ∧
      (s.initialized = false → onBus a → registerBecomes a v s (applyAgent (.powerOn a v) s))) ∧
    (∀ pin bits, (regAddr s.params s.table pin .gpiIs = none → applyAgent (.pending pin bits) s = s) ∧
      ∀ a, regAddr s.params s.table pin .gpiIs = some a →
        registerBecomes a (s.mem.readWord a ||| bits) s (applyAgent (.pending pin bits) s)) ∧
    (∀ pin v, applyAgent (.firmware pin .gpiIs v) s = s) ∧
    (∀ pin kind v, regAddr s.params s.table pin kind = none →
      applyAgent (.railOff pin kind v) s = s ∧ applyAgent (.firmware pin kind v) s = s) ∧
    ∀ pin kind v a loc, resolve s.table pin = some loc → regAddr s.params s.table pin kind = some a →
      (isActive s loc.c = true → applyAgent (.railOff pin kind v) s = s) ∧
      (tableWf s.params s.table = true → layoutDistinct s.params s.table →
        (isActive s loc.c = false → registerBecomes a v s (applyAgent (.railOff pin kind v) s)) ∧
        (kind ≠ .gpiIs → registerBecomes a v s (applyAgent (.firmware pin kind v) s)))

/-! ## The bus -/

/-- R67: a read changes no register, and a second read with nothing between returns the same value. -/
def Obligations.ReadsHaveNoSideEffect : Prop :=
  ∀ (a : Nat) (s : State), onBus a → Quiet s →
    ∃ t, memRead a s = .next (s.mem.readWord a, t) ∧ t = { s with trace := s.trace ++ [.read a (s.mem.readWord a)] } ∧
      ∃ u, memRead a t = .next (s.mem.readWord a, u)

/-- R68: a write to GPI_IS clears exactly the bits written as 1; a write to a locked pin's padcfg takes effect or does not;
every other write replaces the register. No other byte changes. Where one address is a register of several kinds, which kind
comes first is the model's choice (log entry 8). -/
def Obligations.RegisterWriteEffects : Prop :=
  ∀ (a : Nat) (v : Word) (s : State),
    (isStatusReg s.table (fun _ => true) a = true →
      (regWrite a v s).mem.readWord a = s.mem.readWord a &&& ~~~ v) ∧
    (isStatusReg s.table (fun _ => true) a = false → isLockedPadcfg s a = true →
      (regWrite a v s).mem.readWord a = v ∨ (regWrite a v s).mem.readWord a = s.mem.readWord a) ∧
    (isStatusReg s.table (fun _ => true) a = false → isLockedPadcfg s a = false →
      (regWrite a v s).mem.readWord a = v) ∧
    ∀ q, q < a ∨ a + 4 ≤ q → (regWrite a v s).mem.readByte q = s.mem.readByte q

/-- R65: a misaligned access is refused, whatever would be read or written. -/
def Obligations.MisalignedAccessIsRefused : Prop :=
  ∀ (a : Nat) (v : Word) (s : State), a % 4 ≠ 0 →
    memRead a s = .refused (.misalignedAccess a) ∧ memWrite a v s = .refused (.misalignedAccess a)

/-! ## Lifecycle -/

/-- R201: a successful `INIT` installs the table handed over, every community active and idle, every pin unregistered, the
snapshot store zero, for exactly the table's pins. -/
def Obligations.InitInstallsTable : Prop :=
  ∀ s : State, s.initialized = false → tableWf s.params s.handed = true →
    ∃ t, exec .init s = .next t ∧
      t = { s with table := s.handed, initialized := true, suspended := false, active := t.active, busy := t.busy,
                   irq := t.irq, ctxPin := t.ctxPin, ctxComm := t.ctxComm, respCode := 0x00#8, respValue := 0 } ∧
      t.active = s.handed.communities.map (fun _ => true) ∧ t.busy = s.handed.communities.map (fun _ => false) ∧
      t.irq.map (·.1) = allPins s.handed ∧ t.ctxPin.map (·.1) = allPins s.handed ∧
      (∀ p, irqOf t p = ⟨.unregistered, 0, 0, 0, none⟩ ∧ pinCtx t p = ⟨false, 0, 0, 0⟩) ∧
      t.ctxComm = s.handed.communities.map
        (fun C => ⟨false, List.replicate (groupsOf C).length 0, List.replicate (groupsOf C).length 0⟩)

/-- R203: the table check accepts exactly the tables for which W1 to W9 hold. -/
def Obligations.TableCheckIsW1ToW9 : Prop :=
  ∀ (P : Params) (T : Table), tableWf P T = true ↔ tableMeetsR203 P T

/-- R202: a table that fails a check installs nothing. -/
def Obligations.InitRefusesBadTable : Prop :=
  ∀ s : State, s.initialized = false → tableWf s.params s.handed = false →
    exec .init s = .next { s with respCode := 0x0A#8, respValue := 0 }

/-- R201: a second `INIT` changes nothing, whatever table it carries. -/
def Obligations.SecondInitIsRefused : Prop :=
  ∀ s : State, s.initialized = true → exec .init s = .next { s with respCode := 0x0B#8, respValue := 0 }

/-- R206: before `INIT` every other command ends with `NotInitialized`, changes nothing and makes no access. -/
def Obligations.NothingRunsBeforeInit : Prop :=
  ∀ (i : Instr) (s : State), i ≠ .init → s.initialized = false →
    exec i s = .next { s with respCode := 0x07#8, respValue := 0 }

/-- R207: after a successful `INIT` no step changes the table. -/
def Obligations.TableNeverChangesAfterInit : Prop :=
  ∀ s t : State, s.initialized = true → step s = .next t → t.table = s.table ∧ t.initialized = true

/-- R204, R205: in an accepted table the pins that resolve are the declared ones, and each lies in the pad group at its index,
at a bit below 32. -/
def Obligations.AcceptedTablesResolve : Prop :=
  ∀ (P : Params) (T : Table), tableWf P T = true →
    (∀ p, (∃ loc, resolve T p = some loc) ↔ p ∈ T.pins.map (·.number)) ∧
    ∀ p loc, resolve T p = some loc →
      (groupsOf loc.com)[loc.g]? = some loc.grp ∧ loc.grp.basePin ≤ p ∧ p < loc.grp.basePin + loc.grp.size ∧
        loc.grp.size ≤ 32 ∧ loc.bit p < 32

/-- R116: every declared pin of an accepted table resolves to exactly one community, the only one whose range contains it. -/
def Obligations.ResolveIsUnique : Prop :=
  ∀ (P : Params) (T : Table) (p : Nat), tableWf P T = true → p ∈ T.pins.map (·.number) →
    ∃ loc, resolve T p = some loc ∧ T.communities[loc.c]? = some loc.com ∧
      ∀ c C, T.communities[c]? = some C → (C.pinBase ≤ p ∧ p < C.pinBase + C.pinsTotal ↔ c = loc.c)

/-- R12, R65, R203: every address an accepted table gives is a multiple of 4 below 2^64. -/
def Obligations.AddressesAreOnBus : Prop :=
  ∀ (P : Params) (T : Table) (p : Nat) (kind : RegKind) (a : Nat), paramsWf P = true → tableWf P T = true →
    regAddr P T p kind = some a → a % 4 = 0 ∧ a < 2 ^ 64

/-! ## Resolver commands -/

/-- R93, R113: `RESOLVE` answers community, pad group and offset, and changes nothing else. -/
def Obligations.ResolveAnswersPlace : Prop :=
  ∀ (s : State) (pin : Nat) (loc : Loc), s.initialized = true → resolve s.table pin = some loc →
    ∃ v : Word64, exec (.resolve pin) s = .next { s with respCode := 0x00#8, respValue := v } ∧
      v.extractLsb' 0 16 = BitVec.ofNat 16 loc.c ∧ v.extractLsb' 16 16 = BitVec.ofNat 16 loc.g ∧
      v.extractLsb' 32 16 = BitVec.ofNat 16 (pin - loc.com.pinBase) ∧ v.extractLsb' 48 16 = 0

/-- R112, R114: `REGADDR` answers the address of each kind, and `AddressingFailure` for an absent community-wide kind. -/
def Obligations.RegaddrAnswersAddress : Prop :=
  ∀ (s : State) (pin : Nat) (loc : Loc), s.initialized = true → resolve s.table pin = some loc →
    let base := loc.com.mappedBase
    let pad := base + loc.com.padcfgOffset + (pin - loc.com.pinBase) * s.params.padcfgStride
    let groupKind := fun (kind : RegKind) (o : Nat) =>
      (o = 0 → exec (.regaddr pin kind) s = .next { s with respCode := 0x01#8, respValue := 0 }) ∧
      (o ≠ 0 → exec (.regaddr pin kind) s = .next { s with
        respCode := 0x00#8, respValue := BitVec.ofNat 64 (base + o + loc.grp.padownIndex.toNat * 4) })
    exec (.regaddr pin .padcfg0) s = .next { s with respCode := 0x00#8, respValue := BitVec.ofNat 64 pad } ∧
    exec (.regaddr pin .padcfg1) s = .next { s with respCode := 0x00#8, respValue := BitVec.ofNat 64 (pad + 4) } ∧
    exec (.regaddr pin .padcfg2) s = .next { s with respCode := 0x00#8, respValue := BitVec.ofNat 64 (pad + 8) } ∧
    groupKind .padOwner loc.com.padOwnerOffset ∧ groupKind .padcfgLock loc.com.padConfigLockOffset ∧
    groupKind .hostswOwn loc.com.hostOwnerOffset ∧ groupKind .gpiIe loc.com.interruptEnableOffset ∧
    groupKind .gpiIs loc.com.isOffset

/-- R211: what every pin command answers for a pin that does not resolve: `AddressingFailure`, but `NotRegistered` for
`UNREGISTER` (C7) and `OK`, 0 for `GET_PIN_STATUS`; nothing else changes. -/
def Obligations.UnresolvedPinsAreRefused : Prop :=
  ∀ (s : State) (pin : Nat), s.initialized = true → resolve s.table pin = none →
    (∀ i ∈ ([.resolve pin, .ownedByHost pin, .acpiMode pin, .locked pin, .isUnlocked pin, .getInterruptType pin,
        .enable pin, .disable pin, .shouldSave pin] : List Instr),
      exec i s = .next { s with respCode := 0x01#8, respValue := 0 }) ∧
    (∀ kind, exec (.regaddr pin kind) s = .next { s with respCode := 0x01#8, respValue := 0 }) ∧
    (∀ k, exec (.readPadcfg pin k) s = .next { s with respCode := 0x01#8, respValue := 0 }) ∧
    (∀ k v, exec (.writePadcfg pin k v) s = .next { s with respCode := 0x01#8, respValue := 0 }) ∧
    (∀ t, exec (.setTriggerType pin t) s = .next { s with respCode := 0x01#8, respValue := 0 }) ∧
    (∀ m, exec (.maskUnmask pin m) s = .next { s with respCode := 0x01#8, respValue := 0 }) ∧
    (∀ o c x, exec (.register pin o c x) s = .next { s with respCode := 0x01#8, respValue := 0 }) ∧
    exec (.unregister pin) s = .next { s with respCode := 0x05#8, respValue := 0 } ∧
    exec (.getPinStatus pin) s = .next { s with respCode := 0x00#8, respValue := 0 }

/-- R214, R215: a command that needs a register of an inactive community makes no access, appends one defect signal with its
opcode, pin and community, and ends with `InactiveCommunity`. That the signals of `ENABLE` and `DISABLE` carry their own
opcodes 0x0F and 0x10, not `MASK_UNMASK`'s, is the model's choice (log entry 19). -/
def Obligations.InactiveCommunityIsRefused : Prop :=
  ∀ (s : State) (pin : Nat) (loc : Loc), s.initialized = true → resolve s.table pin = some loc →
    isActive s loc.c = false →
    let refused := fun (i : Instr) (opc : BitVec 5) =>
      exec i s = .next { s with events := s.events ++ [.defectSignal opc pin loc.c], respCode := 0x06#8, respValue := 0 }
    (loc.com.hostOwnerOffset ≠ 0 → refused (.ownedByHost pin) 0x04#5) ∧
    refused (.acpiMode pin) 0x05#5 ∧
    (loc.com.padConfigLockOffset ≠ 0 → refused (.locked pin) 0x06#5 ∧ refused (.isUnlocked pin) 0x07#5) ∧
    (∀ k, refused (.readPadcfg pin k) 0x08#5) ∧
    (∀ k v, refused (.writePadcfg pin k v) 0x09#5) ∧
    (∀ t, refused (.setTriggerType pin t) 0x0A#5) ∧
    ((irqOf s pin).trig = none → refused (.getInterruptType pin) 0x0B#5) ∧
    (loc.com.interruptEnableOffset ≠ 0 → ∀ m, refused (.maskUnmask pin m) 0x0C#5) ∧
    (0 ≤ loc.grp.gpioBase → (irqOf s pin).state = .unregistered → ∀ o c x, refused (.register pin o c x) 0x0D#5) ∧
    (loc.com.interruptEnableOffset ≠ 0 → (irqOf s pin).state ≠ .unregistered →
      refused (.enable pin) 0x0F#5 ∧ refused (.disable pin) 0x10#5) ∧
    refused (.shouldSave pin) 0x12#5

/-- R215: outside the suspend window no command ends with `InactiveCommunity`. -/
def Obligations.WorkingStateNeverInactive : Prop :=
  ∀ (i : Instr) (s t : State), Invariant s → s.suspended = false → exec i s = .next t → t.respCode ≠ 0x06#8

/-! ## Guard commands -/

/-- R127: `OWNED_BY_HOST` answers the pin's HOSTSW_OWN bit after one read, or 1 without an access where the community has no
such register, even while inactive. Nothing else changes but what the register agent does. -/
def Obligations.OwnedByHostAnswers : Prop :=
  ∀ (s : State) (pin : Nat) (loc : Loc), s.initialized = true → resolve s.table pin = some loc →
    (loc.com.hostOwnerOffset = 0 → exec (.ownedByHost pin) s = .next { s with respCode := 0x00#8, respValue := 1 }) ∧
    (loc.com.hostOwnerOffset ≠ 0 → isActive s loc.c = true → onBus (hostReg loc) →
      let v := (agentTurn s).mem.readWord (hostReg loc)
      exec (.ownedByHost pin) s = .next { agentTurn s with
        respCode := 0x00#8, respValue := if v.getLsbD (pin - loc.grp.basePin) then 1 else 0,
        trace := s.trace ++ [.read (hostReg loc) v] })

/-- R128: `ACPI_MODE` compares padcfg0's mux mode with the ACPI value after one read. -/
def Obligations.AcpiModeAnswers : Prop :=
  ∀ (s : State) (pin : Nat) (loc : Loc), s.initialized = true → resolve s.table pin = some loc →
    isActive s loc.c = true → onBus (padcfgReg s.params loc.com pin 0) →
    let v := (agentTurn s).mem.readWord (padcfgReg s.params loc.com pin 0)
    exec (.acpiMode pin) s = .next { agentTurn s with
      respCode := 0x00#8, respValue := if inAcpiMode s.params loc pin (agentTurn s).mem then 1 else 0,
      trace := s.trace ++ [.read (padcfgReg s.params loc.com pin 0) v] }

/-- R129, R130: `LOCKED` answers 1 or 0 by the pin's PADCFG_LOCK bit and `IS_UNLOCKED` the opposite, after one read; without a
lock register they answer 2 and 1 without an access, even while inactive. -/
def Obligations.LockCommandsAnswer : Prop :=
  ∀ (s : State) (pin : Nat) (loc : Loc), s.initialized = true → resolve s.table pin = some loc →
    (loc.com.padConfigLockOffset = 0 →
      exec (.locked pin) s = .next { s with respCode := 0x00#8, respValue := 2 } ∧
      exec (.isUnlocked pin) s = .next { s with respCode := 0x00#8, respValue := 1 }) ∧
    (loc.com.padConfigLockOffset ≠ 0 → isActive s loc.c = true → onBus (lockReg loc) →
      let v := (agentTurn s).mem.readWord (lockReg loc)
      exec (.locked pin) s = .next { agentTurn s with
        respCode := 0x00#8, respValue := if v.getLsbD (pin - loc.grp.basePin) then 1 else 0,
        trace := s.trace ++ [.read (lockReg loc) v] } ∧
      exec (.isUnlocked pin) s = .next { agentTurn s with
        respCode := 0x00#8, respValue := if v.getLsbD (pin - loc.grp.basePin) then 0 else 1,
        trace := s.trace ++ [.read (lockReg loc) v] })

/-- R131: `GET_PIN_STATUS` answers 1 exactly when the three checks of the guard pass, after the guard's reads, and 0 without
an access or a defect signal for an inactive community. -/
def Obligations.PinStatusAnswers : Prop :=
  ∀ (s : State) (pin : Nat) (loc : Loc), s.initialized = true → resolve s.table pin = some loc →
    (isActive s loc.c = false → exec (.getPinStatus pin) s = .next { s with respCode := 0x00#8, respValue := 0 }) ∧
    (isActive s loc.c = true → Quiet s → guardOnBus s.params loc pin →
      exec (.getPinStatus pin) s = .next { s with
        respCode := 0x00#8, respValue := if mayMutate s.params loc pin s.mem then 1 else 0,
        trace := s.trace ++ guardReads s.params loc pin s.mem })

/-- R132: `READ_PADCFG` answers the whole register, zero-extended, after one read and without a guard. -/
def Obligations.ReadPadcfgAnswers : Prop :=
  ∀ (s : State) (pin : Nat) (loc : Loc) (k : PadIdx), s.initialized = true → resolve s.table pin = some loc →
    isActive s loc.c = true → onBus (padcfgReg s.params loc.com pin (padIdxNum k)) →
    let v := (agentTurn s).mem.readWord (padcfgReg s.params loc.com pin (padIdxNum k))
    exec (.readPadcfg pin k) s = .next { agentTurn s with
      respCode := 0x00#8, respValue := BitVec.ofNat 64 v.toNat,
      trace := s.trace ++ [.read (padcfgReg s.params loc.com pin (padIdxNum k)) v] }

/-- R133: on a pin whose guard passes, `WRITE_PADCFG` makes the guard's reads and one write of the whole register (with the
effect R68 gives it) and changes no other byte, no record and no event. -/
def Obligations.WritePadcfgWrites : Prop :=
  ∀ (s : State) (pin : Nat) (loc : Loc) (k : PadIdx) (value : Word), s.initialized = true →
    resolve s.table pin = some loc → isActive s loc.c = true → Quiet s → guardOnBus s.params loc pin →
    onBus (padcfgReg s.params loc.com pin (padIdxNum k)) → mayMutate s.params loc pin s.mem = true →
    let a := padcfgReg s.params loc.com pin (padIdxNum k)
    ∃ t, exec (.writePadcfg pin k value) s = .next t ∧
      t = { s with mem := t.mem, draws := t.draws, respCode := 0x00#8, respValue := 0,
                   trace := s.trace ++ guardReads s.params loc pin s.mem ++ [.write a value] } ∧
      (plainReg s a → t.mem.readWord a = value) ∧
      ∀ q, q < a ∨ a + 4 ≤ q → t.mem.readByte q = s.mem.readByte q

/-- R134, R135: on an active pin that is not host-owned, in ACPI mode or locked, none of the six guarded commands writes a
register or a record: it makes the guard's reads and ends with `OwnershipDenied` (not host-owned or in ACPI mode) or
`Locked`. -/
def Obligations.DeniedMutationsTouchNothing : Prop :=
  ∀ (s : State) (pin : Nat) (loc : Loc), s.initialized = true → resolve s.table pin = some loc →
    isActive s loc.c = true → Quiet s → guardOnBus s.params loc pin → mayMutate s.params loc pin s.mem = false →
    let denied := fun (i : Instr) =>
      exec i s = .next { s with
        respCode := if hostOwned loc pin s.mem && !inAcpiMode s.params loc pin s.mem then 0x03#8 else 0x02#8,
        respValue := 0, trace := s.trace ++ guardReads s.params loc pin s.mem }
    (∀ k v, denied (.writePadcfg pin k v)) ∧ (∀ t, denied (.setTriggerType pin t)) ∧
    (loc.com.interruptEnableOffset ≠ 0 → ∀ m, denied (.maskUnmask pin m)) ∧
    (0 ≤ loc.grp.gpioBase → (irqOf s pin).state = .unregistered → ∀ o c x, denied (.register pin o c x)) ∧
    (loc.com.interruptEnableOffset ≠ 0 → (irqOf s pin).state ≠ .unregistered →
      denied (.enable pin) ∧ denied (.disable pin))

/-! ## Interrupt commands -/

/-- R147: the type written is the type read back, no bit outside the edge/level field and the polarity bit changes, and a
value decodes to no type exactly when its edge/level field is neither of the two values. -/
def Obligations.TriggerEncodingKeepsOtherBits : Prop :=
  ∀ (P : Params) (t : TrigType) (v : Word), paramsWf P = true →
    decTrig P (encTrig P t v) = some t ∧
    (∀ b, b < 32 → (P.trigMask * 2 ^ P.trigShift).testBit b = false → b ≠ P.invBit →
      (encTrig P t v).getLsbD b = v.getLsbD b) ∧
    let field := (v.toNat >>> P.trigShift) &&& P.trigMask
    (decTrig P v = none ↔ field ≠ P.trigLevelVal ∧ field ≠ P.trigEdgeVal)

/-- R146: `SET_TRIGGER_TYPE` on a pin whose guard passes reads padcfg0 again, writes it with the type encoded, records the
type, and changes no other byte and no other record. -/
def Obligations.SetTriggerTypeWrites : Prop :=
  ∀ (s : State) (pin : Nat) (loc : Loc) (type : TrigType), s.initialized = true → resolve s.table pin = some loc →
    isActive s loc.c = true → Quiet s → guardOnBus s.params loc pin → mayMutate s.params loc pin s.mem = true →
    let a := padcfgReg s.params loc.com pin 0
    let v := s.mem.readWord a
    let w := encTrig s.params type v
    ∃ t, exec (.setTriggerType pin type) s = .next t ∧
      t = { s with mem := t.mem, draws := t.draws, irq := t.irq, respCode := 0x00#8, respValue := 0,
                   trace := s.trace ++ guardReads s.params loc pin s.mem ++ [.read a v, .write a w] } ∧
      (∀ p, irqOf t p = if p = pin then { irqOf s pin with trig := some type } else irqOf s p) ∧
      (plainReg s a → t.mem.readWord a = w) ∧
      ∀ q, q < a ∨ a + 4 ≤ q → t.mem.readByte q = s.mem.readByte q

/-- R148: `GET_INTERRUPT_TYPE` answers the recorded type without an access, else what padcfg0 decodes to, else
`UnknownTriggerType`; the decoded type is not stored. -/
def Obligations.GetInterruptTypeAnswers : Prop :=
  ∀ (s : State) (pin : Nat) (loc : Loc), s.initialized = true → resolve s.table pin = some loc →
    (∀ t, (irqOf s pin).trig = some t →
      exec (.getInterruptType pin) s = .next { s with respCode := 0x00#8, respValue := BitVec.ofNat 64 t.code.toNat }) ∧
    ((irqOf s pin).trig = none → isActive s loc.c = true → onBus (padcfgReg s.params loc.com pin 0) →
      let v := (agentTurn s).mem.readWord (padcfgReg s.params loc.com pin 0)
      (∀ t, decTrig s.params v = some t →
        exec (.getInterruptType pin) s = .next { agentTurn s with
          respCode := 0x00#8, respValue := BitVec.ofNat 64 t.code.toNat,
          trace := s.trace ++ [.read (padcfgReg s.params loc.com pin 0) v] }) ∧
      (decTrig s.params v = none →
        exec (.getInterruptType pin) s = .next { agentTurn s with
          respCode := 0x09#8, respValue := 0, trace := s.trace ++ [.read (padcfgReg s.params loc.com pin 0) v] }))

/-- R150, R161, R162: on a pin whose guard passes, `MASK_UNMASK` clears (mask) or sets (unmask) the pin's GPI_IE bit by one
read and one write and moves a registered pin to masked or unmasked; `ENABLE` and `DISABLE` do the same for a registered pin
with unmask and mask. No other byte and no other record changes. -/
def Obligations.MaskCommandsWrite : Prop :=
  ∀ (s : State) (pin : Nat) (loc : Loc) (mask : Bool) (i : Instr), s.initialized = true →
    resolve s.table pin = some loc → isActive s loc.c = true → Quiet s → guardOnBus s.params loc pin →
    loc.com.interruptEnableOffset ≠ 0 → onBus (enableReg loc) → mayMutate s.params loc pin s.mem = true →
    (i = .maskUnmask pin mask ∨
      (irqOf s pin).state ≠ .unregistered ∧ ((i = .enable pin ∧ mask = false) ∨ (i = .disable pin ∧ mask = true))) →
    let a := enableReg loc
    let v := s.mem.readWord a
    let bit := 1#32 <<< (pin - loc.grp.basePin)
    let w := if mask then v &&& ~~~ bit else v ||| bit
    ∃ t, exec i s = .next t ∧
      t = { s with mem := t.mem, draws := t.draws, irq := t.irq, respCode := 0x00#8, respValue := 0,
                   trace := s.trace ++ guardReads s.params loc pin s.mem ++ [.read a v, .write a w] } ∧
      (∀ p, irqOf t p =
        if p = pin ∧ (irqOf s pin).state ≠ .unregistered then
          { irqOf s pin with state := if mask then .masked else .unmasked }
        else irqOf s p) ∧
      (plainReg s a → t.mem.readWord a = w) ∧
      ∀ q, q < a ∨ a + 4 ≤ q → t.mem.readByte q = s.mem.readByte q

/-- R151: with no register-agent step and no two registers at one address, masking then unmasking a pin, both `OK`, leaves
its enable bit 1 and every other bit of the register as it was: so the register as it was when the bit was 1. -/
def Obligations.MaskRoundTrip : Prop :=
  ∀ (s s1 s2 : State) (pin : Nat) (loc : Loc), s.initialized = true → paramsWf s.params = true →
    tableWf s.params s.table = true → layoutDistinct s.params s.table → resolve s.table pin = some loc → Quiet s →
    exec (.maskUnmask pin true) s = .next s1 → s1.respCode = 0x00#8 →
    exec (.maskUnmask pin false) s1 = .next s2 → s2.respCode = 0x00#8 →
    s2.mem.readWord (enableReg loc) = s.mem.readWord (enableReg loc) ||| 1#32 <<< (pin - loc.grp.basePin) ∧
    (s2.mem.readWord (enableReg loc)).getLsbD (pin - loc.grp.basePin) = true ∧
    ((s.mem.readWord (enableReg loc)).getLsbD (pin - loc.grp.basePin) = true →
      s2.mem.readWord (enableReg loc) = s.mem.readWord (enableReg loc))

/-- R155: `REGISTER` on an unregistered pin whose guard passes installs the three handles, masked, keeps the recorded type and
writes no register. -/
def Obligations.RegisterInstalls : Prop :=
  ∀ (s : State) (pin : Nat) (loc : Loc) (owner callback context : Word64), s.initialized = true →
    resolve s.table pin = some loc → 0 ≤ loc.grp.gpioBase → (irqOf s pin).state = .unregistered →
    isActive s loc.c = true → Quiet s → guardOnBus s.params loc pin → mayMutate s.params loc pin s.mem = true →
    ∃ t, exec (.register pin owner callback context) s = .next t ∧
      t = { s with irq := t.irq, respCode := 0x00#8, respValue := 0,
                   trace := s.trace ++ guardReads s.params loc pin s.mem } ∧
      ∀ p, irqOf t p = if p = pin then ⟨.masked, owner, callback, context, (irqOf s pin).trig⟩ else irqOf s p

/-- R158: `UNREGISTER` of a registered pin clears its record, without an access and whatever its community's state. -/
def Obligations.UnregisterClears : Prop :=
  ∀ (s : State) (pin : Nat) (loc : Loc), s.initialized = true → resolve s.table pin = some loc →
    (irqOf s pin).state ≠ .unregistered →
    ∃ t, exec (.unregister pin) s = .next t ∧ t = { s with irq := t.irq, respCode := 0x00#8, respValue := 0 } ∧
      ∀ p, irqOf t p = if p = pin then ⟨.unregistered, 0, 0, 0, none⟩ else irqOf s p

/-- R155, R158, R161, R162, R163, R212: the registration errors come before any access and change nothing. A registered pin
refuses another `REGISTER`; an unregistered one refuses `UNREGISTER`, `ENABLE` and `DISABLE`; a missing GPI_IE register or a
negative `gpio_base` is reported first. -/
def Obligations.RegistrationErrors : Prop :=
  ∀ (s : State) (pin : Nat) (loc : Loc), s.initialized = true → resolve s.table pin = some loc →
    let ends := fun (i : Instr) (code : BitVec 8) => exec i s = .next { s with respCode := code, respValue := 0 }
    (∀ o c x, (loc.grp.gpioBase < 0 → ends (.register pin o c x) 0x01#8) ∧
      (0 ≤ loc.grp.gpioBase → (irqOf s pin).state ≠ .unregistered → ends (.register pin o c x) 0x04#8)) ∧
    (loc.com.interruptEnableOffset = 0 →
      ends (.enable pin) 0x01#8 ∧ ends (.disable pin) 0x01#8 ∧ ∀ m, ends (.maskUnmask pin m) 0x01#8) ∧
    ((irqOf s pin).state = .unregistered → ends (.unregister pin) 0x05#8 ∧
      (loc.com.interruptEnableOffset ≠ 0 → ends (.enable pin) 0x05#8 ∧ ends (.disable pin) 0x05#8))

/-- R152: once initialized, a pin's interrupt state changes only along the table's rows. -/
def Obligations.InterruptStateMachine : Prop :=
  ∀ (i : Instr) (s t : State) (p : Nat), s.initialized = true → exec i s = .next t →
    (irqOf t p).state ≠ (irqOf s p).state →
    (t.respCode = 0x00#8 ∧ (irqOf s p).state = .unregistered ∧ (irqOf t p).state = .masked ∧
      ∃ o c x, i = .register p o c x) ∨
    (t.respCode = 0x00#8 ∧ (irqOf s p).state = .masked ∧ (irqOf t p).state = .unmasked ∧
      (i = .enable p ∨ i = .maskUnmask p false)) ∨
    (t.respCode = 0x00#8 ∧ (irqOf s p).state = .unmasked ∧ (irqOf t p).state = .masked ∧
      (i = .disable p ∨ i = .maskUnmask p true ∨ i = .resume ∨ i = .setPowerState .working)) ∨
    (t.respCode = 0x00#8 ∧ (irqOf t p).state = .unregistered ∧ i = .unregister p)

/-! ## Dispatch -/

/-- R171, R84: `DISPATCH` always completes with `OK`, emits only callbacks and leaves every record, the snapshot store, the
activity and the busy flags as they were. -/
def Obligations.DispatchCompletes : Prop :=
  ∀ (s : State) (first : Bool), s.initialized = true → paramsWf s.params = true → tableWf s.params s.table = true →
    ∃ t es, exec (.dispatch first) s = .next t ∧
      t = { s with events := s.events ++ es, respCode := 0x00#8, respValue := 0, mem := t.mem, queue := t.queue,
                   agent := t.agent, draws := t.draws, trace := t.trace } ∧
      ∀ e ∈ es, ∃ cb ctx src, e = .callback cb ctx src

/-- R171 to R174: with no register-agent step and no two registers at one address, a pass makes exactly the micro-steps of
R171, delivers exactly the pending bits of unmasked pins in community, pad-group and bit order, clears every pending bit of
every pad group it scans, and changes no byte outside their GPI_IS registers. -/
def Obligations.DispatchDeliversAndDrains : Prop :=
  ∀ (s t : State) (first : Bool), s.initialized = true → paramsWf s.params = true → tableWf s.params s.table = true →
    layoutDistinct s.params s.table → Quiet s → exec (.dispatch first) s = .next t →
    t.events = s.events ++ passCallbacks s ∧ t.trace = s.trace ++ passSteps s first ∧
    (∀ c C G, s.table.communities[c]? = some C → isScanned s c C = true → G ∈ groupsOf C →
      t.mem.readWord (groupReg C G C.isOffset) = 0) ∧
    ∀ q, (∀ c C G, s.table.communities[c]? = some C → isScanned s c C = true → G ∈ groupsOf C →
        q < groupReg C G C.isOffset ∨ groupReg C G C.isOffset + 4 ≤ q) →
      t.mem.readByte q = s.mem.readByte q

/-! ## Power -/

/-- R181, R182: `SHOULD_SAVE` answers 1 exactly when the pin is host-owned, not locked and differs from its defaults, after
the reads of `save_test`. -/
def Obligations.ShouldSaveAnswers : Prop :=
  ∀ (s : State) (pin : Nat) (loc : Loc), s.initialized = true → resolve s.table pin = some loc →
    isActive s loc.c = true → Quiet s → guardOnBus s.params loc pin →
    onBus (padcfgReg s.params loc.com pin 1) → onBus (padcfgReg s.params loc.com pin 2) →
    exec (.shouldSave pin) s = .next { s with
      respCode := 0x00#8, respValue := if wouldSave s.params loc pin s.mem then 1 else 0,
      trace := s.trace ++ saveReads s.params loc pin s.mem }

/-- R183, R184, R191: with no register-agent step, `SUSPEND` (and `SET_POWER_STATE sleeping`) snapshots every community's
GPI_IE and HOSTSW_OWN and the padcfg registers of every pin that passes `should_save`, by exactly the reads of R183 in their
order and no write, deactivates every community without the keep-active flag and sets `suspended`. -/
def Obligations.SuspendTakesSnapshot : Prop :=
  ∀ (s : State) (i : Instr), (i = .suspend ∨ i = .setPowerState .sleeping) → s.initialized = true →
    s.suspended = false → paramsWf s.params = true → tableWf s.params s.table = true → Quiet s →
    ∃ t, exec i s = .next t ∧
      t = { s with active := t.active, suspended := true, ctxPin := t.ctxPin, ctxComm := t.ctxComm,
                   respCode := 0x00#8, respValue := 0, trace := s.trace ++ suspendReads s } ∧
      t.ctxComm = s.table.communities.map (fun C =>
        ⟨true,
          (groupsOf C).map (fun G => if C.interruptEnableOffset = 0 then 0
            else s.mem.readWord (groupReg C G C.interruptEnableOffset)),
          (groupsOf C).map (fun G => if C.hostOwnerOffset = 0 then 0
            else s.mem.readWord (groupReg C G C.hostOwnerOffset))⟩) ∧
      (∀ p, pinCtx t p = match resolve s.table p with
        | none => ⟨false, 0, 0, 0⟩
        | some loc => if wouldSave s.params loc p s.mem then heldPadcfgs s.params loc p s.mem else ⟨false, 0, 0, 0⟩) ∧
      ∀ c C, s.table.communities[c]? = some C →
        isActive t c = (isActive s c && C.featureFlags.getLsbD 0)

/-- R185: a suspend while suspended changes nothing but the response. -/
def Obligations.RepeatedSuspendDoesNothing : Prop :=
  ∀ (s : State) (i : Instr), (i = .suspend ∨ i = .setPowerState .sleeping) → s.initialized = true →
    s.suspended = true → exec i s = .next { s with respCode := 0x00#8, respValue := 0 }

/-- R190: a resume while not suspended does nothing and answers `OK`. -/
def Obligations.RepeatedResumeDoesNothing : Prop :=
  ∀ (s : State) (i : Instr), (i = .resume ∨ i = .setPowerState .working) → s.initialized = true →
    s.suspended = false → exec i s = .next { s with respCode := 0x00#8, respValue := 0 }

/-- R191: `SET_POWER_STATE` runs the pseudocode of `SUSPEND` or of `RESUME`. -/
def Obligations.SetPowerStateIsSuspendOrResume : Prop :=
  ∀ s : State, exec (.setPowerState .sleeping) s = exec .suspend s ∧ exec (.setPowerState .working) s = exec .resume s

/-- R186, R189: `RESUME` (and `SET_POWER_STATE working`) always completes with `OK`: every community active, `suspended`
cleared, the snapshots' `valid` flags cleared and their words kept; a record changes only from unmasked to masked; the only
events are advisories. -/
def Obligations.ResumeCompletes : Prop :=
  ∀ (s : State) (i : Instr), (i = .resume ∨ i = .setPowerState .working) → s.initialized = true → s.suspended = true →
    paramsWf s.params = true → tableWf s.params s.table = true →
    ∃ t es, exec i s = .next t ∧
      t = { s with active := s.table.communities.map (fun _ => true), suspended := false, irq := t.irq,
                   ctxPin := t.ctxPin, ctxComm := t.ctxComm, events := s.events ++ es, respCode := 0x00#8, respValue := 0,
                   mem := t.mem, queue := t.queue, agent := t.agent, draws := t.draws, trace := t.trace } ∧
      (∀ p, irqOf t p = irqOf s p ∨
        ((irqOf s p).state = .unmasked ∧ irqOf t p = { irqOf s p with state := .masked })) ∧
      (∀ p, pinCtx t p = { pinCtx s p with valid := false }) ∧
      (∀ c, commCtx t c = { commCtx s c with valid := false }) ∧
      ∀ e ∈ es, ∃ o p, e = .advisory o p

/-- R186 to R188: with no register-agent step and no two registers at one address, `RESUME` makes exactly the micro-steps of
R186 in their order; leaves the saved words in the three padcfg registers of every pin with a valid snapshot that is not
locked, and in the HOSTSW_OWN registers of every community with one; leaves in every GPI_IE register the saved word (the word
held, where the snapshot is not valid) with the bits of the re-armed pins added; and changes no byte outside the registers it
restores or re-arms. -/
def Obligations.ResumeRestoresRegisters : Prop :=
  ∀ (s t : State) (i : Instr), (i = .resume ∨ i = .setPowerState .working) → s.initialized = true →
    s.suspended = true → paramsWf s.params = true → tableWf s.params s.table = true →
    layoutDistinct s.params s.table → Quiet s → exec i s = .next t →
    t.trace = s.trace ++ resumeSteps s t.mem ∧
    (∀ p loc, resolve s.table p = some loc → (pinCtx s p).valid = true → lockBitSet s p = false →
      heldPadcfgs s.params loc p t.mem = pinCtx s p) ∧
    (∀ c C g G, s.table.communities[c]? = some C → (commCtx s c).valid = true → C.hostOwnerOffset ≠ 0 →
      (groupsOf C)[g]? = some G →
      t.mem.readWord (groupReg C G C.hostOwnerOffset) = (commCtx s c).hostown.getD g 0) ∧
    (∀ c C g G, s.table.communities[c]? = some C → C.interruptEnableOffset ≠ 0 → (groupsOf C)[g]? = some G →
      t.mem.readWord (groupReg C G C.interruptEnableOffset) =
        restoredEnable s c C g G ||| rearmBits s t.mem G G.size) ∧
    ∀ q, (∀ a ∈ resumeWrites s, q < a ∨ a + 4 ≤ q) → t.mem.readByte q = s.mem.readByte q

/-- R189: with no register-agent step and no two registers at one address, `RESUME` re-validates every registered pin in the
registers it has restored. An unmasked pin whose guard passes and whose community has GPI_IE stays unmasked with its GPI_IE bit
1; any other unmasked pin is masked; no other record changes; the events added are exactly the advisories of R189, in
ascending pin order. -/
def Obligations.ResumeRevalidatesPins : Prop :=
  ∀ (s t : State) (i : Instr), (i = .resume ∨ i = .setPowerState .working) → s.initialized = true →
    s.suspended = true → paramsWf s.params = true → tableWf s.params s.table = true →
    layoutDistinct s.params s.table → Quiet s → exec i s = .next t →
    t.events = s.events ++ resumeAdvisories s t.mem ∧ (allPins s.table).Pairwise (· < ·) ∧
    (∀ p, irqOf t p = if p ∈ allPins s.table ∧ (irqOf s p).state = .unmasked ∧ rearms s t.mem p = false then
        { irqOf s p with state := .masked } else irqOf s p) ∧
    ∀ p loc, resolve s.table p = some loc → rearms s t.mem p = true →
      (t.mem.readWord (enableReg loc)).getLsbD (p - loc.grp.basePin) = true

/-- R189: re-validation of a registered pin. An unmasked pin whose guard passes is re-armed by setting its GPI_IE bit; one
whose guard fails, or whose community has no GPI_IE register, is left masked and its owner told; a masked pin is only
re-validated. -/
def Obligations.RevalidateRearmsOrTells : Prop :=
  ∀ (s : State) (pin : Nat) (loc : Loc), Quiet s → guardOnBus s.params loc pin → isActive s loc.c = true →
    (loc.com.interruptEnableOffset ≠ 0 → onBus (enableReg loc)) →
    let pass := mayMutate s.params loc pin s.mem
    let reads := guardReads s.params loc pin s.mem
    let a := enableReg loc
    let v := s.mem.readWord a
    let told := Event.advisory (irqOf s pin).owner pin
    ((irqOf s pin).state = .unmasked → loc.com.interruptEnableOffset ≠ 0 → pass = true →
      let w := v ||| 1#32 <<< (pin - loc.grp.basePin)
      ∃ t, revalidate loc pin s = .next t ∧
        t = { s with mem := t.mem, draws := t.draws, trace := s.trace ++ reads ++ [.read a v, .write a w] } ∧
        (plainReg s a → t.mem.readWord a = w) ∧
        ∀ q, q < a ∨ a + 4 ≤ q → t.mem.readByte q = s.mem.readByte q) ∧
    ((irqOf s pin).state = .unmasked → loc.com.interruptEnableOffset = 0 ∨ pass = false →
      ∃ t, revalidate loc pin s = .next t ∧
        t = { s with irq := t.irq, events := s.events ++ [told],
                     trace := s.trace ++ if loc.com.interruptEnableOffset = 0 then [] else reads } ∧
        ∀ p, irqOf t p = if p = pin then { irqOf s pin with state := .masked } else irqOf s p) ∧
    ((irqOf s pin).state = .masked →
      revalidate loc pin s = .next { s with
        events := s.events ++ (if pass then [] else [told]), trace := s.trace ++ reads })

/-- R193: `SUSPEND` followed at once by `RESUME`, with no register-agent step in the span and no two registers at one address,
leaves every padcfg register of every pin at its pre-suspend value. -/
def Obligations.SuspendResumeRoundTrip : Prop :=
  ∀ (s s1 s2 : State), s.initialized = true → s.suspended = false → paramsWf s.params = true →
    tableWf s.params s.table = true → layoutDistinct s.params s.table → Quiet s →
    exec .suspend s = .next s1 → exec .resume s1 = .next s2 →
    ∀ p loc, resolve s.table p = some loc →
      heldPadcfgs s.params loc p s2.mem = heldPadcfgs s.params loc p s.mem

/-! ## The whole machine -/

/-- The reset state meets the invariant (with the model's reset choices: log entries 1 to 5). -/
def Obligations.ResetMeetsInvariant : Prop := Invariant State.reset

/-- Every step from a state with the invariant ends in one with the invariant. -/
def Obligations.StepKeepsInvariant : Prop :=
  ∀ s t : State, Invariant s → step s = .next t → Invariant t

/-- R12, R65, R84: from a state with the invariant no step faults or is refused: every command ends with a response. -/
def Obligations.StepAlwaysCompletes : Prop :=
  ∀ s : State, Invariant s → ∃ t, step s = .next t

/-- R7, R36: no step changes the parameters, and the event log and the bus trace only grow. -/
def Obligations.LogsOnlyGrow : Prop :=
  ∀ s t : State, step s = .next t →
    t.params = s.params ∧ (∃ es, t.events = s.events ++ es) ∧ ∃ ms, t.trace = s.trace ++ ms
end

