-- ==== Sys2Proof/Laws/Decode.lean ====
section
/-! SUPPORT. The four fields of a command word, packed and read back (spec/30_encoding.md R86). -/

namespace Sys2Proof

/-- Which field a bit of a packed command word comes from. -/
theorem getLsbD_packCmd (o : BitVec 5) (s : BitVec 3) (r : BitVec 8) (p : BitVec 16) (i : Nat) :
    (packCmd o s r p).getLsbD i =
      if i < 16 then p.getLsbD i else if i - 16 < 8 then r.getLsbD (i - 16)
      else if i - 16 - 8 < 3 then s.getLsbD (i - 16 - 8) else o.getLsbD (i - 16 - 8 - 3) := by
  show BitVec.getLsbD (w := 5 + 3 + 8 + 16) (o ++ s ++ r ++ p) i = _
  simp only [BitVec.getLsbD_append]

@[simp] theorem opcField_packCmd (o : BitVec 5) (s : BitVec 3) (r : BitVec 8) (p : BitVec 16) :
    opcField (packCmd o s r p) = o := by
  refine BitVec.eq_of_getLsbD_eq fun i hi => ?_
  simp [opcField, getLsbD_packCmd, hi, show ¬ 27 + i < 16 by omega, show ¬ 27 + i - 16 < 8 by omega,
    show ¬ 27 + i - 16 - 8 < 3 by omega, show 27 + i - 16 - 8 - 3 = i by omega]

@[simp] theorem subField_packCmd (o : BitVec 5) (s : BitVec 3) (r : BitVec 8) (p : BitVec 16) :
    subField (packCmd o s r p) = s := by
  refine BitVec.eq_of_getLsbD_eq fun i hi => ?_
  simp [subField, getLsbD_packCmd, hi, show ¬ 24 + i < 16 by omega, show ¬ 24 + i - 16 < 8 by omega,
    show 24 + i - 16 - 8 = i by omega]

@[simp] theorem rsvField_packCmd (o : BitVec 5) (s : BitVec 3) (r : BitVec 8) (p : BitVec 16) :
    rsvField (packCmd o s r p) = r := by
  refine BitVec.eq_of_getLsbD_eq fun i hi => ?_
  simp [rsvField, getLsbD_packCmd, hi, show ¬ 16 + i < 16 by omega, show 16 + i - 16 = i by omega]

@[simp] theorem pinField_packCmd (o : BitVec 5) (s : BitVec 3) (r : BitVec 8) (p : BitVec 16) :
    pinField (packCmd o s r p) = p := by
  refine BitVec.eq_of_getLsbD_eq fun i hi => ?_
  simp [pinField, getLsbD_packCmd, hi]

/-- A command word is its four fields. -/
theorem packCmd_fields (c : Word) : packCmd (opcField c) (subField c) (rsvField c) (pinField c) = c := by
  refine BitVec.eq_of_getLsbD_eq fun i hi => ?_
  simp only [getLsbD_packCmd, opcField, subField, rsvField, pinField, BitVec.getLsbD_extractLsb']
  split <;> rename_i h1
  · simp [h1]
  · split <;> rename_i h2
    · simp [h2, show 16 + (i - 16) = i by omega]
    · split <;> rename_i h3
      · simp [h3, show 24 + (i - 16 - 8) = i by omega]
      · simp [show i - 16 - 8 - 3 < 5 by omega, show 27 + (i - 16 - 8 - 3) = i by omega]

/-- The command word of every command is its opcode, `SUB` and pin, packed. -/
theorem encode_cmd (i : Instr) : (encode i).cmd = packCmd i.opcode.bits i.sub 0#8 (BitVec.ofNat 16 i.pin) := by
  cases i <;> rfl

/-- Every opcode is found from its bits. -/
@[simp] theorem ofBits_bits (o : Opcode) : Opcode.ofBits o.bits = some o := by cases o <;> rfl

/-- Only an opcode's own bits find it. -/
theorem bits_of_ofBits (b : BitVec 5) (o : Opcode) (h : Opcode.ofBits b = some o) : o.bits = b := by
  have := List.find?_some h
  simpa using this

end Sys2Proof
end

