-- ==== Sys2Proof/Laws/Memory.lean ====
section
/-! SUPPORT. What the sorted stores and the register space do: read after write, the frame of a write, the canonical form. -/

namespace Sys2Proof.Machine

variable {α : Type}

/-! ## Stores -/

@[simp] theorem storeGet_nil (d : α) (q : Nat) : storeGet d [] q = d := rfl

theorem storeGet_cons (d v : α) (k : Nat) (rest : List (Nat × α)) (q : Nat) :
    storeGet d ((k, v) :: rest) q = if q = k then v else storeGet d rest q := rfl

/-- A store reads back what was put in, and nothing else changes. -/
theorem storeGet_storeSet (d v : α) (m : List (Nat × α)) (k q : Nat) :
    storeGet d (storeSet m k v) q = if q = k then v else storeGet d m q := by
  induction m with
  | nil => rfl
  | cons e rest ih =>
    obtain ⟨k', v'⟩ := e
    unfold storeSet
    by_cases h1 : k < k'
    · rw [if_pos h1, storeGet_cons]
    · by_cases h2 : k = k'
      · subst h2; rw [if_neg h1, if_pos rfl, storeGet_cons, storeGet_cons]; split <;> rfl
      · rw [if_neg h1, if_neg h2, storeGet_cons, storeGet_cons, ih]
        by_cases h3 : q = k'
        · subst h3; rw [if_pos rfl, if_neg (Ne.symm h2), if_pos rfl]
        · rw [if_neg h3, if_neg h3]

/-- A dropped key reads as the default, and nothing else changes. -/
theorem storeGet_storeDrop (d : α) (m : List (Nat × α)) (k q : Nat) :
    storeGet d (storeDrop m k) q = if q = k then d else storeGet d m q := by
  induction m with
  | nil => unfold storeDrop; split <;> rfl
  | cons e rest ih =>
    obtain ⟨k', v'⟩ := e
    unfold storeDrop
    by_cases h : k = k'
    · subst h; rw [if_pos rfl, ih, storeGet_cons]; split <;> rfl
    · rw [if_neg h, storeGet_cons, storeGet_cons, ih]
      by_cases h3 : q = k'
      · subst h3; rw [if_pos rfl, if_neg (Ne.symm h), if_pos rfl]
      · rw [if_neg h3, if_neg h3]

/-- Rising from a bound is rising from any lower one. -/
theorem storeRisesFrom_some_iff (lo : Nat) (m : List (Nat × α)) :
    storeRisesFrom (some lo) m = true ↔ storeRises m = true ∧ ∀ e ∈ m, lo < e.1 := by
  induction m generalizing lo with
  | nil => simp [storeRisesFrom, storeRises]
  | cons e rest ih =>
    obtain ⟨k, v⟩ := e
    unfold storeRises storeRisesFrom
    simp only [Bool.and_eq_true, decide_eq_true_eq, ih, List.mem_cons, forall_eq_or_imp]
    constructor
    · rintro ⟨h1, h2, h3⟩; exact ⟨⟨h2, h3⟩, h1, fun e he => lt_trans h1 (h3 e he)⟩
    · rintro ⟨⟨h2, h3⟩, h1, _⟩; exact ⟨h1, h2, h3⟩

/-- A store rises when its tail does and every later key is above the first. -/
theorem storeRises_cons (k : Nat) (v : α) (rest : List (Nat × α)) :
    storeRises ((k, v) :: rest) = true ↔ storeRises rest = true ∧ ∀ e ∈ rest, k < e.1 := by
  rw [← storeRisesFrom_some_iff]; rfl

theorem mem_storeSet {m : List (Nat × α)} {k : Nat} {v : α} {e : Nat × α} (h : e ∈ storeSet m k v) :
    e = (k, v) ∨ e ∈ m := by
  induction m with
  | nil => exact .inl (by simpa [storeSet] using h)
  | cons e' rest ih =>
    obtain ⟨k', v'⟩ := e'
    unfold storeSet at h
    split at h
    · rcases List.mem_cons.1 h with h | h
      · exact .inl h
      · exact .inr h
    · split at h
      · rcases List.mem_cons.1 h with h | h
        · exact .inl h
        · exact .inr (List.mem_cons_of_mem _ h)
      · rcases List.mem_cons.1 h with h | h
        · exact .inr (h ▸ List.mem_cons_self ..)
        · exact (ih h).imp_right (List.mem_cons_of_mem _)

theorem mem_storeDrop {m : List (Nat × α)} {k : Nat} {e : Nat × α} (h : e ∈ storeDrop m k) : e ∈ m := by
  induction m with
  | nil => simp [storeDrop] at h
  | cons e' rest ih =>
    obtain ⟨k', v'⟩ := e'
    unfold storeDrop at h
    split at h
    · exact List.mem_cons_of_mem _ (ih h)
    · rcases List.mem_cons.1 h with h | h
      · exact h ▸ List.mem_cons_self ..
      · exact List.mem_cons_of_mem _ (ih h)

/-- Putting an entry in keeps the keys rising. -/
theorem storeRises_storeSet (m : List (Nat × α)) (k : Nat) (v : α) (h : storeRises m = true) :
    storeRises (storeSet m k v) = true := by
  induction m with
  | nil => rfl
  | cons e rest ih =>
    obtain ⟨k', v'⟩ := e
    obtain ⟨hr, hk⟩ := (storeRises_cons _ _ _).1 h
    unfold storeSet
    split
    · rename_i hlt
      refine (storeRises_cons _ _ _).2 ⟨h, fun e he => ?_⟩
      rcases List.mem_cons.1 he with he | he
      · exact he ▸ hlt
      · exact lt_trans hlt (hk e he)
    · split
      · rename_i heq; subst heq; exact (storeRises_cons _ _ _).2 ⟨hr, hk⟩
      · refine (storeRises_cons _ _ _).2 ⟨ih hr, fun e he => ?_⟩
        rcases mem_storeSet he with he | he
        · subst he; show k' < k; omega
        · exact hk e he

/-- Dropping a key keeps the keys rising. -/
theorem storeRises_storeDrop (m : List (Nat × α)) (k : Nat) (h : storeRises m = true) :
    storeRises (storeDrop m k) = true := by
  induction m with
  | nil => rfl
  | cons e rest ih =>
    obtain ⟨k', v'⟩ := e
    obtain ⟨hr, hk⟩ := (storeRises_cons _ _ _).1 h
    unfold storeDrop
    split
    · exact ih hr
    · exact (storeRises_cons _ _ _).2 ⟨ih hr, fun e he => hk e (mem_storeDrop he)⟩

/-- A filled store rises. -/
theorem storeRises_storeFill (v : α) (ks : List Nat) : storeRises (storeFill v ks) = true := by
  induction ks with
  | nil => rfl
  | cons k rest ih => exact storeRises_storeSet _ _ _ ih

/-- A filled store holds its value at each of its keys and the default elsewhere. -/
theorem storeGet_storeFill (d v : α) (ks : List Nat) (q : Nat) :
    storeGet d (storeFill v ks) q = if q ∈ ks then v else d := by
  induction ks with
  | nil => simp [storeFill]
  | cons k rest ih =>
    rw [storeFill, storeGet_storeSet, ih]
    by_cases h : q = k <;> simp [h]

/-- Putting an entry at a key that a rising store has keeps the keys. -/
theorem keys_storeSet_of_mem (m : List (Nat × α)) (k : Nat) (v : α) (h : storeRises m = true) (hk : k ∈ m.map (·.1)) :
    (storeSet m k v).map (·.1) = m.map (·.1) := by
  induction m with
  | nil => cases hk
  | cons e rest ih =>
    obtain ⟨k', v'⟩ := e
    obtain ⟨hr, hlt⟩ := (storeRises_cons _ _ _).1 h
    rw [List.map_cons, List.mem_cons] at hk
    unfold storeSet
    by_cases h2 : k = k'
    · subst h2; simp
    · have hk := hk.resolve_left h2
      obtain ⟨e, he, rfl⟩ := List.mem_map.1 hk
      have := hlt e he
      rw [if_neg (by omega), if_neg h2, List.map_cons, ih hr hk, List.map_cons]

/-- The keys of a store filled at ascending keys are those keys. -/
theorem keys_storeFill (v : α) (ks : List Nat) (h : ks.Pairwise (· < ·)) : (storeFill v ks).map (·.1) = ks := by
  induction ks with
  | nil => rfl
  | cons k rest ih =>
    obtain ⟨h1, h2⟩ := List.pairwise_cons.1 h
    have ih := ih h2
    unfold storeFill
    cases hs : storeFill v rest with
    | nil => rw [hs] at ih; simp [storeSet, ← ih]
    | cons e more =>
      rw [hs] at ih
      obtain ⟨k', v'⟩ := e
      have hk : k < k' := h1 k' (by rw [← ih]; simp)
      simp only [storeSet, if_pos hk, List.map_cons, ← ih]

/-! ## Bytes -/

/-- A byte reads back as written, and every other byte is unchanged. -/
theorem readByte_writeByte (m : Memory) (a : Nat) (b : Byte) (q : Nat) :
    (m.writeByte a b).readByte q = if q = a then b else m.readByte q := by
  unfold Memory.writeByte Memory.readByte
  split
  · rename_i h; rw [storeGet_storeDrop, h]
  · rw [storeGet_storeSet]

/-- A byte write keeps the canonical form. -/
theorem wf_writeByte (m : Memory) (a : Nat) (b : Byte) (h : m.wf = true) : (m.writeByte a b).wf = true := by
  simp only [Memory.wf, Bool.and_eq_true, List.all_eq_true] at h ⊢
  unfold Memory.writeByte
  split
  · exact ⟨storeRises_storeDrop _ _ h.1, fun e he => h.2 e (mem_storeDrop he)⟩
  · rename_i hb
    refine ⟨storeRises_storeSet _ _ _ h.1, fun e he => ?_⟩
    rcases mem_storeSet he with he | he
    · subst he; simpa using hb
    · exact h.2 e he

/-! ## Registers -/

/-- A register write keeps the canonical form. -/
theorem wf_writeWord (m : Memory) (a : Nat) (v : Word) (h : m.wf = true) : (m.writeWord a v).wf = true :=
  wf_writeByte _ _ _ (wf_writeByte _ _ _ (wf_writeByte _ _ _ (wf_writeByte _ _ _ h)))

/-- Which byte of a register a byte address holds after the register is written. -/
theorem readByte_writeWord (m : Memory) (a : Nat) (v : Word) (q : Nat) :
    (m.writeWord a v).readByte q =
      if q = a + 3 then v.extractLsb' 24 8 else if q = a + 2 then v.extractLsb' 16 8
      else if q = a + 1 then v.extractLsb' 8 8 else if q = a then v.extractLsb' 0 8 else m.readByte q := by
  simp only [Memory.writeWord, readByte_writeByte]

/-- The frame of a register write: a byte outside the register's four is unchanged. -/
theorem readByte_writeWord_outside (m : Memory) (a : Nat) (v : Word) (q : Nat) (h : q < a ∨ a + 4 ≤ q) :
    (m.writeWord a v).readByte q = m.readByte q := by
  rw [readByte_writeWord]
  repeat rw [if_neg (by omega)]

/-- The bits of a register, byte by byte. -/
theorem getLsbD_readWord (m : Memory) (a i : Nat) :
    (m.readWord a).getLsbD i =
      if i < 8 then (m.readByte a).getLsbD i else if i - 8 < 8 then (m.readByte (a + 1)).getLsbD (i - 8)
      else if i - 8 - 8 < 8 then (m.readByte (a + 2)).getLsbD (i - 8 - 8)
      else (m.readByte (a + 3)).getLsbD (i - 8 - 8 - 8) := by
  show BitVec.getLsbD (w := 8 + 8 + 8 + 8)
    (m.readByte (a + 3) ++ m.readByte (a + 2) ++ m.readByte (a + 1) ++ m.readByte a) i = _
  simp only [BitVec.getLsbD_append]

/-- A register reads back as written. -/
theorem readWord_writeWord_same (m : Memory) (a : Nat) (v : Word) : (m.writeWord a v).readWord a = v := by
  refine BitVec.eq_of_getLsbD_eq fun i hi => ?_
  simp only [getLsbD_readWord, readByte_writeWord]
  split <;> rename_i h1
  · simp [h1]
  · split <;> rename_i h2
    · simp [h2, show 8 + (i - 8) = i by omega]
    · split <;> rename_i h3
      · simp [h3, show 16 + (i - 8 - 8) = i by omega]
      · simp [show i - 8 - 8 - 8 < 8 by omega, show 24 + (i - 8 - 8 - 8) = i by omega]

/-- Two register spaces that agree on a register's four bytes agree on the register. -/
theorem readWord_congr (m m' : Memory) (a : Nat) (h : ∀ q, a ≤ q → q < a + 4 → m.readByte q = m'.readByte q) :
    m.readWord a = m'.readWord a := by
  unfold Memory.readWord
  rw [h a (by omega) (by omega), h (a + 1) (by omega) (by omega), h (a + 2) (by omega) (by omega),
    h (a + 3) (by omega) (by omega)]

/-- A register that does not overlap the written one is unchanged. -/
theorem readWord_writeWord_apart (m : Memory) (a a' : Nat) (v : Word) (h : a' + 4 ≤ a ∨ a + 4 ≤ a') :
    (m.writeWord a v).readWord a' = m.readWord a' :=
  readWord_congr _ _ _ fun q _ _ => readByte_writeWord_outside m a v q (by omega)

/-- Registers at different multiples of 4 do not overlap. -/
theorem readWord_writeWord_of_ne (m : Memory) (a a' : Nat) (v : Word) (ha : a % 4 = 0) (ha' : a' % 4 = 0) (h : a' ≠ a) :
    (m.writeWord a v).readWord a' = m.readWord a' :=
  readWord_writeWord_apart m a a' v (by omega)

/-- A byte of a register, from the register. -/
theorem readByte_of_readWord (m : Memory) (a : Nat) :
    m.readByte a = (m.readWord a).extractLsb' 0 8 ∧ m.readByte (a + 1) = (m.readWord a).extractLsb' 8 8 ∧
      m.readByte (a + 2) = (m.readWord a).extractLsb' 16 8 ∧ m.readByte (a + 3) = (m.readWord a).extractLsb' 24 8 := by
  refine ⟨?_, ?_, ?_, ?_⟩ <;> refine BitVec.eq_of_getLsbD_eq fun i hi => ?_ <;>
    simp only [BitVec.getLsbD_extractLsb', getLsbD_readWord, hi, decide_true, Bool.true_and]
  · simp [hi]
  · rw [if_neg (by omega), if_pos (by omega)]; congr 1; omega
  · rw [if_neg (by omega), if_neg (by omega), if_pos (by omega)]; congr 1; omega
  · rw [if_neg (by omega), if_neg (by omega), if_neg (by omega)]; congr 1; omega

/-- Writing a register the value it holds changes no byte. -/
theorem readByte_writeWord_held (m : Memory) (a q : Nat) : (m.writeWord a (m.readWord a)).readByte q = m.readByte q := by
  obtain ⟨h0, h1, h2, h3⟩ := readByte_of_readWord m a
  rw [readByte_writeWord]
  split
  · rename_i h; rw [h, h3]
  · split
    · rename_i h; rw [h, h2]
    · split
      · rename_i h; rw [h, h1]
      · split
        · rename_i h; rw [h, h0]
        · rfl

end Sys2Proof.Machine
end

