-- ==== Sys2Proof/Laws/State.lean ====
section
/-! SUPPORT. What each update of the state does to each field: one lemma per field, true by unfolding. -/

namespace Sys2Proof.Machine

@[simp] theorem respond_params (code : ResultCode) (value : Word64) (s : State) :
    (respond code value s).params = s.params := rfl
@[simp] theorem respond_table (code : ResultCode) (value : Word64) (s : State) :
    (respond code value s).table = s.table := rfl
@[simp] theorem respond_initialized (code : ResultCode) (value : Word64) (s : State) :
    (respond code value s).initialized = s.initialized := rfl
@[simp] theorem respond_suspended (code : ResultCode) (value : Word64) (s : State) :
    (respond code value s).suspended = s.suspended := rfl
@[simp] theorem respond_active (code : ResultCode) (value : Word64) (s : State) :
    (respond code value s).active = s.active := rfl
@[simp] theorem respond_busy (code : ResultCode) (value : Word64) (s : State) :
    (respond code value s).busy = s.busy := rfl
@[simp] theorem respond_irq (code : ResultCode) (value : Word64) (s : State) :
    (respond code value s).irq = s.irq := rfl
@[simp] theorem respond_ctxPin (code : ResultCode) (value : Word64) (s : State) :
    (respond code value s).ctxPin = s.ctxPin := rfl
@[simp] theorem respond_ctxComm (code : ResultCode) (value : Word64) (s : State) :
    (respond code value s).ctxComm = s.ctxComm := rfl
@[simp] theorem respond_events (code : ResultCode) (value : Word64) (s : State) :
    (respond code value s).events = s.events := rfl
@[simp] theorem respond_cmd (code : ResultCode) (value : Word64) (s : State) :
    (respond code value s).cmd = s.cmd := rfl
@[simp] theorem respond_opnd0 (code : ResultCode) (value : Word64) (s : State) :
    (respond code value s).opnd0 = s.opnd0 := rfl
@[simp] theorem respond_opnd1 (code : ResultCode) (value : Word64) (s : State) :
    (respond code value s).opnd1 = s.opnd1 := rfl
@[simp] theorem respond_opnd2 (code : ResultCode) (value : Word64) (s : State) :
    (respond code value s).opnd2 = s.opnd2 := rfl
@[simp] theorem respond_respCode (code : ResultCode) (value : Word64) (s : State) :
    (respond code value s).respCode = resultBits code := rfl
@[simp] theorem respond_respValue (code : ResultCode) (value : Word64) (s : State) :
    (respond code value s).respValue = value := rfl
@[simp] theorem respond_handed (code : ResultCode) (value : Word64) (s : State) :
    (respond code value s).handed = s.handed := rfl
@[simp] theorem respond_queue (code : ResultCode) (value : Word64) (s : State) :
    (respond code value s).queue = s.queue := rfl
@[simp] theorem respond_mem (code : ResultCode) (value : Word64) (s : State) :
    (respond code value s).mem = s.mem := rfl
@[simp] theorem respond_draws (code : ResultCode) (value : Word64) (s : State) :
    (respond code value s).draws = s.draws := rfl
@[simp] theorem respond_agent (code : ResultCode) (value : Word64) (s : State) :
    (respond code value s).agent = s.agent := rfl
@[simp] theorem respond_trace (code : ResultCode) (value : Word64) (s : State) :
    (respond code value s).trace = s.trace := rfl

@[simp] theorem raise_params (code : ResultCode) (s : State) : (raise code s).params = s.params := rfl
@[simp] theorem raise_table (code : ResultCode) (s : State) : (raise code s).table = s.table := rfl
@[simp] theorem raise_initialized (code : ResultCode) (s : State) : (raise code s).initialized = s.initialized := rfl
@[simp] theorem raise_suspended (code : ResultCode) (s : State) : (raise code s).suspended = s.suspended := rfl
@[simp] theorem raise_active (code : ResultCode) (s : State) : (raise code s).active = s.active := rfl
@[simp] theorem raise_busy (code : ResultCode) (s : State) : (raise code s).busy = s.busy := rfl
@[simp] theorem raise_irq (code : ResultCode) (s : State) : (raise code s).irq = s.irq := rfl
@[simp] theorem raise_ctxPin (code : ResultCode) (s : State) : (raise code s).ctxPin = s.ctxPin := rfl
@[simp] theorem raise_ctxComm (code : ResultCode) (s : State) : (raise code s).ctxComm = s.ctxComm := rfl
@[simp] theorem raise_events (code : ResultCode) (s : State) : (raise code s).events = s.events := rfl
@[simp] theorem raise_cmd (code : ResultCode) (s : State) : (raise code s).cmd = s.cmd := rfl
@[simp] theorem raise_opnd0 (code : ResultCode) (s : State) : (raise code s).opnd0 = s.opnd0 := rfl
@[simp] theorem raise_opnd1 (code : ResultCode) (s : State) : (raise code s).opnd1 = s.opnd1 := rfl
@[simp] theorem raise_opnd2 (code : ResultCode) (s : State) : (raise code s).opnd2 = s.opnd2 := rfl
@[simp] theorem raise_respCode (code : ResultCode) (s : State) : (raise code s).respCode = resultBits code := rfl
@[simp] theorem raise_respValue (code : ResultCode) (s : State) : (raise code s).respValue = 0 := rfl
@[simp] theorem raise_handed (code : ResultCode) (s : State) : (raise code s).handed = s.handed := rfl
@[simp] theorem raise_queue (code : ResultCode) (s : State) : (raise code s).queue = s.queue := rfl
@[simp] theorem raise_mem (code : ResultCode) (s : State) : (raise code s).mem = s.mem := rfl
@[simp] theorem raise_draws (code : ResultCode) (s : State) : (raise code s).draws = s.draws := rfl
@[simp] theorem raise_agent (code : ResultCode) (s : State) : (raise code s).agent = s.agent := rfl
@[simp] theorem raise_trace (code : ResultCode) (s : State) : (raise code s).trace = s.trace := rfl

@[simp] theorem emit_params (e : Event) (s : State) : (emit e s).params = s.params := rfl
@[simp] theorem emit_table (e : Event) (s : State) : (emit e s).table = s.table := rfl
@[simp] theorem emit_initialized (e : Event) (s : State) : (emit e s).initialized = s.initialized := rfl
@[simp] theorem emit_suspended (e : Event) (s : State) : (emit e s).suspended = s.suspended := rfl
@[simp] theorem emit_active (e : Event) (s : State) : (emit e s).active = s.active := rfl
@[simp] theorem emit_busy (e : Event) (s : State) : (emit e s).busy = s.busy := rfl
@[simp] theorem emit_irq (e : Event) (s : State) : (emit e s).irq = s.irq := rfl
@[simp] theorem emit_ctxPin (e : Event) (s : State) : (emit e s).ctxPin = s.ctxPin := rfl
@[simp] theorem emit_ctxComm (e : Event) (s : State) : (emit e s).ctxComm = s.ctxComm := rfl
@[simp] theorem emit_events (e : Event) (s : State) : (emit e s).events = s.events ++ [e] := rfl
@[simp] theorem emit_cmd (e : Event) (s : State) : (emit e s).cmd = s.cmd := rfl
@[simp] theorem emit_opnd0 (e : Event) (s : State) : (emit e s).opnd0 = s.opnd0 := rfl
@[simp] theorem emit_opnd1 (e : Event) (s : State) : (emit e s).opnd1 = s.opnd1 := rfl
@[simp] theorem emit_opnd2 (e : Event) (s : State) : (emit e s).opnd2 = s.opnd2 := rfl
@[simp] theorem emit_respCode (e : Event) (s : State) : (emit e s).respCode = s.respCode := rfl
@[simp] theorem emit_respValue (e : Event) (s : State) : (emit e s).respValue = s.respValue := rfl
@[simp] theorem emit_handed (e : Event) (s : State) : (emit e s).handed = s.handed := rfl
@[simp] theorem emit_queue (e : Event) (s : State) : (emit e s).queue = s.queue := rfl
@[simp] theorem emit_mem (e : Event) (s : State) : (emit e s).mem = s.mem := rfl
@[simp] theorem emit_draws (e : Event) (s : State) : (emit e s).draws = s.draws := rfl
@[simp] theorem emit_agent (e : Event) (s : State) : (emit e s).agent = s.agent := rfl
@[simp] theorem emit_trace (e : Event) (s : State) : (emit e s).trace = s.trace := rfl

@[simp] theorem setBusy_params (c : Nat) (v : Bool) (s : State) : (setBusy c v s).params = s.params := rfl
@[simp] theorem setBusy_table (c : Nat) (v : Bool) (s : State) : (setBusy c v s).table = s.table := rfl
@[simp] theorem setBusy_initialized (c : Nat) (v : Bool) (s : State) :
    (setBusy c v s).initialized = s.initialized := rfl
@[simp] theorem setBusy_suspended (c : Nat) (v : Bool) (s : State) : (setBusy c v s).suspended = s.suspended := rfl
@[simp] theorem setBusy_active (c : Nat) (v : Bool) (s : State) : (setBusy c v s).active = s.active := rfl
@[simp] theorem setBusy_busy (c : Nat) (v : Bool) (s : State) : (setBusy c v s).busy = s.busy.set c v := rfl
@[simp] theorem setBusy_irq (c : Nat) (v : Bool) (s : State) : (setBusy c v s).irq = s.irq := rfl
@[simp] theorem setBusy_ctxPin (c : Nat) (v : Bool) (s : State) : (setBusy c v s).ctxPin = s.ctxPin := rfl
@[simp] theorem setBusy_ctxComm (c : Nat) (v : Bool) (s : State) : (setBusy c v s).ctxComm = s.ctxComm := rfl
@[simp] theorem setBusy_events (c : Nat) (v : Bool) (s : State) : (setBusy c v s).events = s.events := rfl
@[simp] theorem setBusy_cmd (c : Nat) (v : Bool) (s : State) : (setBusy c v s).cmd = s.cmd := rfl
@[simp] theorem setBusy_opnd0 (c : Nat) (v : Bool) (s : State) : (setBusy c v s).opnd0 = s.opnd0 := rfl
@[simp] theorem setBusy_opnd1 (c : Nat) (v : Bool) (s : State) : (setBusy c v s).opnd1 = s.opnd1 := rfl
@[simp] theorem setBusy_opnd2 (c : Nat) (v : Bool) (s : State) : (setBusy c v s).opnd2 = s.opnd2 := rfl
@[simp] theorem setBusy_respCode (c : Nat) (v : Bool) (s : State) : (setBusy c v s).respCode = s.respCode := rfl
@[simp] theorem setBusy_respValue (c : Nat) (v : Bool) (s : State) : (setBusy c v s).respValue = s.respValue := rfl
@[simp] theorem setBusy_handed (c : Nat) (v : Bool) (s : State) : (setBusy c v s).handed = s.handed := rfl
@[simp] theorem setBusy_queue (c : Nat) (v : Bool) (s : State) : (setBusy c v s).queue = s.queue := rfl
@[simp] theorem setBusy_mem (c : Nat) (v : Bool) (s : State) : (setBusy c v s).mem = s.mem := rfl
@[simp] theorem setBusy_draws (c : Nat) (v : Bool) (s : State) : (setBusy c v s).draws = s.draws := rfl
@[simp] theorem setBusy_agent (c : Nat) (v : Bool) (s : State) : (setBusy c v s).agent = s.agent := rfl
@[simp] theorem setBusy_trace (c : Nat) (v : Bool) (s : State) : (setBusy c v s).trace = s.trace := rfl

@[simp] theorem setIrq_params (pin : Nat) (r : IrqRecord) (s : State) : (setIrq pin r s).params = s.params := rfl
@[simp] theorem setIrq_table (pin : Nat) (r : IrqRecord) (s : State) : (setIrq pin r s).table = s.table := rfl
@[simp] theorem setIrq_initialized (pin : Nat) (r : IrqRecord) (s : State) :
    (setIrq pin r s).initialized = s.initialized := rfl
@[simp] theorem setIrq_suspended (pin : Nat) (r : IrqRecord) (s : State) :
    (setIrq pin r s).suspended = s.suspended := rfl
@[simp] theorem setIrq_active (pin : Nat) (r : IrqRecord) (s : State) : (setIrq pin r s).active = s.active := rfl
@[simp] theorem setIrq_busy (pin : Nat) (r : IrqRecord) (s : State) : (setIrq pin r s).busy = s.busy := rfl
@[simp] theorem setIrq_irq (pin : Nat) (r : IrqRecord) (s : State) :
    (setIrq pin r s).irq = storeSet s.irq pin r := rfl
@[simp] theorem setIrq_ctxPin (pin : Nat) (r : IrqRecord) (s : State) : (setIrq pin r s).ctxPin = s.ctxPin := rfl
@[simp] theorem setIrq_ctxComm (pin : Nat) (r : IrqRecord) (s : State) : (setIrq pin r s).ctxComm = s.ctxComm := rfl
@[simp] theorem setIrq_events (pin : Nat) (r : IrqRecord) (s : State) : (setIrq pin r s).events = s.events := rfl
@[simp] theorem setIrq_cmd (pin : Nat) (r : IrqRecord) (s : State) : (setIrq pin r s).cmd = s.cmd := rfl
@[simp] theorem setIrq_opnd0 (pin : Nat) (r : IrqRecord) (s : State) : (setIrq pin r s).opnd0 = s.opnd0 := rfl
@[simp] theorem setIrq_opnd1 (pin : Nat) (r : IrqRecord) (s : State) : (setIrq pin r s).opnd1 = s.opnd1 := rfl
@[simp] theorem setIrq_opnd2 (pin : Nat) (r : IrqRecord) (s : State) : (setIrq pin r s).opnd2 = s.opnd2 := rfl
@[simp] theorem setIrq_respCode (pin : Nat) (r : IrqRecord) (s : State) :
    (setIrq pin r s).respCode = s.respCode := rfl
@[simp] theorem setIrq_respValue (pin : Nat) (r : IrqRecord) (s : State) :
    (setIrq pin r s).respValue = s.respValue := rfl
@[simp] theorem setIrq_handed (pin : Nat) (r : IrqRecord) (s : State) : (setIrq pin r s).handed = s.handed := rfl
@[simp] theorem setIrq_queue (pin : Nat) (r : IrqRecord) (s : State) : (setIrq pin r s).queue = s.queue := rfl
@[simp] theorem setIrq_mem (pin : Nat) (r : IrqRecord) (s : State) : (setIrq pin r s).mem = s.mem := rfl
@[simp] theorem setIrq_draws (pin : Nat) (r : IrqRecord) (s : State) : (setIrq pin r s).draws = s.draws := rfl
@[simp] theorem setIrq_agent (pin : Nat) (r : IrqRecord) (s : State) : (setIrq pin r s).agent = s.agent := rfl
@[simp] theorem setIrq_trace (pin : Nat) (r : IrqRecord) (s : State) : (setIrq pin r s).trace = s.trace := rfl

@[simp] theorem setPinCtx_params (pin : Nat) (x : PinContext) (s : State) :
    (setPinCtx pin x s).params = s.params := rfl
@[simp] theorem setPinCtx_table (pin : Nat) (x : PinContext) (s : State) : (setPinCtx pin x s).table = s.table := rfl
@[simp] theorem setPinCtx_initialized (pin : Nat) (x : PinContext) (s : State) :
    (setPinCtx pin x s).initialized = s.initialized := rfl
@[simp] theorem setPinCtx_suspended (pin : Nat) (x : PinContext) (s : State) :
    (setPinCtx pin x s).suspended = s.suspended := rfl
@[simp] theorem setPinCtx_active (pin : Nat) (x : PinContext) (s : State) :
    (setPinCtx pin x s).active = s.active := rfl
@[simp] theorem setPinCtx_busy (pin : Nat) (x : PinContext) (s : State) : (setPinCtx pin x s).busy = s.busy := rfl
@[simp] theorem setPinCtx_irq (pin : Nat) (x : PinContext) (s : State) : (setPinCtx pin x s).irq = s.irq := rfl
@[simp] theorem setPinCtx_ctxPin (pin : Nat) (x : PinContext) (s : State) :
    (setPinCtx pin x s).ctxPin = storeSet s.ctxPin pin x := rfl
@[simp] theorem setPinCtx_ctxComm (pin : Nat) (x : PinContext) (s : State) :
    (setPinCtx pin x s).ctxComm = s.ctxComm := rfl
@[simp] theorem setPinCtx_events (pin : Nat) (x : PinContext) (s : State) :
    (setPinCtx pin x s).events = s.events := rfl
@[simp] theorem setPinCtx_cmd (pin : Nat) (x : PinContext) (s : State) : (setPinCtx pin x s).cmd = s.cmd := rfl
@[simp] theorem setPinCtx_opnd0 (pin : Nat) (x : PinContext) (s : State) : (setPinCtx pin x s).opnd0 = s.opnd0 := rfl
@[simp] theorem setPinCtx_opnd1 (pin : Nat) (x : PinContext) (s : State) : (setPinCtx pin x s).opnd1 = s.opnd1 := rfl
@[simp] theorem setPinCtx_opnd2 (pin : Nat) (x : PinContext) (s : State) : (setPinCtx pin x s).opnd2 = s.opnd2 := rfl
@[simp] theorem setPinCtx_respCode (pin : Nat) (x : PinContext) (s : State) :
    (setPinCtx pin x s).respCode = s.respCode := rfl
@[simp] theorem setPinCtx_respValue (pin : Nat) (x : PinContext) (s : State) :
    (setPinCtx pin x s).respValue = s.respValue := rfl
@[simp] theorem setPinCtx_handed (pin : Nat) (x : PinContext) (s : State) :
    (setPinCtx pin x s).handed = s.handed := rfl
@[simp] theorem setPinCtx_queue (pin : Nat) (x : PinContext) (s : State) : (setPinCtx pin x s).queue = s.queue := rfl
@[simp] theorem setPinCtx_mem (pin : Nat) (x : PinContext) (s : State) : (setPinCtx pin x s).mem = s.mem := rfl
@[simp] theorem setPinCtx_draws (pin : Nat) (x : PinContext) (s : State) : (setPinCtx pin x s).draws = s.draws := rfl
@[simp] theorem setPinCtx_agent (pin : Nat) (x : PinContext) (s : State) : (setPinCtx pin x s).agent = s.agent := rfl
@[simp] theorem setPinCtx_trace (pin : Nat) (x : PinContext) (s : State) : (setPinCtx pin x s).trace = s.trace := rfl

@[simp] theorem setCommCtx_params (c : Nat) (x : CommContext) (s : State) :
    (setCommCtx c x s).params = s.params := rfl
@[simp] theorem setCommCtx_table (c : Nat) (x : CommContext) (s : State) : (setCommCtx c x s).table = s.table := rfl
@[simp] theorem setCommCtx_initialized (c : Nat) (x : CommContext) (s : State) :
    (setCommCtx c x s).initialized = s.initialized := rfl
@[simp] theorem setCommCtx_suspended (c : Nat) (x : CommContext) (s : State) :
    (setCommCtx c x s).suspended = s.suspended := rfl
@[simp] theorem setCommCtx_active (c : Nat) (x : CommContext) (s : State) :
    (setCommCtx c x s).active = s.active := rfl
@[simp] theorem setCommCtx_busy (c : Nat) (x : CommContext) (s : State) : (setCommCtx c x s).busy = s.busy := rfl
@[simp] theorem setCommCtx_irq (c : Nat) (x : CommContext) (s : State) : (setCommCtx c x s).irq = s.irq := rfl
@[simp] theorem setCommCtx_ctxPin (c : Nat) (x : CommContext) (s : State) :
    (setCommCtx c x s).ctxPin = s.ctxPin := rfl
@[simp] theorem setCommCtx_ctxComm (c : Nat) (x : CommContext) (s : State) :
    (setCommCtx c x s).ctxComm = s.ctxComm.set c x := rfl
@[simp] theorem setCommCtx_events (c : Nat) (x : CommContext) (s : State) :
    (setCommCtx c x s).events = s.events := rfl
@[simp] theorem setCommCtx_cmd (c : Nat) (x : CommContext) (s : State) : (setCommCtx c x s).cmd = s.cmd := rfl
@[simp] theorem setCommCtx_opnd0 (c : Nat) (x : CommContext) (s : State) : (setCommCtx c x s).opnd0 = s.opnd0 := rfl
@[simp] theorem setCommCtx_opnd1 (c : Nat) (x : CommContext) (s : State) : (setCommCtx c x s).opnd1 = s.opnd1 := rfl
@[simp] theorem setCommCtx_opnd2 (c : Nat) (x : CommContext) (s : State) : (setCommCtx c x s).opnd2 = s.opnd2 := rfl
@[simp] theorem setCommCtx_respCode (c : Nat) (x : CommContext) (s : State) :
    (setCommCtx c x s).respCode = s.respCode := rfl
@[simp] theorem setCommCtx_respValue (c : Nat) (x : CommContext) (s : State) :
    (setCommCtx c x s).respValue = s.respValue := rfl
@[simp] theorem setCommCtx_handed (c : Nat) (x : CommContext) (s : State) :
    (setCommCtx c x s).handed = s.handed := rfl
@[simp] theorem setCommCtx_queue (c : Nat) (x : CommContext) (s : State) : (setCommCtx c x s).queue = s.queue := rfl
@[simp] theorem setCommCtx_mem (c : Nat) (x : CommContext) (s : State) : (setCommCtx c x s).mem = s.mem := rfl
@[simp] theorem setCommCtx_draws (c : Nat) (x : CommContext) (s : State) : (setCommCtx c x s).draws = s.draws := rfl
@[simp] theorem setCommCtx_agent (c : Nat) (x : CommContext) (s : State) : (setCommCtx c x s).agent = s.agent := rfl
@[simp] theorem setCommCtx_trace (c : Nat) (x : CommContext) (s : State) : (setCommCtx c x s).trace = s.trace := rfl

@[simp] theorem setReg_params (a : Nat) (v : Word) (s : State) : (setReg a v s).params = s.params := rfl
@[simp] theorem setReg_table (a : Nat) (v : Word) (s : State) : (setReg a v s).table = s.table := rfl
@[simp] theorem setReg_initialized (a : Nat) (v : Word) (s : State) :
    (setReg a v s).initialized = s.initialized := rfl
@[simp] theorem setReg_suspended (a : Nat) (v : Word) (s : State) : (setReg a v s).suspended = s.suspended := rfl
@[simp] theorem setReg_active (a : Nat) (v : Word) (s : State) : (setReg a v s).active = s.active := rfl
@[simp] theorem setReg_busy (a : Nat) (v : Word) (s : State) : (setReg a v s).busy = s.busy := rfl
@[simp] theorem setReg_irq (a : Nat) (v : Word) (s : State) : (setReg a v s).irq = s.irq := rfl
@[simp] theorem setReg_ctxPin (a : Nat) (v : Word) (s : State) : (setReg a v s).ctxPin = s.ctxPin := rfl
@[simp] theorem setReg_ctxComm (a : Nat) (v : Word) (s : State) : (setReg a v s).ctxComm = s.ctxComm := rfl
@[simp] theorem setReg_events (a : Nat) (v : Word) (s : State) : (setReg a v s).events = s.events := rfl
@[simp] theorem setReg_cmd (a : Nat) (v : Word) (s : State) : (setReg a v s).cmd = s.cmd := rfl
@[simp] theorem setReg_opnd0 (a : Nat) (v : Word) (s : State) : (setReg a v s).opnd0 = s.opnd0 := rfl
@[simp] theorem setReg_opnd1 (a : Nat) (v : Word) (s : State) : (setReg a v s).opnd1 = s.opnd1 := rfl
@[simp] theorem setReg_opnd2 (a : Nat) (v : Word) (s : State) : (setReg a v s).opnd2 = s.opnd2 := rfl
@[simp] theorem setReg_respCode (a : Nat) (v : Word) (s : State) : (setReg a v s).respCode = s.respCode := rfl
@[simp] theorem setReg_respValue (a : Nat) (v : Word) (s : State) : (setReg a v s).respValue = s.respValue := rfl
@[simp] theorem setReg_handed (a : Nat) (v : Word) (s : State) : (setReg a v s).handed = s.handed := rfl
@[simp] theorem setReg_queue (a : Nat) (v : Word) (s : State) : (setReg a v s).queue = s.queue := rfl
@[simp] theorem setReg_mem (a : Nat) (v : Word) (s : State) : (setReg a v s).mem = s.mem.writeWord a v := rfl
@[simp] theorem setReg_draws (a : Nat) (v : Word) (s : State) : (setReg a v s).draws = s.draws := rfl
@[simp] theorem setReg_agent (a : Nat) (v : Word) (s : State) : (setReg a v s).agent = s.agent := rfl
@[simp] theorem setReg_trace (a : Nat) (v : Word) (s : State) : (setReg a v s).trace = s.trace := rfl

@[simp] theorem enqueue_params (sub : Submission) (s : State) : (enqueue sub s).params = s.params := rfl
@[simp] theorem enqueue_table (sub : Submission) (s : State) : (enqueue sub s).table = s.table := rfl
@[simp] theorem enqueue_initialized (sub : Submission) (s : State) :
    (enqueue sub s).initialized = s.initialized := rfl
@[simp] theorem enqueue_suspended (sub : Submission) (s : State) : (enqueue sub s).suspended = s.suspended := rfl
@[simp] theorem enqueue_active (sub : Submission) (s : State) : (enqueue sub s).active = s.active := rfl
@[simp] theorem enqueue_busy (sub : Submission) (s : State) : (enqueue sub s).busy = s.busy := rfl
@[simp] theorem enqueue_irq (sub : Submission) (s : State) : (enqueue sub s).irq = s.irq := rfl
@[simp] theorem enqueue_ctxPin (sub : Submission) (s : State) : (enqueue sub s).ctxPin = s.ctxPin := rfl
@[simp] theorem enqueue_ctxComm (sub : Submission) (s : State) : (enqueue sub s).ctxComm = s.ctxComm := rfl
@[simp] theorem enqueue_events (sub : Submission) (s : State) : (enqueue sub s).events = s.events := rfl
@[simp] theorem enqueue_cmd (sub : Submission) (s : State) : (enqueue sub s).cmd = s.cmd := rfl
@[simp] theorem enqueue_opnd0 (sub : Submission) (s : State) : (enqueue sub s).opnd0 = s.opnd0 := rfl
@[simp] theorem enqueue_opnd1 (sub : Submission) (s : State) : (enqueue sub s).opnd1 = s.opnd1 := rfl
@[simp] theorem enqueue_opnd2 (sub : Submission) (s : State) : (enqueue sub s).opnd2 = s.opnd2 := rfl
@[simp] theorem enqueue_respCode (sub : Submission) (s : State) : (enqueue sub s).respCode = s.respCode := rfl
@[simp] theorem enqueue_respValue (sub : Submission) (s : State) : (enqueue sub s).respValue = s.respValue := rfl
@[simp] theorem enqueue_handed (sub : Submission) (s : State) : (enqueue sub s).handed = s.handed := rfl
@[simp] theorem enqueue_queue (sub : Submission) (s : State) : (enqueue sub s).queue = s.queue ++ [sub] := rfl
@[simp] theorem enqueue_mem (sub : Submission) (s : State) : (enqueue sub s).mem = s.mem := rfl
@[simp] theorem enqueue_draws (sub : Submission) (s : State) : (enqueue sub s).draws = s.draws := rfl
@[simp] theorem enqueue_agent (sub : Submission) (s : State) : (enqueue sub s).agent = s.agent := rfl
@[simp] theorem enqueue_trace (sub : Submission) (s : State) : (enqueue sub s).trace = s.trace := rfl

@[simp] theorem logStep_params (m : MicroStep) (s : State) : (logStep m s).params = s.params := rfl
@[simp] theorem logStep_table (m : MicroStep) (s : State) : (logStep m s).table = s.table := rfl
@[simp] theorem logStep_initialized (m : MicroStep) (s : State) : (logStep m s).initialized = s.initialized := rfl
@[simp] theorem logStep_suspended (m : MicroStep) (s : State) : (logStep m s).suspended = s.suspended := rfl
@[simp] theorem logStep_active (m : MicroStep) (s : State) : (logStep m s).active = s.active := rfl
@[simp] theorem logStep_busy (m : MicroStep) (s : State) : (logStep m s).busy = s.busy := rfl
@[simp] theorem logStep_irq (m : MicroStep) (s : State) : (logStep m s).irq = s.irq := rfl
@[simp] theorem logStep_ctxPin (m : MicroStep) (s : State) : (logStep m s).ctxPin = s.ctxPin := rfl
@[simp] theorem logStep_ctxComm (m : MicroStep) (s : State) : (logStep m s).ctxComm = s.ctxComm := rfl
@[simp] theorem logStep_events (m : MicroStep) (s : State) : (logStep m s).events = s.events := rfl
@[simp] theorem logStep_cmd (m : MicroStep) (s : State) : (logStep m s).cmd = s.cmd := rfl
@[simp] theorem logStep_opnd0 (m : MicroStep) (s : State) : (logStep m s).opnd0 = s.opnd0 := rfl
@[simp] theorem logStep_opnd1 (m : MicroStep) (s : State) : (logStep m s).opnd1 = s.opnd1 := rfl
@[simp] theorem logStep_opnd2 (m : MicroStep) (s : State) : (logStep m s).opnd2 = s.opnd2 := rfl
@[simp] theorem logStep_respCode (m : MicroStep) (s : State) : (logStep m s).respCode = s.respCode := rfl
@[simp] theorem logStep_respValue (m : MicroStep) (s : State) : (logStep m s).respValue = s.respValue := rfl
@[simp] theorem logStep_handed (m : MicroStep) (s : State) : (logStep m s).handed = s.handed := rfl
@[simp] theorem logStep_queue (m : MicroStep) (s : State) : (logStep m s).queue = s.queue := rfl
@[simp] theorem logStep_mem (m : MicroStep) (s : State) : (logStep m s).mem = s.mem := rfl
@[simp] theorem logStep_draws (m : MicroStep) (s : State) : (logStep m s).draws = s.draws := rfl
@[simp] theorem logStep_agent (m : MicroStep) (s : State) : (logStep m s).agent = s.agent := rfl
@[simp] theorem logStep_trace (m : MicroStep) (s : State) : (logStep m s).trace = s.trace ++ [m] := rfl

@[simp] theorem accept_params (sub : Submission) (rest : List Submission) (s : State) :
    (accept sub rest s).params = s.params := rfl
@[simp] theorem accept_table (sub : Submission) (rest : List Submission) (s : State) :
    (accept sub rest s).table = s.table := rfl
@[simp] theorem accept_initialized (sub : Submission) (rest : List Submission) (s : State) :
    (accept sub rest s).initialized = s.initialized := rfl
@[simp] theorem accept_suspended (sub : Submission) (rest : List Submission) (s : State) :
    (accept sub rest s).suspended = s.suspended := rfl
@[simp] theorem accept_active (sub : Submission) (rest : List Submission) (s : State) :
    (accept sub rest s).active = s.active := rfl
@[simp] theorem accept_busy (sub : Submission) (rest : List Submission) (s : State) :
    (accept sub rest s).busy = s.busy := rfl
@[simp] theorem accept_irq (sub : Submission) (rest : List Submission) (s : State) :
    (accept sub rest s).irq = s.irq := rfl
@[simp] theorem accept_ctxPin (sub : Submission) (rest : List Submission) (s : State) :
    (accept sub rest s).ctxPin = s.ctxPin := rfl
@[simp] theorem accept_ctxComm (sub : Submission) (rest : List Submission) (s : State) :
    (accept sub rest s).ctxComm = s.ctxComm := rfl
@[simp] theorem accept_events (sub : Submission) (rest : List Submission) (s : State) :
    (accept sub rest s).events = s.events := rfl
@[simp] theorem accept_cmd (sub : Submission) (rest : List Submission) (s : State) :
    (accept sub rest s).cmd = sub.words.cmd := rfl
@[simp] theorem accept_opnd0 (sub : Submission) (rest : List Submission) (s : State) :
    (accept sub rest s).opnd0 = sub.words.opnd0 := rfl
@[simp] theorem accept_opnd1 (sub : Submission) (rest : List Submission) (s : State) :
    (accept sub rest s).opnd1 = sub.words.opnd1 := rfl
@[simp] theorem accept_opnd2 (sub : Submission) (rest : List Submission) (s : State) :
    (accept sub rest s).opnd2 = sub.words.opnd2 := rfl
@[simp] theorem accept_respCode (sub : Submission) (rest : List Submission) (s : State) :
    (accept sub rest s).respCode = s.respCode := rfl
@[simp] theorem accept_respValue (sub : Submission) (rest : List Submission) (s : State) :
    (accept sub rest s).respValue = s.respValue := rfl
@[simp] theorem accept_handed (sub : Submission) (rest : List Submission) (s : State) :
    (accept sub rest s).handed = sub.table := rfl
@[simp] theorem accept_queue (sub : Submission) (rest : List Submission) (s : State) :
    (accept sub rest s).queue = rest := rfl
@[simp] theorem accept_mem (sub : Submission) (rest : List Submission) (s : State) :
    (accept sub rest s).mem = s.mem := rfl
@[simp] theorem accept_draws (sub : Submission) (rest : List Submission) (s : State) :
    (accept sub rest s).draws = s.draws := rfl
@[simp] theorem accept_agent (sub : Submission) (rest : List Submission) (s : State) :
    (accept sub rest s).agent = s.agent := rfl
@[simp] theorem accept_trace (sub : Submission) (rest : List Submission) (s : State) :
    (accept sub rest s).trace = s.trace := rfl

@[simp] theorem installTable_params (T : Table) (s : State) : (installTable T s).params = s.params := rfl
@[simp] theorem installTable_table (T : Table) (s : State) : (installTable T s).table = T := rfl
@[simp] theorem installTable_initialized (T : Table) (s : State) : (installTable T s).initialized = true := rfl
@[simp] theorem installTable_suspended (T : Table) (s : State) : (installTable T s).suspended = false := rfl
@[simp] theorem installTable_active (T : Table) (s : State) :
    (installTable T s).active = T.communities.map (fun _ => true) := rfl
@[simp] theorem installTable_busy (T : Table) (s : State) :
    (installTable T s).busy = T.communities.map (fun _ => false) := rfl
@[simp] theorem installTable_irq (T : Table) (s : State) :
    (installTable T s).irq = storeFill IrqRecord.cleared (allPins T) := rfl
@[simp] theorem installTable_ctxPin (T : Table) (s : State) :
    (installTable T s).ctxPin = storeFill PinContext.zero (allPins T) := rfl
@[simp] theorem installTable_ctxComm (T : Table) (s : State) :
    (installTable T s).ctxComm = T.communities.map zeroComm := rfl
@[simp] theorem installTable_events (T : Table) (s : State) : (installTable T s).events = s.events := rfl
@[simp] theorem installTable_cmd (T : Table) (s : State) : (installTable T s).cmd = s.cmd := rfl
@[simp] theorem installTable_opnd0 (T : Table) (s : State) : (installTable T s).opnd0 = s.opnd0 := rfl
@[simp] theorem installTable_opnd1 (T : Table) (s : State) : (installTable T s).opnd1 = s.opnd1 := rfl
@[simp] theorem installTable_opnd2 (T : Table) (s : State) : (installTable T s).opnd2 = s.opnd2 := rfl
@[simp] theorem installTable_respCode (T : Table) (s : State) : (installTable T s).respCode = s.respCode := rfl
@[simp] theorem installTable_respValue (T : Table) (s : State) : (installTable T s).respValue = s.respValue := rfl
@[simp] theorem installTable_handed (T : Table) (s : State) : (installTable T s).handed = s.handed := rfl
@[simp] theorem installTable_queue (T : Table) (s : State) : (installTable T s).queue = s.queue := rfl
@[simp] theorem installTable_mem (T : Table) (s : State) : (installTable T s).mem = s.mem := rfl
@[simp] theorem installTable_draws (T : Table) (s : State) : (installTable T s).draws = s.draws := rfl
@[simp] theorem installTable_agent (T : Table) (s : State) : (installTable T s).agent = s.agent := rfl
@[simp] theorem installTable_trace (T : Table) (s : State) : (installTable T s).trace = s.trace := rfl

@[simp] theorem zeroFill_params (s : State) : (zeroFill s).params = s.params := rfl
@[simp] theorem zeroFill_table (s : State) : (zeroFill s).table = s.table := rfl
@[simp] theorem zeroFill_initialized (s : State) : (zeroFill s).initialized = s.initialized := rfl
@[simp] theorem zeroFill_suspended (s : State) : (zeroFill s).suspended = s.suspended := rfl
@[simp] theorem zeroFill_active (s : State) : (zeroFill s).active = s.active := rfl
@[simp] theorem zeroFill_busy (s : State) : (zeroFill s).busy = s.busy := rfl
@[simp] theorem zeroFill_irq (s : State) : (zeroFill s).irq = s.irq := rfl
@[simp] theorem zeroFill_ctxPin (s : State) : (zeroFill s).ctxPin = storeFill PinContext.zero (allPins s.table) := rfl
@[simp] theorem zeroFill_ctxComm (s : State) : (zeroFill s).ctxComm = s.table.communities.map zeroComm := rfl
@[simp] theorem zeroFill_events (s : State) : (zeroFill s).events = s.events := rfl
@[simp] theorem zeroFill_cmd (s : State) : (zeroFill s).cmd = s.cmd := rfl
@[simp] theorem zeroFill_opnd0 (s : State) : (zeroFill s).opnd0 = s.opnd0 := rfl
@[simp] theorem zeroFill_opnd1 (s : State) : (zeroFill s).opnd1 = s.opnd1 := rfl
@[simp] theorem zeroFill_opnd2 (s : State) : (zeroFill s).opnd2 = s.opnd2 := rfl
@[simp] theorem zeroFill_respCode (s : State) : (zeroFill s).respCode = s.respCode := rfl
@[simp] theorem zeroFill_respValue (s : State) : (zeroFill s).respValue = s.respValue := rfl
@[simp] theorem zeroFill_handed (s : State) : (zeroFill s).handed = s.handed := rfl
@[simp] theorem zeroFill_queue (s : State) : (zeroFill s).queue = s.queue := rfl
@[simp] theorem zeroFill_mem (s : State) : (zeroFill s).mem = s.mem := rfl
@[simp] theorem zeroFill_draws (s : State) : (zeroFill s).draws = s.draws := rfl
@[simp] theorem zeroFill_agent (s : State) : (zeroFill s).agent = s.agent := rfl
@[simp] theorem zeroFill_trace (s : State) : (zeroFill s).trace = s.trace := rfl

@[simp] theorem discardSnapshot_params (s : State) : (discardSnapshot s).params = s.params := rfl
@[simp] theorem discardSnapshot_table (s : State) : (discardSnapshot s).table = s.table := rfl
@[simp] theorem discardSnapshot_initialized (s : State) : (discardSnapshot s).initialized = s.initialized := rfl
@[simp] theorem discardSnapshot_suspended (s : State) : (discardSnapshot s).suspended = false := rfl
@[simp] theorem discardSnapshot_active (s : State) : (discardSnapshot s).active = s.active := rfl
@[simp] theorem discardSnapshot_busy (s : State) : (discardSnapshot s).busy = s.busy := rfl
@[simp] theorem discardSnapshot_irq (s : State) : (discardSnapshot s).irq = s.irq := rfl
@[simp] theorem discardSnapshot_ctxPin (s : State) :
    (discardSnapshot s).ctxPin = s.ctxPin.map (fun e => (e.1, { e.2 with valid := false })) := rfl
@[simp] theorem discardSnapshot_ctxComm (s : State) :
    (discardSnapshot s).ctxComm = s.ctxComm.map (fun x => { x with valid := false }) := rfl
@[simp] theorem discardSnapshot_events (s : State) : (discardSnapshot s).events = s.events := rfl
@[simp] theorem discardSnapshot_cmd (s : State) : (discardSnapshot s).cmd = s.cmd := rfl
@[simp] theorem discardSnapshot_opnd0 (s : State) : (discardSnapshot s).opnd0 = s.opnd0 := rfl
@[simp] theorem discardSnapshot_opnd1 (s : State) : (discardSnapshot s).opnd1 = s.opnd1 := rfl
@[simp] theorem discardSnapshot_opnd2 (s : State) : (discardSnapshot s).opnd2 = s.opnd2 := rfl
@[simp] theorem discardSnapshot_respCode (s : State) : (discardSnapshot s).respCode = s.respCode := rfl
@[simp] theorem discardSnapshot_respValue (s : State) : (discardSnapshot s).respValue = s.respValue := rfl
@[simp] theorem discardSnapshot_handed (s : State) : (discardSnapshot s).handed = s.handed := rfl
@[simp] theorem discardSnapshot_queue (s : State) : (discardSnapshot s).queue = s.queue := rfl
@[simp] theorem discardSnapshot_mem (s : State) : (discardSnapshot s).mem = s.mem := rfl
@[simp] theorem discardSnapshot_draws (s : State) : (discardSnapshot s).draws = s.draws := rfl
@[simp] theorem discardSnapshot_agent (s : State) : (discardSnapshot s).agent = s.agent := rfl
@[simp] theorem discardSnapshot_trace (s : State) : (discardSnapshot s).trace = s.trace := rfl

end Sys2Proof.Machine
end

