-- ==== Sys2Proof/Laws/Ops.lean ====
section
/-! SUPPORT. One lemma for each shared operation that says what it can do, and the rules for sequencing them. -/

namespace Sys2Proof.Machine

variable {α β : Type}

/-! ## Sequencing -/

theorem andThen_eq_next {r : Run α} {k : α → State → Host.Outcome β Fault Refusal} {t : β}
    (h : r.andThen k = .next t) : ∃ v s, r = .next (v, s) ∧ k v s = .next t := by
  unfold Run.andThen at h
  split at h
  · exact ⟨_, _, rfl, h⟩
  · cases h
  · cases h

theorem thenState_eq_next {r : Out} {k : State → Out} {t : State} (h : thenState r k = .next t) :
    ∃ s, r = .next s ∧ k s = .next t := by
  unfold thenState at h
  split at h
  · exact ⟨_, rfl, h⟩
  · cases h
  · cases h

@[simp] theorem andThen_next (v : α) (s : State) (k : α → State → Host.Outcome β Fault Refusal) :
    Run.andThen (.next (v, s)) k = k v s := rfl

@[simp] theorem thenState_next (s : State) (k : State → Out) : thenState (.next s) k = k s := rfl

@[simp] theorem forEach_nil (f : α → State → Out) (s : State) : forEach [] f s = .next s := rfl

@[simp] theorem forEach_cons (x : α) (rest : List α) (f : α → State → Out) (s : State) :
    forEach (x :: rest) f s = thenState (f x s) (forEach rest f) := rfl

/-- A loop keeps what each round keeps. -/
theorem forEach_keeps (R : State → State → Prop) (refl : ∀ s, R s s) (trans : ∀ {a b c}, R a b → R b c → R a c)
    (f : α → State → Out) (xs : List α) (hf : ∀ x ∈ xs, ∀ {s t}, f x s = .next t → R s t) {s t : State}
    (h : forEach xs f s = .next t) : R s t := by
  induction xs generalizing s with
  | nil => cases h; exact refl _
  | cons x rest ih =>
    obtain ⟨u, hu, hk⟩ := thenState_eq_next h
    exact trans (hf x (List.mem_cons_self ..) hu) (ih (fun y hy => hf y (List.mem_cons_of_mem _ hy)) hk)

/-- A loop whose every round completes from states with `P`, keeping `P`, completes and keeps `P`. -/
theorem forEach_completes (P : State → Prop) (f : α → State → Out) (xs : List α)
    (hf : ∀ x ∈ xs, ∀ s, P s → ∃ t, f x s = .next t ∧ P t) (s : State) (h : P s) :
    ∃ t, forEach xs f s = .next t ∧ P t := by
  induction xs generalizing s with
  | nil => exact ⟨s, rfl, h⟩
  | cons x rest ih =>
    obtain ⟨u, hu, hP⟩ := hf x (List.mem_cons_self ..) s h
    obtain ⟨t, ht, hPt⟩ := ih (fun y hy => hf y (List.mem_cons_of_mem _ hy)) u hP
    exact ⟨t, by simp [hu, ht], hPt⟩

/-! ## What the bus and the register agent leave alone -/

theorem sameBlock_refl (s : State) : sameBlock s s := rfl

theorem sameBlock_trans {a b c : State} (h : sameBlock a b) (h' : sameBlock b c) : sameBlock a c := by
  unfold sameBlock at *
  rw [h', h]

theorem sameBlock_params {s t : State} (h : sameBlock s t) : t.params = s.params := by rw [h]
theorem sameBlock_table {s t : State} (h : sameBlock s t) : t.table = s.table := by rw [h]
theorem sameBlock_initialized {s t : State} (h : sameBlock s t) : t.initialized = s.initialized :=
  by rw [h]
theorem sameBlock_suspended {s t : State} (h : sameBlock s t) : t.suspended = s.suspended := by rw [h]
theorem sameBlock_active {s t : State} (h : sameBlock s t) : t.active = s.active := by rw [h]
theorem sameBlock_busy {s t : State} (h : sameBlock s t) : t.busy = s.busy := by rw [h]
theorem sameBlock_irq {s t : State} (h : sameBlock s t) : t.irq = s.irq := by rw [h]
theorem sameBlock_ctxPin {s t : State} (h : sameBlock s t) : t.ctxPin = s.ctxPin := by rw [h]
theorem sameBlock_ctxComm {s t : State} (h : sameBlock s t) : t.ctxComm = s.ctxComm := by rw [h]
theorem sameBlock_events {s t : State} (h : sameBlock s t) : t.events = s.events := by rw [h]
theorem sameBlock_respCode {s t : State} (h : sameBlock s t) : t.respCode = s.respCode := by rw [h]
theorem sameBlock_respValue {s t : State} (h : sameBlock s t) : t.respValue = s.respValue := by rw [h]
theorem sameBlock_handed {s t : State} (h : sameBlock s t) : t.handed = s.handed := by rw [h]

theorem sameBlock_isActive {s t : State} (h : sameBlock s t) (c : Nat) : isActive t c = isActive s c := by
  simp only [isActive, sameBlock_active h]

theorem sameBlock_irqOf {s t : State} (h : sameBlock s t) (p : Nat) : irqOf t p = irqOf s p := by
  simp only [irqOf, sameBlock_irq h]

/-- What one register-agent or submitter step can change: the register space, kept canonical, and the gate's queue. -/
theorem applyAgent_spec (x : AgentStep) (s : State) :
    (∃ m q, applyAgent x s = { s with mem := m, queue := q }) ∧ (s.mem.wf = true → (applyAgent x s).mem.wf = true) ∧
      ∃ q, (applyAgent x s).queue = s.queue ++ q := by
  have keep : (∃ m q, s = { s with mem := m, queue := q }) ∧ (s.mem.wf = true → s.mem.wf = true) ∧
      ∃ q, s.queue = s.queue ++ q := ⟨⟨_, _, rfl⟩, id, [], by simp⟩
  have put (a : Nat) (v : Word) : (∃ m q, setReg a v s = { s with mem := m, queue := q }) ∧
      (s.mem.wf = true → (setReg a v s).mem.wf = true) ∧ ∃ q, (setReg a v s).queue = s.queue ++ q :=
    ⟨⟨_, _, rfl⟩, wf_writeWord _ _ _, [], by simp⟩
  have push (sub : Submission) : (∃ m q, enqueue sub s = { s with mem := m, queue := q }) ∧
      (s.mem.wf = true → (enqueue sub s).mem.wf = true) ∧ ∃ q, (enqueue sub s).queue = s.queue ++ q :=
    ⟨⟨_, _, rfl⟩, id, [sub], rfl⟩
  cases x with
  | powerOn a v => unfold applyAgent; dsimp only; split; exacts [put _ _, keep]
  | pending pin bits => unfold applyAgent; dsimp only; split; exacts [put _ _, keep]
  | railOff pin kind v =>
    unfold applyAgent; dsimp only; split
    · split; exacts [put _ _, keep]
    · exact keep
  | firmware pin kind v =>
    unfold applyAgent; dsimp only; split
    · split; exacts [put _ _, keep]
    · exact keep
  | interruptLine => exact push _
  | submit sub => exact push _

/-- What a batch of steps can change. -/
theorem applyAll_spec (xs : List AgentStep) (s : State) :
    (∃ m q, applyAll xs s = { s with mem := m, queue := q }) ∧ (s.mem.wf = true → (applyAll xs s).mem.wf = true) ∧
      ∃ q, (applyAll xs s).queue = s.queue ++ q := by
  induction xs generalizing s with
  | nil => exact ⟨⟨_, _, rfl⟩, id, [], by simp [applyAll]⟩
  | cons x rest ih =>
    obtain ⟨⟨m, q, h1⟩, h2, q1, h3⟩ := applyAgent_spec x s
    obtain ⟨⟨m', q', h1'⟩, h2', q1', h3'⟩ := ih (applyAgent x s)
    refine ⟨⟨m', q', ?_⟩, fun h => h2' (h2 h), q1 ++ q1', ?_⟩
    · show applyAll rest (applyAgent x s) = _
      rw [h1', h1]
    · show (applyAll rest (applyAgent x s)).queue = _
      rw [h3', h3, List.append_assoc]

/-- What happens between two micro-steps: only the register space (kept canonical), the queue (added to) and the coming
steps can change. -/
theorem agentTurn_spec (s : State) :
    (∃ m q a, agentTurn s = { s with mem := m, queue := q, agent := a }) ∧
      (s.mem.wf = true → (agentTurn s).mem.wf = true) ∧ ∃ q, (agentTurn s).queue = s.queue ++ q := by
  unfold agentTurn
  split
  · exact ⟨⟨_, _, _, rfl⟩, id, [], by simp⟩
  · rename_i batch rest _
    obtain ⟨⟨m, q, h1⟩, h2, h3⟩ := applyAll_spec batch { s with agent := rest }
    exact ⟨⟨m, q, rest, h1⟩, h2, h3⟩

theorem agentTurn_quiet (s : State) (h : Quiet s) : agentTurn s = s := by
  unfold agentTurn; rw [h]

theorem agentTurn_sameBlock (s : State) : sameBlock s (agentTurn s) := by
  obtain ⟨⟨m, q, a, h⟩, _⟩ := agentTurn_spec s
  unfold sameBlock; rw [h]

theorem agentTurn_trace (s : State) : (agentTurn s).trace = s.trace := by
  obtain ⟨⟨m, q, a, h⟩, _⟩ := agentTurn_spec s; rw [h]

theorem agentTurn_draws (s : State) : (agentTurn s).draws = s.draws := by
  obtain ⟨⟨m, q, a, h⟩, _⟩ := agentTurn_spec s; rw [h]

theorem agentTurn_wf (s : State) (h : s.mem.wf = true) : (agentTurn s).mem.wf = true := (agentTurn_spec s).2.1 h

/-! ## The bus -/

/-- A piece of a command that uses the bus only: block state is as before, the register space stays canonical, and the
micro-steps made are added to the trace. -/
def busOnly (s t : State) : Prop :=
  sameBlock s t ∧ (s.mem.wf = true → t.mem.wf = true) ∧ ∃ ms, t.trace = s.trace ++ ms

theorem busOnly_refl (s : State) : busOnly s s := ⟨rfl, id, [], by simp⟩

theorem busOnly_trans {a b c : State} (h : busOnly a b) (h' : busOnly b c) : busOnly a c := by
  obtain ⟨ms, hm⟩ := h.2.2
  obtain ⟨ms', hm'⟩ := h'.2.2
  exact ⟨sameBlock_trans h.1 h'.1, fun x => h'.2.1 (h.2.1 x), ms ++ ms', by rw [hm', hm, List.append_assoc]⟩

theorem agentTurn_busOnly (s : State) : busOnly s (agentTurn s) :=
  ⟨agentTurn_sameBlock s, agentTurn_wf s, [], by simp [agentTurn_trace]⟩

theorem logStep_busOnly (m : MicroStep) (s : State) : busOnly s (logStep m s) := ⟨rfl, id, [m], rfl⟩

/-- The three effects of a register write (R68). -/
theorem regWrite_cases (a : Nat) (v : Word) (s : State) :
    (isStatusReg s.table (fun _ => true) a = true ∧ regWrite a v s = setReg a (s.mem.readWord a &&& ~~~ v) s) ∨
    (isStatusReg s.table (fun _ => true) a = false ∧ isLockedPadcfg s a = true ∧
      regWrite a v s = if Config.lockedWriteTakes s.draws then setReg a v { s with draws := s.draws + 1 }
        else { s with draws := s.draws + 1 }) ∨
    (plainReg s a ∧ regWrite a v s = setReg a v s) := by
  unfold regWrite
  split
  · rename_i h; exact .inl ⟨h, rfl⟩
  · rename_i h
    have h : isStatusReg s.table (fun _ => true) a = false := by simpa using h
    split
    · rename_i h'; exact .inr (.inl ⟨h, h', rfl⟩)
    · rename_i h'
      exact .inr (.inr ⟨⟨h, by simpa using h'⟩, rfl⟩)

theorem regWrite_busOnly (a : Nat) (v : Word) (s : State) : busOnly s (regWrite a v s) := by
  rcases regWrite_cases a v s with ⟨_, h⟩ | ⟨_, _, h⟩ | ⟨_, h⟩
  · rw [h]; exact ⟨rfl, wf_writeWord _ _ _, [], by simp⟩
  · rw [h]; split
    · exact ⟨rfl, wf_writeWord _ _ _, [], by simp⟩
    · exact ⟨rfl, id, [], by simp⟩
  · rw [h]; exact ⟨rfl, wf_writeWord _ _ _, [], by simp⟩

/-- A register write leaves every byte outside the register. -/
theorem regWrite_frame (a : Nat) (v : Word) (s : State) (q : Nat) (hq : q < a ∨ a + 4 ≤ q) :
    (regWrite a v s).mem.readByte q = s.mem.readByte q := by
  rcases regWrite_cases a v s with ⟨_, h⟩ | ⟨_, _, h⟩ | ⟨_, h⟩ <;> rw [h]
  · exact readByte_writeWord_outside _ _ _ _ hq
  · split
    · exact readByte_writeWord_outside _ _ _ _ hq
    · rfl
  · exact readByte_writeWord_outside _ _ _ _ hq

/-- A read on the bus answers the register as the register agent's turn leaves it (R64, R67). -/
theorem memRead_onBus (a : Nat) (s : State) (h : onBus a) :
    memRead a s =
      .next ((agentTurn s).mem.readWord a, logStep (.read a ((agentTurn s).mem.readWord a)) (agentTurn s)) := by
  unfold memRead
  rw [if_neg (by have := h.1; omega), if_neg (by have := h.2; omega)]

/-- A write on the bus has the effect of R68 after the register agent's turn. -/
theorem memWrite_onBus (a : Nat) (v : Word) (s : State) (h : onBus a) :
    memWrite a v s = .next (logStep (.write a v) (regWrite a v (agentTurn s))) := by
  unfold memWrite
  rw [if_neg (by have := h.1; omega), if_neg (by have := h.2; omega)]

theorem memRead_eq_next {a : Nat} {s t : State} {v : Word} (h : memRead a s = .next (v, t)) :
    onBus a ∧ v = (agentTurn s).mem.readWord a ∧ t = logStep (.read a v) (agentTurn s) := by
  unfold memRead at h
  split at h
  · cases h
  · split at h
    · cases h
    · cases h; exact ⟨⟨by omega, by omega⟩, rfl, rfl⟩

theorem memWrite_eq_next {a : Nat} {v : Word} {s t : State} (h : memWrite a v s = .next t) :
    onBus a ∧ t = logStep (.write a v) (regWrite a v (agentTurn s)) := by
  unfold memWrite at h
  split at h
  · cases h
  · split at h
    · cases h
    · cases h; exact ⟨⟨by omega, by omega⟩, rfl⟩

theorem memRead_busOnly {a : Nat} {s t : State} {v : Word} (h : memRead a s = .next (v, t)) : busOnly s t := by
  obtain ⟨_, _, rfl⟩ := memRead_eq_next h
  exact busOnly_trans (agentTurn_busOnly s) (logStep_busOnly _ _)

theorem memWrite_busOnly {a : Nat} {v : Word} {s t : State} (h : memWrite a v s = .next t) : busOnly s t := by
  obtain ⟨_, rfl⟩ := memWrite_eq_next h
  exact busOnly_trans (agentTurn_busOnly s) (busOnly_trans (regWrite_busOnly _ _ _) (logStep_busOnly _ _))

theorem settle_busOnly (s : State) : busOnly s (settle s) :=
  busOnly_trans (agentTurn_busOnly s) (logStep_busOnly _ _)

/-! ## The guard -/

theorem hostBit_busOnly {loc : Loc} {pin : Nat} {s t : State} {b : Bool} (h : hostBit loc pin s = .next (b, t)) :
    busOnly s t := by
  unfold hostBit at h
  split at h
  · cases h; exact busOnly_refl _
  · obtain ⟨v, u, hu, hk⟩ := andThen_eq_next h
    cases hk; exact memRead_busOnly hu

theorem acpi_busOnly {loc : Loc} {pin : Nat} {s t : State} {b : Bool} (h : acpi loc pin s = .next (b, t)) :
    busOnly s t := by
  obtain ⟨v, u, hu, hk⟩ := andThen_eq_next h
  cases hk; exact memRead_busOnly hu

theorem lockState_busOnly {loc : Loc} {pin : Nat} {s t : State} {b : LockState}
    (h : lockState loc pin s = .next (b, t)) : busOnly s t := by
  unfold lockState at h
  split at h
  · cases h; exact busOnly_refl _
  · obtain ⟨v, u, hu, hk⟩ := andThen_eq_next h
    cases hk; exact memRead_busOnly hu

theorem guard_busOnly {loc : Loc} {pin : Nat} {s t : State} {v : Verdict} (h : guard loc pin s = .next (v, t)) :
    busOnly s t := by
  obtain ⟨b, s1, h1, hk⟩ := andThen_eq_next h
  split at hk
  · cases hk; exact hostBit_busOnly h1
  · obtain ⟨f, s2, h2, hk⟩ := andThen_eq_next hk
    split at hk
    · cases hk; exact busOnly_trans (hostBit_busOnly h1) (acpi_busOnly h2)
    · obtain ⟨l, s3, h3, hk⟩ := andThen_eq_next hk
      cases hk
      exact busOnly_trans (hostBit_busOnly h1) (busOnly_trans (acpi_busOnly h2) (lockState_busOnly h3))

theorem differsFromDefault_busOnly {loc : Loc} {pin : Nat} {ks : List Nat} {s t : State} {b : Bool}
    (h : differsFromDefault loc pin ks s = .next (b, t)) : busOnly s t := by
  induction ks generalizing s with
  | nil => cases h; exact busOnly_refl _
  | cons k rest ih =>
    obtain ⟨v, u, hu, hk⟩ := andThen_eq_next h
    split at hk
    · cases hk; exact memRead_busOnly hu
    · exact busOnly_trans (memRead_busOnly hu) (ih hk)

theorem saveTest_busOnly {loc : Loc} {pin : Nat} {s t : State} {b : Bool} (h : saveTest loc pin s = .next (b, t)) :
    busOnly s t := by
  obtain ⟨b, s1, h1, hk⟩ := andThen_eq_next h
  split at hk
  · cases hk; exact hostBit_busOnly h1
  · obtain ⟨l, s2, h2, hk⟩ := andThen_eq_next hk
    have h12 := busOnly_trans (hostBit_busOnly h1) (lockState_busOnly h2)
    split at hk
    · cases hk; exact h12
    · exact busOnly_trans h12 (differsFromDefault_busOnly hk)

theorem readPadcfgs_busOnly {loc : Loc} {pin : Nat} {s t : State} {x : PinContext}
    (h : readPadcfgs loc pin s = .next (x, t)) : busOnly s t := by
  obtain ⟨v0, s1, h1, hk⟩ := andThen_eq_next h
  obtain ⟨v1, s2, h2, hk⟩ := andThen_eq_next hk
  obtain ⟨v2, s3, h3, hk⟩ := andThen_eq_next hk
  cases hk
  exact busOnly_trans (memRead_busOnly h1) (busOnly_trans (memRead_busOnly h2) (memRead_busOnly h3))

/-- The guard completes where the registers it may read are on the bus. -/
theorem guard_completes (loc : Loc) (pin : Nat) (s : State) (h : guardOnBus s.params loc pin) :
    ∃ v t, guard loc pin s = .next (v, t) := by
  obtain ⟨hh, ha, hl⟩ := h
  have host : ∃ b t, hostBit loc pin s = .next (b, t) ∧ t.params = s.params := by
    unfold hostBit
    split
    · exact ⟨_, _, rfl, rfl⟩
    · rename_i h0
      rw [memRead_onBus _ _ (hh h0)]
      exact ⟨_, _, rfl, (logStep_params _ _).trans (sameBlock_params (agentTurn_sameBlock s))⟩
  obtain ⟨b, s1, h1, hp⟩ := host
  unfold guard
  rw [h1, andThen_next]
  split
  · exact ⟨_, _, rfl⟩
  · unfold acpi
    rw [hp, memRead_onBus _ _ ha, andThen_next, andThen_next]
    split
    · exact ⟨_, _, rfl⟩
    · unfold lockState
      split
      · exact ⟨_, _, rfl⟩
      · rename_i h0
        rw [memRead_onBus _ _ (hl h0)]
        exact ⟨_, _, rfl⟩

/-! ## The checks -/

@[simp] theorem whenInit_true (s : State) (k : Out) (h : s.initialized = true) : whenInit s k = k := by
  simp [whenInit, h]

@[simp] theorem whenInit_false (s : State) (k : Out) (h : s.initialized = false) :
    whenInit s k = .next (raise .notInitialized s) := by
  simp [whenInit, h]

theorem whenResolved_some (e : ResultCode) (pin : Nat) (s : State) (k : Loc → Out) (loc : Loc)
    (h : resolve s.table pin = some loc) : whenResolved e pin s k = k loc := by
  simp [whenResolved, h]

theorem whenResolved_none (e : ResultCode) (pin : Nat) (s : State) (k : Loc → Out) (h : resolve s.table pin = none) :
    whenResolved e pin s k = .next (raise e s) := by
  simp [whenResolved, h]

theorem whenActive_true (i : Instr) (pin : Nat) (loc : Loc) (s : State) (k : Out) (h : isActive s loc.c = true) :
    whenActive i pin loc s k = k := by
  simp [whenActive, h]

theorem whenActive_false (i : Instr) (pin : Nat) (loc : Loc) (s : State) (k : Out) (h : isActive s loc.c = false) :
    whenActive i pin loc s k =
      .next (raise .inactiveCommunity (emit (.defectSignal i.opcode.bits pin loc.c) s)) := by
  simp [whenActive, h]

end Sys2Proof.Machine
end

