-- ==== Sys2Proof/Laws/Resolve.lean ====
section
/-! SUPPORT. What `resolve` answers, and what the table checks of spec/45_lifecycle.md R203 buy: every pin of a community has
a pad group, and every register lies on the bus. -/

namespace Sys2Proof.Machine

/-! ## Positions -/

theorem mem_indexedFrom {α : Type} {xs : List α} {n c : Nat} {x : α} :
    (c, x) ∈ indexedFrom n xs ↔ ∃ i, c = n + i ∧ xs[i]? = some x := by
  induction xs generalizing n with
  | nil => simp [indexedFrom]
  | cons y rest ih =>
    rw [indexedFrom, List.mem_cons, ih]
    constructor
    · rintro (h | ⟨i, rfl, h⟩)
      · cases h; exact ⟨0, rfl, rfl⟩
      · exact ⟨i + 1, by omega, h⟩
    · rintro ⟨i, rfl, h⟩
      cases i with
      | zero => left; simp at h; simp [h]
      | succ i => right; exact ⟨i, by omega, h⟩

theorem mem_indexedFrom_zero {α : Type} {xs : List α} {c : Nat} {x : α} :
    (c, x) ∈ indexedFrom 0 xs ↔ xs[c]? = some x := by
  rw [mem_indexedFrom]
  constructor
  · rintro ⟨i, rfl, h⟩; simpa using h
  · intro h; exact ⟨c, by omega, h⟩

/-! ## The walk -/

/-- Where `resolve` finds a pin: a community whose range holds it. -/
theorem resolveFrom_some {Cs : List Community} {n p : Nat} {loc : Loc} (h : resolveFrom Cs n p = some loc) :
    ∃ i C, Cs[i]? = some C ∧ C.pinBase ≤ p ∧ p < C.pinBase + C.pinsTotal ∧ resolveIn C (n + i) p = some loc := by
  induction Cs generalizing n with
  | nil => simp [resolveFrom] at h
  | cons C rest ih =>
    unfold resolveFrom at h
    split at h
    · rename_i hr; exact ⟨0, C, rfl, hr.1, hr.2, h⟩
    · obtain ⟨i, D, h1, h2, h3, h4⟩ := ih h
      exact ⟨i + 1, D, h1, h2, h3, by rw [← h4]; congr 1; omega⟩

theorem findGroup_some {gs : List PadGroup} {n p g : Nat} {G : PadGroup} (h : findGroup gs n p = some (g, G)) :
    ∃ i, g = n + i ∧ gs[i]? = some G ∧ G.basePin ≤ p ∧ p < G.basePin + G.size := by
  induction gs generalizing n with
  | nil => simp [findGroup] at h
  | cons H rest ih =>
    unfold findGroup at h
    split at h
    · rename_i hr; cases h; exact ⟨0, rfl, rfl, hr.1, hr.2⟩
    · obtain ⟨i, h1, h2, h3⟩ := ih h
      exact ⟨i + 1, by omega, h2, h3⟩

theorem resolveIn_com {C : Community} {c p : Nat} {loc : Loc} (h : resolveIn C c p = some loc) :
    loc.com = C ∧ loc.c = c := by
  unfold resolveIn at h
  split at h
  · cases hf : findGroup _ 0 p with
    | none => rw [hf] at h; cases h
    | some x => rw [hf] at h; cases h; exact ⟨rfl, rfl⟩
  · cases h; exact ⟨rfl, rfl⟩

/-- The place `resolve` answers: the community at its index, whose range holds the pin. -/
theorem resolve_some {T : Table} {p : Nat} {loc : Loc} (h : resolve T p = some loc) :
    T.communities[loc.c]? = some loc.com ∧ loc.com.pinBase ≤ p ∧ p < loc.com.pinBase + loc.com.pinsTotal ∧
      resolveIn loc.com loc.c p = some loc := by
  obtain ⟨i, C, h1, h2, h3, h4⟩ := resolveFrom_some h
  obtain ⟨rfl, hc⟩ := resolveIn_com h4
  have : loc.c = i := by omega
  subst this
  exact ⟨h1, h2, h3, by simpa using h4⟩

theorem resolve_com_mem {T : Table} {p : Nat} {loc : Loc} (h : resolve T p = some loc) : loc.com ∈ T.communities :=
  List.mem_of_getElem? (resolve_some h).1

theorem mem_communityPins {C : Community} {p : Nat} :
    p ∈ communityPins C ↔ C.pinBase ≤ p ∧ p < C.pinBase + C.pinsTotal := by
  unfold communityPins
  rw [List.mem_map]
  constructor
  · rintro ⟨i, hi, rfl⟩; rw [List.mem_range] at hi; omega
  · rintro ⟨h1, h2⟩; exact ⟨p - C.pinBase, List.mem_range.2 (by omega), by omega⟩

theorem mem_allPins {T : Table} {p : Nat} :
    p ∈ allPins T ↔ ∃ C ∈ T.communities, C.pinBase ≤ p ∧ p < C.pinBase + C.pinsTotal := by
  simp only [allPins, List.mem_flatMap, mem_communityPins]

theorem resolve_mem_allPins {T : Table} {p : Nat} {loc : Loc} (h : resolve T p = some loc) : p ∈ allPins T :=
  mem_allPins.2 ⟨loc.com, resolve_com_mem h, (resolve_some h).2.1, (resolve_some h).2.2.1⟩

/-! ## What the table checks say of one community -/

/-- The checks W3 to W6, W8 and W9 of one community of an accepted table. -/
theorem tableWf_community {P : Params} {T : Table} (h : tableWf P T = true) {C : Community} (hC : C ∈ T.communities) :
    1 ≤ C.pinsTotal ∧
    (∀ gs, C.padGroups = some gs → gs ≠ [] ∧ (∀ G ∈ gs, 1 ≤ G.size ∧ G.size ≤ 32) ∧
      groupsChain gs C.pinBase (pinEnd C) = true ∧ ∀ G ∈ gs, 0 ≤ G.padownIndex) ∧
    (C.padGroups = none → 1 ≤ C.defaultPadGroupSize ∧ C.defaultPadGroupSize ≤ 32) ∧
    C.mappedBase + C.padcfgOffset + (C.pinsTotal - 1) * P.padcfgStride + 8 + 3 < 2 ^ addrWidth ∧
    (∀ o ∈ scopedOffsets C, o = 0 ∨ ∀ G ∈ groupsOf C, groupReg C G o + 3 < 2 ^ addrWidth) ∧
    C.mappedBase % 4 = 0 ∧ C.padcfgOffset % 4 = 0 ∧ ∀ o ∈ scopedOffsets C, o % 4 = 0 := by
  simp only [tableWf, Bool.and_eq_true] at h
  obtain ⟨⟨⟨⟨⟨⟨⟨⟨-, -⟩, h3⟩, h4⟩, h5⟩, h6⟩, -⟩, h8⟩, h9⟩ := h
  have w3 := List.all_eq_true.1 h3 C hC
  have w4 := List.all_eq_true.1 h4 C hC
  have w5 := List.all_eq_true.1 h5 C hC
  have w6 := List.all_eq_true.1 h6 C hC
  have w8 := List.all_eq_true.1 h8 C hC
  have w9 := List.all_eq_true.1 h9 C hC
  simp only [Bool.and_eq_true, decide_eq_true_eq, List.all_eq_true, Bool.or_eq_true, beq_iff_eq] at w3 w8 w9
  refine ⟨w3, fun gs hg => ?_, fun hg => ?_, w8.1, w8.2, w9.1.1, w9.1.2, w9.2⟩
  · rw [hg] at w4 w5
    simp only [Bool.and_eq_true, decide_eq_true_eq, List.all_eq_true, Bool.not_eq_true', List.isEmpty_eq_false_iff] at w4 w5
    exact ⟨w5.1.1, w4, w5.1.2, w5.2⟩
  · rw [hg] at w6
    simpa only [Bool.and_eq_true, decide_eq_true_eq] using w6

/-- A chain of pad groups that covers a range holds every pin of the range. -/
theorem findGroup_of_chain {gs : List PadGroup} {a stop n p : Nat} (hc : groupsChain gs a stop = true)
    (h1 : a ≤ p) (h2 : p < stop) : ∃ x, findGroup gs n p = some x := by
  induction gs generalizing a n with
  | nil => simp [groupsChain] at hc; omega
  | cons G rest ih =>
    simp only [groupsChain, Bool.and_eq_true, beq_iff_eq] at hc
    unfold findGroup
    split
    · exact ⟨_, rfl⟩
    · exact ih hc.2 (by omega)

/-- Every pin of a community of an accepted table has its place: its pad group is the one at its index and holds it (R204). -/
theorem resolveIn_wf {P : Params} {T : Table} (h : tableWf P T = true) {C : Community} (hC : C ∈ T.communities) {c p : Nat}
    (h1 : C.pinBase ≤ p) (h2 : p < C.pinBase + C.pinsTotal) :
    ∃ loc, resolveIn C c p = some loc ∧ loc.c = c ∧ loc.com = C ∧ (groupsOf C)[loc.g]? = some loc.grp ∧
      loc.grp.basePin ≤ p ∧ p < loc.grp.basePin + loc.grp.size := by
  obtain ⟨-, hs, hn, -⟩ := tableWf_community h hC
  unfold resolveIn groupsOf
  cases hg : C.padGroups with
  | some gs =>
    obtain ⟨-, -, hch, -⟩ := hs gs hg
    obtain ⟨⟨g, G⟩, hf⟩ := findGroup_of_chain (n := 0) hch h1 h2
    obtain ⟨i, rfl, hi, hb⟩ := findGroup_some hf
    exact ⟨⟨c, 0 + i, C, G⟩, by simp [hf], rfl, rfl, by simpa using hi, hb.1, hb.2⟩
  | none =>
    obtain ⟨hd, -⟩ := hn hg
    refine ⟨_, rfl, rfl, rfl, ?_, ?_, ?_⟩
    · have hlt : (p - C.pinBase) / C.defaultPadGroupSize < implicitCount C := by
        unfold implicitCount
        rw [Nat.div_lt_iff_lt_mul hd]
        have e := Nat.div_add_mod (C.pinsTotal + C.defaultPadGroupSize - 1) C.defaultPadGroupSize
        have l := Nat.mod_lt (C.pinsTotal + C.defaultPadGroupSize - 1) hd
        rw [Nat.mul_comm] at e
        omega
      simp [hlt]
    · have e := Nat.div_mul_le_self (p - C.pinBase) C.defaultPadGroupSize
      simp only [implicitGroup]; omega
    · have e := Nat.div_add_mod (p - C.pinBase) C.defaultPadGroupSize
      have l := Nat.mod_lt (p - C.pinBase) hd
      rw [Nat.mul_comm] at e
      simp only [implicitGroup]; omega

/-- In an accepted table, a place that `resolve` answers selects its pad group, which holds the pin. -/
theorem resolve_group {P : Params} {T : Table} (hw : tableWf P T = true) {p : Nat} {loc : Loc}
    (h : resolve T p = some loc) :
    (groupsOf loc.com)[loc.g]? = some loc.grp ∧ loc.grp.basePin ≤ p ∧ p < loc.grp.basePin + loc.grp.size := by
  obtain ⟨-, h2, h3, h4⟩ := resolve_some h
  obtain ⟨loc', e, -, -, g1, g2⟩ := resolveIn_wf (c := loc.c) hw (resolve_com_mem h) h2 h3
  rw [h4] at e
  cases e
  exact ⟨g1, g2⟩

theorem resolve_grp_mem {P : Params} {T : Table} (hw : tableWf P T = true) {p : Nat} {loc : Loc}
    (h : resolve T p = some loc) : loc.grp ∈ groupsOf loc.com :=
  List.mem_of_getElem? (resolve_group hw h).1

theorem resolveFrom_exists {P : Params} {T : Table} (hw : tableWf P T = true) {Cs : List Community}
    (hsub : ∀ C ∈ Cs, C ∈ T.communities) {n p : Nat}
    (hp : ∃ C ∈ Cs, C.pinBase ≤ p ∧ p < C.pinBase + C.pinsTotal) : ∃ loc, resolveFrom Cs n p = some loc := by
  induction Cs generalizing n with
  | nil => simp at hp
  | cons C rest ih =>
    unfold resolveFrom
    split
    · rename_i hr
      obtain ⟨loc, h, -⟩ := resolveIn_wf (c := n) hw (hsub C (List.mem_cons_self ..)) hr.1 hr.2
      exact ⟨loc, h⟩
    · rename_i hr
      refine ih (fun D hD => hsub D (List.mem_cons_of_mem _ hD)) ?_
      obtain ⟨D, hD, hd⟩ := hp
      rcases List.mem_cons.1 hD with rfl | hD
      · exact absurd hd hr
      · exact ⟨D, hD, hd⟩

/-- In an accepted table the pins that resolve are the pins of the communities (R205). -/
theorem resolve_isSome_iff {P : Params} {T : Table} (hw : tableWf P T = true) (p : Nat) :
    (∃ loc, resolve T p = some loc) ↔ p ∈ allPins T := by
  constructor
  · rintro ⟨loc, h⟩; exact resolve_mem_allPins h
  · intro h; exact resolveFrom_exists hw (fun _ h => h) (mem_allPins.1 h)

/-! ## Addresses -/

/-- A present register of a pad group lies on the bus (R203 W8, W9). -/
theorem groupReg_onBus {P : Params} {T : Table} (hw : tableWf P T = true) {C : Community} (hC : C ∈ T.communities)
    {G : PadGroup} (hG : G ∈ groupsOf C) {o : Nat} (ho : o ∈ scopedOffsets C) (h0 : o ≠ 0) : onBus (groupReg C G o) := by
  obtain ⟨-, -, -, -, h8, hm, -, h9⟩ := tableWf_community hw hC
  refine ⟨?_, ?_⟩
  · have := h9 o ho
    show (C.mappedBase + o + G.padownIndex.toNat * 4) % 4 = 0
    omega
  · rcases h8 o ho with h | h
    · exact absurd h h0
    · have := h G hG; omega

/-- A pin's padcfg register lies on the bus (R203 W8, W9 with R8). -/
theorem padcfgReg_onBus {P : Params} {T : Table} (hp : paramsWf P = true) (hw : tableWf P T = true) {C : Community}
    (hC : C ∈ T.communities) {p k : Nat} (h1 : C.pinBase ≤ p) (h2 : p < C.pinBase + C.pinsTotal) (hk : k ≤ 2) :
    onBus (padcfgReg P C p k) := by
  obtain ⟨-, -, -, h8, -, hm, ho, -⟩ := tableWf_community hw hC
  have hs : P.padcfgStride % 4 = 0 := by
    simp only [paramsWf, Bool.and_eq_true, beq_iff_eq] at hp
    exact hp.1.2
  have hle : (p - C.pinBase) * P.padcfgStride ≤ (C.pinsTotal - 1) * P.padcfgStride :=
    Nat.mul_le_mul_right _ (by omega)
  have hmod : (p - C.pinBase) * P.padcfgStride % 4 = 0 := by rw [Nat.mul_mod, hs]; simp
  unfold padcfgReg
  exact ⟨by omega, by omega⟩

/-- Every register the guard may read of a resolving pin lies on the bus. -/
theorem guardOnBus_of_resolve {P : Params} {T : Table} (hp : paramsWf P = true) (hw : tableWf P T = true) {p : Nat}
    {loc : Loc} (h : resolve T p = some loc) : guardOnBus P loc p := by
  obtain ⟨-, h2, h3, -⟩ := resolve_some h
  have hC := resolve_com_mem h
  have hG := resolve_grp_mem hw h
  exact ⟨fun h0 => groupReg_onBus hw hC hG (by simp [scopedOffsets]) h0, padcfgReg_onBus hp hw hC h2 h3 (by omega),
    fun h0 => groupReg_onBus hw hC hG (by simp [scopedOffsets]) h0⟩

/-! ## The pins ascend -/

theorem checkW2From_pairwise {Cs : List Community} (hp : ∀ C ∈ Cs, 1 ≤ C.pinsTotal) (h : checkW2From Cs = true) :
    Cs.Pairwise (fun C D => C.pinBase + C.pinsTotal ≤ D.pinBase) := by
  induction Cs with
  | nil => exact List.Pairwise.nil
  | cons C rest ih =>
    simp only [checkW2From, Bool.and_eq_true] at h
    have hr := ih (fun D hD => hp D (List.mem_cons_of_mem _ hD)) h.2
    refine List.Pairwise.cons (fun D hD => ?_) hr
    cases rest with
    | nil => cases hD
    | cons E rest =>
      have hE : C.pinBase + C.pinsTotal ≤ E.pinBase := of_decide_eq_true h.1
      rcases List.mem_cons.1 hD with rfl | hD
      · exact hE
      · have := (List.pairwise_cons.1 hr).1 D hD
        omega

/-- The communities of an accepted table are in ascending order and apart (R203 W2). -/
theorem communities_pairwise {P : Params} {T : Table} (hw : tableWf P T = true) :
    T.communities.Pairwise (fun C D => C.pinBase + C.pinsTotal ≤ D.pinBase) := by
  refine checkW2From_pairwise (fun C hC => (tableWf_community hw hC).1) ?_
  simp only [tableWf, Bool.and_eq_true] at hw
  exact hw.1.1.1.1.1.1.1.2

theorem communityPins_pairwise (C : Community) : (communityPins C).Pairwise (· < ·) := by
  unfold communityPins
  rw [List.pairwise_map]
  exact List.pairwise_lt_range.imp (by omega)

/-- The pins of an accepted table strictly ascend (R205). -/
theorem allPins_pairwise {P : Params} {T : Table} (hw : tableWf P T = true) : (allPins T).Pairwise (· < ·) := by
  unfold allPins
  rw [List.pairwise_flatMap]
  refine ⟨fun C _ => communityPins_pairwise C, (communities_pairwise hw).imp fun {C D} h p hp q hq => ?_⟩
  rw [mem_communityPins] at hp hq
  omega

end Sys2Proof.Machine
end

