-- ==== Sys2Proof/Laws/Quiet.lean ====
section
/-! SUPPORT. What each shared operation answers, exactly, when no register-agent or submitter step is to come (`Quiet`): the
value read from the registers as they stand, and the micro-steps it adds to the trace. -/

namespace Sys2Proof.Machine

/-! ## The bus -/

theorem memRead_quiet {a : Nat} {s : State} (ha : onBus a) (hq : Quiet s) :
    memRead a s = .next (s.mem.readWord a, { s with trace := s.trace ++ [readOf s.mem a] }) := by
  rw [memRead_onBus a s ha, agentTurn_quiet s hq]; rfl

theorem memWrite_quiet {a : Nat} {v : Word} {s : State} (ha : onBus a) (hq : Quiet s) :
    memWrite a v s = .next (logStep (.write a v) (regWrite a v s)) := by
  rw [memWrite_onBus a v s ha, agentTurn_quiet s hq]

/-- What a register write changes: the register space and the count of draws. -/
theorem regWrite_shape (a : Nat) (v : Word) (s : State) :
    regWrite a v s = { s with mem := (regWrite a v s).mem, draws := (regWrite a v s).draws } := by
  rcases regWrite_cases a v s with ⟨_, h⟩ | ⟨_, _, h⟩ | ⟨_, h⟩ <;> rw [h]
  · rfl
  · split <;> rfl
  · rfl

theorem regWrite_plain {a : Nat} {v : Word} {s : State} (h : plainReg s a) : regWrite a v s = setReg a v s := by
  unfold regWrite
  rw [if_neg (by simp [h.1]), if_neg (by simp [h.2])]

theorem regWrite_status {a : Nat} {v : Word} {s : State} (h : isStatusReg s.table (fun _ => true) a = true) :
    regWrite a v s = setReg a (s.mem.readWord a &&& ~~~ v) s := by
  unfold regWrite
  rw [if_pos h]

/-- What a bus write leaves where no agent step is to come: a state that differs in the register space, the draws and the
trace, with every byte outside the register as before. -/
theorem memWrite_quiet_spec {a : Nat} {v : Word} {s : State} (ha : onBus a) (hq : Quiet s) :
    ∃ t, memWrite a v s = .next t ∧
      t = { s with mem := t.mem, draws := t.draws, trace := s.trace ++ [.write a v] } ∧
      (plainReg s a → t.mem.readWord a = v) ∧
      ∀ q, q < a ∨ a + 4 ≤ q → t.mem.readByte q = s.mem.readByte q := by
  refine ⟨_, memWrite_quiet ha hq, ?_, fun h => ?_, fun q h => regWrite_frame a v s q h⟩
  · conv_lhs => rw [logStep, regWrite_shape]
    rfl
  · show (regWrite a v s).mem.readWord a = v
    rw [regWrite_plain h]; exact readWord_writeWord_same _ _ _

/-! ## The guard -/

theorem hostBit_quiet {loc : Loc} {pin : Nat} {s : State} (h : loc.com.hostOwnerOffset ≠ 0 → onBus (hostReg loc))
    (hq : Quiet s) :
    hostBit loc pin s = .next (hostOwned loc pin s.mem, { s with trace := s.trace ++ hostReads loc s.mem }) := by
  unfold hostBit hostOwned hostReads
  by_cases h0 : loc.com.hostOwnerOffset = 0
  · simp [h0]
  · rw [if_neg h0, memRead_quiet (h h0) hq, if_neg h0]
    simp [h0, pinBit, Loc.bit]

theorem acpi_quiet {loc : Loc} {pin : Nat} {s : State} (h : onBus (padcfgReg s.params loc.com pin 0)) (hq : Quiet s) :
    acpi loc pin s = .next (inAcpiMode s.params loc pin s.mem,
      { s with trace := s.trace ++ [readOf s.mem (padcfgReg s.params loc.com pin 0)] }) := by
  unfold acpi
  rw [memRead_quiet h hq]
  rfl

theorem lockState_quiet {loc : Loc} {pin : Nat} {s : State} (h : loc.com.padConfigLockOffset ≠ 0 → onBus (lockReg loc))
    (hq : Quiet s) :
    ∃ l, lockState loc pin s = .next (l, { s with trace := s.trace ++ lockReads loc s.mem }) ∧
      (l = .locked ↔ lockHeld loc pin s.mem = true) := by
  unfold lockState lockHeld lockReads
  by_cases h0 : loc.com.padConfigLockOffset = 0
  · exact ⟨.noLockSupport, by simp [h0], by simp [h0]⟩
  · rw [if_neg h0, memRead_quiet (h h0) hq, if_neg h0]
    refine ⟨_, rfl, ?_⟩
    simp only [pinBit, Loc.bit]
    by_cases hb : (s.mem.readWord (lockReg loc)).getLsbD (pin - loc.grp.basePin) = true
    · simp [h0, hb]
    · simp [hb]

/-- The guard's answer, as the three checks of R126 give it. -/
def verdictOf (P : Params) (loc : Loc) (pin : Nat) (m : Memory) : Verdict :=
  if hostOwned loc pin m = false then .ownershipDenied
  else if inAcpiMode P loc pin m then .ownershipDenied
  else if lockHeld loc pin m then .locked else .pass

theorem verdictOf_pass {P : Params} {loc : Loc} {pin : Nat} {m : Memory} :
    verdictOf P loc pin m = .pass ↔ mayMutate P loc pin m = true := by
  unfold verdictOf mayMutate
  cases hostOwned loc pin m <;> cases inAcpiMode P loc pin m <;> cases lockHeld loc pin m <;> simp

theorem guard_quiet {loc : Loc} {pin : Nat} {s : State} (h : guardOnBus s.params loc pin) (hq : Quiet s) :
    guard loc pin s = .next (verdictOf s.params loc pin s.mem,
      { s with trace := s.trace ++ guardReads s.params loc pin s.mem }) := by
  obtain ⟨hh, ha, hl⟩ := h
  unfold guard verdictOf guardReads
  rw [hostBit_quiet hh hq, andThen_next]
  cases h1 : hostOwned loc pin s.mem
  · simp
  · rw [if_neg (by simp), acpi_quiet (s := { s with trace := s.trace ++ hostReads loc s.mem }) ha hq, andThen_next]
    cases h2 : inAcpiMode s.params loc pin s.mem
    · obtain ⟨l, e, hlk⟩ := lockState_quiet (pin := pin) (s := { s with
        trace := s.trace ++ hostReads loc s.mem ++ [readOf s.mem (padcfgReg s.params loc.com pin 0)] }) hl hq
      rw [if_neg (by simp), e, andThen_next]
      cases h3 : lockHeld loc pin s.mem
      · have : l ≠ .locked := fun h => by have := hlk.1 h; simp [h3] at this
        simp [this]
      · simp [hlk.2 h3]
    · simp

/-- A guarded command goes on where the guard passes. -/
theorem whenGuarded_pass {loc : Loc} {pin : Nat} {s : State} {k : State → Out} (h : guardOnBus s.params loc pin)
    (hq : Quiet s) (hp : mayMutate s.params loc pin s.mem = true) :
    whenGuarded loc pin s k = k { s with trace := s.trace ++ guardReads s.params loc pin s.mem } := by
  unfold whenGuarded
  rw [guard_quiet h hq, andThen_next, verdictOf_pass.2 hp]

/-- A guarded command ends where the guard does not pass. -/
theorem whenGuarded_denied {loc : Loc} {pin : Nat} {s : State} {k : State → Out} (h : guardOnBus s.params loc pin)
    (hq : Quiet s) (hp : mayMutate s.params loc pin s.mem = false) :
    whenGuarded loc pin s k = .next { s with
      respCode := if hostOwned loc pin s.mem && !inAcpiMode s.params loc pin s.mem then 0x03#8 else 0x02#8
      respValue := 0, trace := s.trace ++ guardReads s.params loc pin s.mem } := by
  unfold whenGuarded
  rw [guard_quiet h hq, andThen_next]
  unfold mayMutate at hp
  unfold verdictOf
  cases h1 : hostOwned loc pin s.mem <;> cases h2 : inAcpiMode s.params loc pin s.mem <;>
    cases h3 : lockHeld loc pin s.mem <;> simp_all [raise, respond, resultBits]

/-! ## Which pins are saved -/

/-- Padcfg `k` and on differ from their defaults at some index. -/
theorem differsFromDefault_quiet {loc : Loc} {pin : Nat} {s : State} {ks : List Nat}
    (h : ∀ k ∈ ks, onBus (padcfgReg s.params loc.com pin k)) (hq : Quiet s) :
    differsFromDefault loc pin ks s = .next
      (ks.any (fun k => s.mem.readWord (padcfgReg s.params loc.com pin k) != padcfgDefault s.params pin k),
        { s with trace := s.trace ++ differReads s.params loc pin s.mem ks }) := by
  induction ks generalizing s with
  | nil => simp [differsFromDefault, differReads]
  | cons k rest ih =>
    unfold differsFromDefault differReads
    rw [memRead_quiet (h k (List.mem_cons_self ..)) hq, andThen_next]
    by_cases hd : s.mem.readWord (padcfgReg s.params loc.com pin k) = padcfgDefault s.params pin k
    · rw [if_neg (by simpa using hd),
        ih (s := { s with trace := s.trace ++ [readOf s.mem (padcfgReg s.params loc.com pin k)] })
          (fun j hj => h j (List.mem_cons_of_mem _ hj)) hq]
      simp [hd]
    · rw [if_pos (by simpa using hd)]
      simp [hd]

/-- `save_test` (R182). -/
theorem saveTest_quiet {loc : Loc} {pin : Nat} {s : State} (h : guardOnBus s.params loc pin)
    (h1 : onBus (padcfgReg s.params loc.com pin 1)) (h2 : onBus (padcfgReg s.params loc.com pin 2)) (hq : Quiet s) :
    saveTest loc pin s = .next (wouldSave s.params loc pin s.mem,
      { s with trace := s.trace ++ saveReads s.params loc pin s.mem }) := by
  obtain ⟨hh, h0, hl⟩ := h
  unfold saveTest wouldSave saveReads
  rw [hostBit_quiet hh hq, andThen_next]
  cases e1 : hostOwned loc pin s.mem
  · simp
  · obtain ⟨l, e, hlk⟩ := lockState_quiet (pin := pin)
      (s := { s with trace := s.trace ++ hostReads loc s.mem }) hl hq
    rw [if_neg (by simp), e, andThen_next]
    cases e3 : lockHeld loc pin s.mem
    · have : l ≠ .locked := fun h => by have := hlk.1 h; simp [e3] at this
      rw [if_neg this, differsFromDefault_quiet (s := { s with
        trace := s.trace ++ hostReads loc s.mem ++ lockReads loc s.mem })
        (by intro k hk; simp at hk; rcases hk with rfl | rfl | rfl <;> assumption) hq]
      simp [Bool.or_assoc]
    · simp [hlk.2 e3]

/-- The three snapshot reads of a pin (R183). -/
theorem readPadcfgs_quiet {loc : Loc} {pin : Nat} {s : State} (h0 : onBus (padcfgReg s.params loc.com pin 0))
    (h1 : onBus (padcfgReg s.params loc.com pin 1)) (h2 : onBus (padcfgReg s.params loc.com pin 2)) (hq : Quiet s) :
    readPadcfgs loc pin s = .next (heldPadcfgs s.params loc pin s.mem, { s with trace := s.trace ++
      [readOf s.mem (padcfgReg s.params loc.com pin 0), readOf s.mem (padcfgReg s.params loc.com pin 1),
        readOf s.mem (padcfgReg s.params loc.com pin 2)] }) := by
  unfold readPadcfgs heldPadcfgs
  rw [memRead_quiet h0 hq, andThen_next]
  dsimp only
  rw [memRead_quiet (s := { s with trace := s.trace ++ [readOf s.mem (padcfgReg s.params loc.com pin 0)] }) h1 hq,
    andThen_next]
  dsimp only
  rw [memRead_quiet (s := { s with trace := s.trace ++ [readOf s.mem (padcfgReg s.params loc.com pin 0)] ++
    [readOf s.mem (padcfgReg s.params loc.com pin 1)] }) h2 hq, andThen_next]
  simp

end Sys2Proof.Machine
end

