-- ==== Sys2Proof/Laws/Layout.lean ====
section
/-! SUPPORT. What it buys that no two registers lie at one address (`layoutDistinct`): an address names one register, so a
write has the effect R68 gives that register's kind and leaves every other register. -/

namespace Sys2Proof.Machine

/-! ## Lists without repeats -/

theorem nodup_flatMap_index {α β : Type} {f : α → List β} {l : List α} (h : (l.flatMap f).Nodup) {i j : Nat} {x y : α}
    {a : β} (hi : l[i]? = some x) (hj : l[j]? = some y) (hx : a ∈ f x) (hy : a ∈ f y) : i = j := by
  induction l generalizing i j with
  | nil => simp at hi
  | cons z rest ih =>
    rw [List.flatMap_cons, List.nodup_append] at h
    obtain ⟨-, h2, h3⟩ := h
    cases i with
    | zero =>
      cases j with
      | zero => rfl
      | succ j =>
        simp only [List.getElem?_cons_zero, Option.some.injEq, List.getElem?_cons_succ] at hi hj
        subst hi
        exact absurd rfl (h3 a hx a (List.mem_flatMap.2 ⟨y, List.mem_of_getElem? hj, hy⟩))
    | succ i =>
      cases j with
      | zero =>
        simp only [List.getElem?_cons_zero, Option.some.injEq, List.getElem?_cons_succ] at hi hj
        subst hj
        exact absurd rfl (h3 a hy a (List.mem_flatMap.2 ⟨x, List.mem_of_getElem? hi, hx⟩))
      | succ j => rw [ih h2 hi hj]

theorem nodup_flatMap_at {α β : Type} {f : α → List β} {l : List α} (h : (l.flatMap f).Nodup) {x : α} (hx : x ∈ l) :
    (f x).Nodup := by
  induction l with
  | nil => cases hx
  | cons z rest ih =>
    rw [List.flatMap_cons, List.nodup_append] at h
    rcases List.mem_cons.1 hx with rfl | hx
    · exact h.1
    · exact ih h.2.1 hx

/-! ## One address, one register -/

/-- The registers of one community. -/
def commRegs (P : Params) (C : Community) : List Nat :=
  (groupsOf C).flatMap (groupRegs C) ++ (communityPins C).flatMap (pinRegs P C)

theorem layout_community {P : Params} {T : Table} (hd : layoutDistinct P T) {c c' : Nat} {C C' : Community} {a : Nat}
    (hc : T.communities[c]? = some C) (hc' : T.communities[c']? = some C') (h : a ∈ commRegs P C)
    (h' : a ∈ commRegs P C') : c = c' :=
  nodup_flatMap_index (f := commRegs P) hd hc hc' h h'

theorem layout_nodup {P : Params} {T : Table} (hd : layoutDistinct P T) {C : Community} (hC : C ∈ T.communities) :
    (commRegs P C).Nodup :=
  nodup_flatMap_at (f := commRegs P) hd hC

theorem mem_groupRegs {C : Community} {G : PadGroup} {o : Nat} (ho : o ∈ scopedOffsets C) (h0 : o ≠ 0) :
    groupReg C G o ∈ groupRegs C G :=
  List.mem_map.2 ⟨o, List.mem_filter.2 ⟨ho, by simpa using h0⟩, rfl⟩

theorem groupReg_mem_commRegs (P : Params) {C : Community} {G : PadGroup} {o : Nat} (hG : G ∈ groupsOf C)
    (ho : o ∈ scopedOffsets C) (h0 : o ≠ 0) : groupReg C G o ∈ commRegs P C :=
  List.mem_append_left _ (List.mem_flatMap.2 ⟨G, hG, mem_groupRegs ho h0⟩)

theorem padcfgReg_mem_pinRegs (P : Params) (C : Community) (p : Nat) {k : Nat} (hk : k ≤ 2) :
    padcfgReg P C p k ∈ pinRegs P C p := by
  unfold pinRegs
  rcases (by omega : k = 0 ∨ k = 1 ∨ k = 2) with rfl | rfl | rfl <;> simp

theorem padcfgReg_mem_commRegs {P : Params} {C : Community} {p k : Nat} (hp : p ∈ communityPins C) (hk : k ≤ 2) :
    padcfgReg P C p k ∈ commRegs P C :=
  List.mem_append_right _ (List.mem_flatMap.2 ⟨p, hp, padcfgReg_mem_pinRegs P C p hk⟩)

/-- Equal addresses of two pad groups' registers are the same register: same community, same pad group, same offset. -/
theorem groupReg_inj {P : Params} {T : Table} (hd : layoutDistinct P T) {c c' g g' : Nat} {C C' : Community}
    {G G' : PadGroup} {o o' : Nat} (hc : T.communities[c]? = some C) (hc' : T.communities[c']? = some C')
    (hg : (groupsOf C)[g]? = some G) (hg' : (groupsOf C')[g']? = some G') (ho : o ∈ scopedOffsets C)
    (ho' : o' ∈ scopedOffsets C') (h0 : o ≠ 0) (h0' : o' ≠ 0) (h : groupReg C G o = groupReg C' G' o') :
    c = c' ∧ g = g' ∧ o = o' := by
  have hcc : c = c' := layout_community hd hc hc' (groupReg_mem_commRegs P (List.mem_of_getElem? hg) ho h0)
    (h ▸ groupReg_mem_commRegs P (List.mem_of_getElem? hg') ho' h0')
  subst hcc
  rw [hc] at hc'
  cases hc'
  have hn := (List.nodup_append.1 (layout_nodup hd (List.mem_of_getElem? hc))).1
  have hgg : g = g' := nodup_flatMap_index hn hg hg' (mem_groupRegs ho h0) (h ▸ mem_groupRegs ho' h0')
  subst hgg
  rw [hg] at hg'
  cases hg'
  refine ⟨rfl, rfl, ?_⟩
  unfold groupReg at h
  omega

/-- A pad group's register and a pin's padcfg register lie apart. -/
theorem groupReg_ne_padcfgReg {P : Params} {T : Table} (hd : layoutDistinct P T) {c c' : Nat} {C C' : Community}
    {G : PadGroup} {o p k : Nat} (hc : T.communities[c]? = some C) (hc' : T.communities[c']? = some C')
    (hG : G ∈ groupsOf C) (ho : o ∈ scopedOffsets C) (h0 : o ≠ 0) (hp : p ∈ communityPins C') (hk : k ≤ 2) :
    groupReg C G o ≠ padcfgReg P C' p k := by
  intro h
  have hcc : c = c' := layout_community hd hc hc' (groupReg_mem_commRegs P hG ho h0)
    (h ▸ padcfgReg_mem_commRegs hp hk)
  subst hcc
  rw [hc] at hc'
  cases hc'
  exact absurd h ((List.nodup_append.1 (layout_nodup hd (List.mem_of_getElem? hc))).2.2 _
    (List.mem_flatMap.2 ⟨G, hG, mem_groupRegs ho h0⟩) _ (List.mem_flatMap.2 ⟨p, hp, padcfgReg_mem_pinRegs P C p hk⟩))

/-- Equal addresses of two padcfg registers are the same register of the same pin. -/
theorem padcfgReg_inj {P : Params} {T : Table} (hd : layoutDistinct P T) {c c' : Nat} {C C' : Community} {p p' k k' : Nat}
    (hc : T.communities[c]? = some C) (hc' : T.communities[c']? = some C') (hp : p ∈ communityPins C)
    (hp' : p' ∈ communityPins C') (hk : k ≤ 2) (hk' : k' ≤ 2) (h : padcfgReg P C p k = padcfgReg P C' p' k') :
    c = c' ∧ p = p' ∧ k = k' := by
  have hcc : c = c' := layout_community hd hc hc' (padcfgReg_mem_commRegs hp hk) (h ▸ padcfgReg_mem_commRegs hp' hk')
  subst hcc
  rw [hc] at hc'
  cases hc'
  have hn := (List.nodup_append.1 (layout_nodup hd (List.mem_of_getElem? hc))).2.1
  obtain ⟨i, hi⟩ := List.getElem?_of_mem hp
  obtain ⟨j, hj⟩ := List.getElem?_of_mem hp'
  have hij := nodup_flatMap_index hn hi hj (padcfgReg_mem_pinRegs P C p hk)
    (h ▸ padcfgReg_mem_pinRegs P C p' hk')
  subst hij
  rw [hi] at hj
  cases hj
  refine ⟨rfl, rfl, ?_⟩
  unfold padcfgReg at h
  omega

/-- Two kinds that a community has lie at different offsets. -/
theorem scopedOffsets_apart {P : Params} {T : Table} (hd : layoutDistinct P T) {C : Community} (hC : C ∈ T.communities)
    {G : PadGroup} (hG : G ∈ groupsOf C) {x y : Nat} (hs : List.Sublist [x, y] (scopedOffsets C)) (h0 : y ≠ 0) :
    x ≠ y := fun e => by
  have hn := nodup_flatMap_at (List.nodup_append.1 (layout_nodup hd hC)).1 hG
  have hn : ((scopedOffsets C).filter (· != 0)).Nodup := List.Nodup.of_map _ hn
  have := hn.sublist (hs.filter (· != 0))
  simp [e, h0] at this

/-- GPI_IS lies apart from the kinds that the block writes plainly. -/
theorem isOffset_ne {P : Params} {T : Table} (hd : layoutDistinct P T) {C : Community} (hC : C ∈ T.communities)
    {G : PadGroup} (hG : G ∈ groupsOf C) (h0 : C.isOffset ≠ 0) :
    C.hostOwnerOffset ≠ C.isOffset ∧ C.interruptEnableOffset ≠ C.isOffset :=
  ⟨scopedOffsets_apart hd hC hG (.cons _ (.cons _ (.cons_cons _ (.cons _ (.cons_cons _ .slnil))))) h0,
    scopedOffsets_apart hd hC hG (.cons _ (.cons _ (.cons _ (.cons_cons _ (.cons_cons _ .slnil))))) h0⟩

/-- HOSTSW_OWN lies apart from GPI_IE. -/
theorem hostOwner_ne_enable {P : Params} {T : Table} (hd : layoutDistinct P T) {C : Community} (hC : C ∈ T.communities)
    {G : PadGroup} (hG : G ∈ groupsOf C) (h0 : C.interruptEnableOffset ≠ 0) :
    C.hostOwnerOffset ≠ C.interruptEnableOffset :=
  scopedOffsets_apart hd hC hG (.cons _ (.cons _ (.cons_cons _ (.cons_cons _ (.cons _ .slnil))))) h0

/-- PADCFG_LOCK lies apart from HOSTSW_OWN and from GPI_IE. -/
theorem lock_ne_written {P : Params} {T : Table} (hd : layoutDistinct P T) {C : Community} (hC : C ∈ T.communities)
    {G : PadGroup} (hG : G ∈ groupsOf C) :
    (C.hostOwnerOffset ≠ 0 → C.padConfigLockOffset ≠ C.hostOwnerOffset) ∧
      (C.interruptEnableOffset ≠ 0 → C.padConfigLockOffset ≠ C.interruptEnableOffset) :=
  ⟨scopedOffsets_apart hd hC hG (.cons _ (.cons_cons _ (.cons_cons _ (.cons _ (.cons _ .slnil))))),
    scopedOffsets_apart hd hC hG (.cons _ (.cons_cons _ (.cons _ (.cons_cons _ (.cons _ .slnil)))))⟩

/-! ## Which write effect a register has -/

theorem isStatusReg_iff {T : Table} {sel : Nat → Bool} {a : Nat} :
    isStatusReg T sel a = true ↔ ∃ c C G, T.communities[c]? = some C ∧ sel c = true ∧ C.isOffset ≠ 0 ∧ G ∈ groupsOf C ∧
      groupReg C G C.isOffset = a := by
  simp only [isStatusReg, List.any_eq_true, Bool.and_eq_true, bne_iff_ne, ne_eq, beq_iff_eq, Prod.exists,
    mem_indexedFrom_zero]
  constructor
  · rintro ⟨c, C, h1, ⟨h2, h3⟩, G, h4, h5⟩; exact ⟨c, C, G, h1, h2, h3, h4, h5⟩
  · rintro ⟨c, C, G, h1, h2, h3, h4, h5⟩; exact ⟨c, C, h1, ⟨h2, h3⟩, G, h4, h5⟩

/-- A pin's padcfg address, as `regAddr` names it. -/
theorem regAddr_padcfg {P : Params} {T : Table} {p a : Nat}
    (h : (regAddr P T p .padcfg0 == some a || regAddr P T p .padcfg1 == some a || regAddr P T p .padcfg2 == some a) = true) :
    ∃ loc k, resolve T p = some loc ∧ k ≤ 2 ∧ padcfgReg P loc.com p k = a := by
  simp only [Bool.or_eq_true, beq_iff_eq, regAddr] at h
  cases hr : resolve T p with
  | none => simp [hr] at h
  | some loc =>
    simp only [hr, Option.bind_some, Loc.addr, Option.some.injEq] at h
    rcases h with (h | h) | h
    · exact ⟨loc, 0, rfl, by omega, h⟩
    · exact ⟨loc, 1, rfl, by omega, h⟩
    · exact ⟨loc, 2, rfl, by omega, h⟩

theorem isLockedPadcfg_iff {s : State} {a : Nat} (h : isLockedPadcfg s a = true) :
    ∃ p loc k, resolve s.table p = some loc ∧ k ≤ 2 ∧ padcfgReg s.params loc.com p k = a ∧ lockBitSet s p = true := by
  simp only [isLockedPadcfg, List.any_eq_true] at h
  obtain ⟨p, _, h⟩ := h
  rw [Bool.and_eq_true] at h
  obtain ⟨loc, k, h1, h2, h3⟩ := regAddr_padcfg h.1
  exact ⟨p, loc, k, h1, h2, h3, h.2⟩

theorem mem_communityPins_of_resolve {T : Table} {p : Nat} {loc : Loc} (h : resolve T p = some loc) :
    p ∈ communityPins loc.com :=
  mem_communityPins.2 ⟨(resolve_some h).2.1, (resolve_some h).2.2.1⟩

/-- A pad group's register of another kind than GPI_IS takes plain writes. -/
theorem plainReg_groupReg {s : State} (hd : layoutDistinct s.params s.table) {c : Nat} {C : Community}
    {G : PadGroup} {o : Nat} (hc : s.table.communities[c]? = some C) (hG : G ∈ groupsOf C) (ho : o ∈ scopedOffsets C)
    (h0 : o ≠ 0) (his : o ≠ C.isOffset) : plainReg s (groupReg C G o) := by
  refine ⟨Bool.eq_false_iff.2 fun h => ?_, Bool.eq_false_iff.2 fun h => ?_⟩
  · obtain ⟨c', C', G', hc', -, h0', hG', e⟩ := isStatusReg_iff.1 h
    obtain ⟨g, hg⟩ := List.getElem?_of_mem hG
    obtain ⟨g', hg'⟩ := List.getElem?_of_mem hG'
    obtain ⟨rfl, -, rfl⟩ := groupReg_inj hd hc' hc hg' hg (by simp [scopedOffsets]) ho h0' h0 e
    rw [hc] at hc'
    cases hc'
    exact his rfl
  · obtain ⟨p, loc, k, hr, hk, e, -⟩ := isLockedPadcfg_iff h
    exact groupReg_ne_padcfgReg hd hc (resolve_some hr).1 hG ho h0 (mem_communityPins_of_resolve hr) hk e.symm

/-- A padcfg register of a pin whose lock bit is 0 takes plain writes. -/
theorem plainReg_padcfgReg {s : State} (hd : layoutDistinct s.params s.table) {p k : Nat} {loc : Loc}
    (hr : resolve s.table p = some loc) (hk : k ≤ 2) (hl : lockBitSet s p = false) :
    plainReg s (padcfgReg s.params loc.com p k) := by
  refine ⟨Bool.eq_false_iff.2 fun h => ?_, Bool.eq_false_iff.2 fun h => ?_⟩
  · obtain ⟨c', C', G', hc', -, h0', hG', e⟩ := isStatusReg_iff.1 h
    exact groupReg_ne_padcfgReg hd hc' (resolve_some hr).1 hG' (by simp [scopedOffsets]) h0'
      (mem_communityPins_of_resolve hr) hk e
  · obtain ⟨p', loc', k', hr', hk', e, hl'⟩ := isLockedPadcfg_iff h
    obtain ⟨-, rfl, -⟩ := padcfgReg_inj hd (resolve_some hr').1 (resolve_some hr).1 (mem_communityPins_of_resolve hr')
      (mem_communityPins_of_resolve hr) hk' hk e
    rw [hl] at hl'
    cases hl'

/-- A GPI_IS register takes write-one-to-clear writes. -/
theorem isStatusReg_groupReg {T : Table} {c : Nat} {C : Community} {G : PadGroup} (hc : T.communities[c]? = some C)
    (hG : G ∈ groupsOf C) (h0 : C.isOffset ≠ 0) : isStatusReg T (fun _ => true) (groupReg C G C.isOffset) = true :=
  isStatusReg_iff.2 ⟨c, C, G, hc, rfl, h0, hG, rfl⟩

end Sys2Proof.Machine
end

