-- ==== Sys2Proof/Laws/Dispatch.lean ====
section
/-! SUPPORT. What the parts of a dispatch pass do (spec/43_dispatch.md R171, R172): one bit, one pad group's bits, one pad
group, one community. -/

namespace Sys2Proof.Machine

/-- One bit: at most one callback, nothing else (R172). -/
theorem deliver_spec (G : PadGroup) (i : Nat) (s : State) :
    deliver G i s = { s with events := s.events ++ bitCallback s G i } := by
  unfold deliver bitCallback sourceNumber
  by_cases h : G.size ≤ i
  · rw [if_pos h, if_neg (by omega)]; simp
  · rw [if_neg h]
    by_cases h2 : (irqOf s (G.basePin + i)).state = .unmasked
    · simp only [if_pos h2, if_pos (And.intro (Nat.lt_of_not_le h) h2)]; rfl
    · simp [h2]

/-- The pending bits of a pad group: their callbacks in the order listed. -/
theorem deliverBits_spec (G : PadGroup) (v : Word) (is : List Nat) (s : State) :
    deliverBits G v is s =
      { s with events := s.events ++ (is.filter (fun i => v.getLsbD i)).flatMap (bitCallback s G) } := by
  induction is generalizing s with
  | nil => simp [deliverBits]
  | cons i rest ih =>
    unfold deliverBits
    rw [ih]
    by_cases h : v.getLsbD i = true
    · rw [if_pos h, deliver_spec]
      simp only [List.filter_cons, h, if_true, List.flatMap_cons, List.append_assoc]
      rfl
    · simp [h]

/-- The micro-steps of one pad group's part of a pass. -/
def groupSteps (m : Memory) (a : Nat) : List MicroStep :=
  readOf m a :: if m.readWord a = 0 then [] else [.write a (m.readWord a)]

/-- `m'` is `m` with the registers at `regs` drained and no byte outside them changed. -/
def drained (regs : List Nat) (m m' : Memory) : Prop :=
  (∀ a ∈ regs, m'.readWord a = 0) ∧ ∀ q, (∀ a ∈ regs, q < a ∨ a + 4 ≤ q) → m'.readByte q = m.readByte q

theorem drained_nil (m : Memory) : drained [] m m := ⟨by simp, fun _ _ => rfl⟩

theorem drained_other {regs : List Nat} {m m' : Memory} (h : drained regs m m') {a : Nat} (ha : a % 4 = 0)
    (hr : ∀ b ∈ regs, b % 4 = 0) (hn : a ∉ regs) : m'.readWord a = m.readWord a :=
  readWord_congr _ _ _ fun q _ _ => h.2 q fun b hb => by
    have := hr b hb
    have : b ≠ a := fun e => hn (e ▸ hb)
    omega

theorem drained_append {r1 r2 : List Nat} {m m' m'' : Memory} (h1 : drained r1 m m') (h2 : drained r2 m' m'')
    (a1 : ∀ b ∈ r1, b % 4 = 0) (a2 : ∀ b ∈ r2, b % 4 = 0) (hd : ∀ a ∈ r1, a ∉ r2) : drained (r1 ++ r2) m m'' := by
  refine ⟨fun a ha => ?_, fun q hq => ?_⟩
  · rcases List.mem_append.1 ha with ha | ha
    · rw [drained_other h2 (a1 a ha) a2 (hd a ha)]; exact h1.1 a ha
    · exact h2.1 a ha
  · rw [h2.2 q fun a ha => hq a (List.mem_append_right _ ha), h1.2 q fun a ha => hq a (List.mem_append_left _ ha)]

/-- One pad group's part of a pass with no agent step to come (R171). -/
theorem scanGroup_quiet {C : Community} {G : PadGroup} {s : State} (ha : onBus (groupReg C G C.isOffset)) (hq : Quiet s)
    (hs : isStatusReg s.table (fun _ => true) (groupReg C G C.isOffset) = true) :
    ∃ m, drained [groupReg C G C.isOffset] s.mem m ∧
      scanGroup C G s = .next { s with
        mem := m, events := s.events ++ groupCallbacks s G (s.mem.readWord (groupReg C G C.isOffset)),
        trace := s.trace ++ groupSteps s.mem (groupReg C G C.isOffset) } := by
  unfold scanGroup groupSteps
  dsimp only
  rw [memRead_quiet ha hq, andThen_next]
  by_cases hv : s.mem.readWord (groupReg C G C.isOffset) = 0
  · refine ⟨s.mem, ⟨by simpa using hv, fun _ _ => rfl⟩, ?_⟩
    rw [if_pos hv]
    simp [hv, groupCallbacks]
  · rw [if_neg hv, memWrite_quiet (s := { s with
      trace := s.trace ++ [readOf s.mem (groupReg C G C.isOffset)] }) ha hq, thenState_next,
      regWrite_status (s := { s with trace := s.trace ++ [readOf s.mem (groupReg C G C.isOffset)] }) hs,
      deliverBits_spec]
    refine ⟨s.mem.writeWord (groupReg C G C.isOffset) 0, ⟨?_, fun q h => ?_⟩, ?_⟩
    · simp [readWord_writeWord_same]
    · exact readByte_writeWord_outside _ _ _ _ (h _ (by simp))
    · simp only [setReg, logStep, hv, if_false, BitVec.and_not_self, List.append_assoc, List.singleton_append]
      rfl

theorem groupCallbacks_congr {s t : State} (h : t.irq = s.irq) (G : PadGroup) (v : Word) :
    groupCallbacks t G v = groupCallbacks s G v := by
  have : bitCallback t G = bitCallback s G := by
    have e : irqOf t = irqOf s := by funext p; unfold irqOf; rw [h]
    unfold bitCallback
    rw [e]
  simp only [groupCallbacks, this]

/-- The pad groups of a community, one after the other. -/
theorem scanGroups_quiet {C : Community} (gs : List PadGroup) {s : State} (hq : Quiet s)
    (ha : ∀ G ∈ gs, onBus (groupReg C G C.isOffset))
    (hs : ∀ G ∈ gs, isStatusReg s.table (fun _ => true) (groupReg C G C.isOffset) = true)
    (hn : (gs.map (fun G => groupReg C G C.isOffset)).Nodup) :
    ∃ m, drained (gs.map (fun G => groupReg C G C.isOffset)) s.mem m ∧
      forEach gs (scanGroup C) s = .next { s with
        mem := m
        events := s.events ++ gs.flatMap fun G => groupCallbacks s G (s.mem.readWord (groupReg C G C.isOffset))
        trace := s.trace ++ gs.flatMap fun G => groupSteps s.mem (groupReg C G C.isOffset) } := by
  induction gs generalizing s with
  | nil => exact ⟨s.mem, drained_nil _, by simp⟩
  | cons G rest ih =>
    simp only [List.mem_cons, forall_eq_or_imp] at ha hs
    simp only [List.map_cons, List.nodup_cons] at hn
    obtain ⟨m, hm, e⟩ := scanGroup_quiet ha.1 hq hs.1
    rw [forEach_cons, e, thenState_next]
    obtain ⟨m', hm', e'⟩ := ih (s := { s with
        mem := m, events := s.events ++ groupCallbacks s G (s.mem.readWord (groupReg C G C.isOffset)),
        trace := s.trace ++ groupSteps s.mem (groupReg C G C.isOffset) }) hq ha.2 hs.2 hn.2
    rw [e']
    have al : ∀ b ∈ rest.map (fun G => groupReg C G C.isOffset), b % 4 = 0 := by
      intro b hb
      obtain ⟨H, hH, rfl⟩ := List.mem_map.1 hb
      exact (ha.2 H hH).1
    have al1 : ∀ b ∈ [groupReg C G C.isOffset], b % 4 = 0 := by simpa using ha.1.1
    have keep : ∀ H ∈ rest, m.readWord (groupReg C H C.isOffset) = s.mem.readWord (groupReg C H C.isOffset) := by
      intro H hH
      refine drained_other hm (ha.2 H hH).1 al1 fun h => hn.1 ?_
      rw [List.mem_singleton] at h
      exact h ▸ List.mem_map.2 ⟨H, hH, rfl⟩
    refine ⟨m', drained_append hm hm' al1 al fun a h1 h2 => hn.1 ?_, ?_⟩
    · rw [List.mem_singleton] at h1; exact h1 ▸ h2
    · have e1 : (rest.flatMap fun H => groupCallbacks { s with
          mem := m, events := s.events ++ groupCallbacks s G (s.mem.readWord (groupReg C G C.isOffset)),
          trace := s.trace ++ groupSteps s.mem (groupReg C G C.isOffset) } H (m.readWord (groupReg C H C.isOffset))) =
          rest.flatMap fun H => groupCallbacks s H (s.mem.readWord (groupReg C H C.isOffset)) := by
        refine List.flatMap_congr fun H hH => ?_
        rw [keep H hH]
        exact groupCallbacks_congr rfl _ _
      have e2 : (rest.flatMap fun H => groupSteps m (groupReg C H C.isOffset)) =
          rest.flatMap fun H => groupSteps s.mem (groupReg C H C.isOffset) := by
        refine List.flatMap_congr fun H hH => ?_
        simp only [groupSteps, readOf, keep H hH]
      simp only [e1, e2, List.flatMap_cons, List.append_assoc]

theorem set_busy_back (l : List Bool) (c : Nat) (h : l.getD c false = false) : (l.set c true).set c false = l := by
  rw [List.set_set]
  refine List.ext_getElem? fun i => ?_
  rw [List.getElem?_set]
  split
  · rename_i hi
    subst hi
    split
    · rename_i hlt
      rw [List.getD_eq_getElem?_getD] at h
      rw [List.getElem?_eq_getElem hlt] at h ⊢
      simpa using h.symm
    · rename_i hge
      rw [List.getElem?_eq_none (by omega)]
  · rfl

/-- The GPI_IS registers of a community. -/
def statusRegs (C : Community) : List Nat := (groupsOf C).map (fun G => groupReg C G C.isOffset)

/-- One community's part of a pass with no agent step to come (R171). -/
theorem scanCommunity_quiet {c : Nat} {C : Community} {s : State} (hq : Quiet s) (hc : isScanned s c C = true)
    (ha : ∀ G ∈ groupsOf C, onBus (groupReg C G C.isOffset))
    (hs : ∀ G ∈ groupsOf C, isStatusReg s.table (fun _ => true) (groupReg C G C.isOffset) = true)
    (hn : (statusRegs C).Nodup) :
    ∃ m, drained (statusRegs C) s.mem m ∧
      scanCommunity (c, C) s = .next { s with
        mem := m
        events := s.events ++ (groupsOf C).flatMap fun G =>
          groupCallbacks s G (s.mem.readWord (groupReg C G C.isOffset))
        trace := s.trace ++ (groupsOf C).flatMap fun G => groupSteps s.mem (groupReg C G C.isOffset) } := by
  simp only [isScanned, Bool.and_eq_true, Bool.not_eq_true', bne_iff_ne] at hc
  unfold scanCommunity
  rw [if_neg (by simp [hc])]
  obtain ⟨m, hm, e⟩ := scanGroups_quiet (groupsOf C) (s := setBusy c true s) hq ha hs hn
  rw [e, thenState_next]
  refine ⟨m, hm, ?_⟩
  have hb := set_busy_back s.busy c hc.1.2
  simp only [setBusy, hb]
  rfl

/-- A community that a pass skips (R171). -/
theorem scanCommunity_skip {c : Nat} {C : Community} {s : State} (hc : isScanned s c C = false) :
    scanCommunity (c, C) s = .next s := by
  unfold scanCommunity
  rw [if_pos]
  simp only [isScanned] at hc
  cases h1 : isActive s c <;> cases h2 : isBusy s c <;> simp_all

end Sys2Proof.Machine
end

