-- ==== Sys2Proof/Laws/PerInstr.lean ====
section
/-! SUPPORT. Facts stated for every command, one lemma per constructor of `Instr`. -/

namespace Sys2Proof.Laws.FieldsReadBack

/-- The four fields of R86, read from a command's encoded word, are its opcode, its `SUB` operand, zero and its pin. -/
def Statement (i : Instr) : Prop :=
  opcField (encode i).cmd = i.opcode.bits ∧ subField (encode i).cmd = i.sub ∧ rsvField (encode i).cmd = 0#8 ∧
    pinField (encode i).cmd = BitVec.ofNat 16 i.pin

/-- All of them at once, from the packing. -/
theorem of_pack (i : Instr) : Statement i := by
  simp [Statement, encode_cmd]

theorem init : Statement .init := of_pack _
theorem resolve (pin : Nat) : Statement (.resolve pin) := of_pack _
theorem regaddr (pin : Nat) (kind : RegKind) : Statement (.regaddr pin kind) := of_pack _
theorem ownedByHost (pin : Nat) : Statement (.ownedByHost pin) := of_pack _
theorem acpiMode (pin : Nat) : Statement (.acpiMode pin) := of_pack _
theorem locked (pin : Nat) : Statement (.locked pin) := of_pack _
theorem isUnlocked (pin : Nat) : Statement (.isUnlocked pin) := of_pack _
theorem readPadcfg (pin : Nat) (k : PadIdx) : Statement (.readPadcfg pin k) := of_pack _
theorem writePadcfg (pin : Nat) (k : PadIdx) (value : Word) : Statement (.writePadcfg pin k value) := of_pack _
theorem setTriggerType (pin : Nat) (type : TrigType) : Statement (.setTriggerType pin type) := of_pack _
theorem getInterruptType (pin : Nat) : Statement (.getInterruptType pin) := of_pack _
theorem maskUnmask (pin : Nat) (mask : Bool) : Statement (.maskUnmask pin mask) := of_pack _
theorem register (pin : Nat) (owner callback context : Word64) : Statement (.register pin owner callback context) := of_pack _
theorem unregister (pin : Nat) : Statement (.unregister pin) := of_pack _
theorem enable (pin : Nat) : Statement (.enable pin) := of_pack _
theorem disable (pin : Nat) : Statement (.disable pin) := of_pack _
theorem dispatch (first : Bool) : Statement (.dispatch first) := of_pack _
theorem shouldSave (pin : Nat) : Statement (.shouldSave pin) := of_pack _
theorem suspend : Statement .suspend := of_pack _
theorem resume : Statement .resume := of_pack _
theorem setPowerState (state : PowerState) : Statement (.setPowerState state) := of_pack _
theorem getPinStatus (pin : Nat) : Statement (.getPinStatus pin) := of_pack _

end Sys2Proof.Laws.FieldsReadBack
end

