-- ==== Sys2Proof/Laws/Power.lean ====
section
/-! SUPPORT. What the parts of a suspend and of a resume do with no agent step to come (spec/44_power_context.md R183, R186 to
R188): the snapshot of one pad group and of one pin, the restore of one register kind, of one community and of one pin. -/

namespace Sys2Proof.Machine

/-! ## The snapshot -/

/-- One register of a pad group: read into its snapshot word where the community has the kind (R183). -/
theorem snapshotReg_quiet {C : Community} {G : PadGroup} {o : Nat} {store : Word → State → State} {s : State}
    (h : o ≠ 0 → onBus (groupReg C G o)) (hq : Quiet s) :
    snapshotReg C G o store s = .next (if o = 0 then s
      else store (s.mem.readWord (groupReg C G o)) { s with trace := s.trace ++ [readOf s.mem (groupReg C G o)] }) := by
  unfold snapshotReg
  split
  · rfl
  · next h0 => rw [memRead_quiet (h h0) hq, andThen_next]

/-- One pin: the reads of `save_test`, and the snapshot where it passes (R183). -/
theorem snapshotPin_quiet {pin : Nat} {loc : Loc} {s : State} (hr : resolve s.table pin = some loc)
    (hg : guardOnBus s.params loc pin) (hk : ∀ k ≤ 2, onBus (padcfgReg s.params loc.com pin k)) (hq : Quiet s) :
    snapshotPin pin s = .next
      (if wouldSave s.params loc pin s.mem then
        setPinCtx pin (heldPadcfgs s.params loc pin s.mem)
          { s with trace := s.trace ++ (saveReads s.params loc pin s.mem ++
            (pinRegs s.params loc.com pin).map (readOf s.mem)) }
      else { s with trace := s.trace ++ saveReads s.params loc pin s.mem }) := by
  unfold snapshotPin
  rw [hr]
  dsimp only
  rw [saveTest_quiet hg (hk 1 (by omega)) (hk 2 (by omega)) hq, andThen_next]
  split
  · rw [readPadcfgs_quiet (s := { s with trace := s.trace ++ saveReads s.params loc pin s.mem })
      (hk 0 (by omega)) (hk 1 (by omega)) (hk 2 (by omega)) hq, andThen_next]
    simp [pinRegs]
  · rfl

/-! ## Writes -/

/-- `t` is `s` after the bus writes `ms` to the registers `as`: only the register space, the draws and the trace differ, and
no byte outside those registers. -/
def wrote (as : List Nat) (ms : List MicroStep) (s t : State) : Prop :=
  t = { s with mem := t.mem, draws := t.draws, trace := s.trace ++ ms } ∧
    ∀ q, (∀ a ∈ as, q < a ∨ a + 4 ≤ q) → t.mem.readByte q = s.mem.readByte q

theorem wrote_nil (s : State) : wrote [] [] s s := ⟨by simp, fun _ _ => rfl⟩

theorem wrote_append {as bs : List Nat} {ms ns : List MicroStep} {s t u : State} (h : wrote as ms s t)
    (h' : wrote bs ns t u) : wrote (as ++ bs) (ms ++ ns) s u := by
  refine ⟨?_, fun q hq => ?_⟩
  · conv_lhs => rw [h'.1, h.1]
    simp
  · rw [h'.2 q fun a ha => hq a (List.mem_append_right _ ha), h.2 q fun a ha => hq a (List.mem_append_left _ ha)]

theorem wrote_params {as : List Nat} {ms : List MicroStep} {s t : State} (h : wrote as ms s t) : t.params = s.params := by
  rw [h.1]

theorem wrote_table {as : List Nat} {ms : List MicroStep} {s t : State} (h : wrote as ms s t) : t.table = s.table := by
  rw [h.1]

theorem wrote_quiet {as : List Nat} {ms : List MicroStep} {s t : State} (h : wrote as ms s t) (hq : Quiet s) : Quiet t := by
  show t.agent = []
  rw [h.1]; exact hq

theorem wrote_commCtx {as : List Nat} {ms : List MicroStep} {s t : State} (h : wrote as ms s t) (c : Nat) :
    commCtx t c = commCtx s c := by
  unfold commCtx; rw [h.1]

theorem wrote_pinCtx {as : List Nat} {ms : List MicroStep} {s t : State} (h : wrote as ms s t) (p : Nat) :
    pinCtx t p = pinCtx s p := by
  unfold pinCtx; rw [h.1]

theorem wrote_irqOf {as : List Nat} {ms : List MicroStep} {s t : State} (h : wrote as ms s t) (p : Nat) :
    irqOf t p = irqOf s p := by
  unfold irqOf; rw [h.1]

/-- A register apart from those written keeps its word. -/
theorem wrote_other {as : List Nat} {ms : List MicroStep} {s t : State} (h : wrote as ms s t) {a : Nat} (ha : a % 4 = 0)
    (has : ∀ b ∈ as, b % 4 = 0) (hn : a ∉ as) : t.mem.readWord a = s.mem.readWord a :=
  readWord_congr _ _ _ fun q _ _ => h.2 q fun b hb => by
    have := has b hb
    have : b ≠ a := fun e => hn (e ▸ hb)
    omega

/-- One bus write: what it records, and the word it leaves where it is a plain one. -/
theorem memWrite_wrote {a : Nat} {v : Word} {s : State} (ha : onBus a) (hq : Quiet s) :
    ∃ t, memWrite a v s = .next t ∧ wrote [a] [.write a v] s t ∧ (plainReg s a → t.mem.readWord a = v) := by
  obtain ⟨t, e, h1, h2, h3⟩ := memWrite_quiet_spec (v := v) ha hq
  exact ⟨t, e, ⟨h1, fun q h => h3 q (h a (by simp))⟩, h2⟩

/-! ## The restore -/

/-- The addresses of a register kind of a community, pad groups ascending; none where the kind is absent. -/
def kindRegs (C : Community) (o : Nat) : List Nat := if o = 0 then [] else (groupsOf C).map fun G => groupReg C G o

/-- Writes at several places in a row: each place's register is written once, with its own word. -/
theorem forEach_memWrite {α : Type} (addr : α → Nat) (val : α → Word) (xs : List α) {s : State} (hq : Quiet s)
    (ha : ∀ x ∈ xs, onBus (addr x)) (hn : (xs.map addr).Nodup) :
    ∃ t, forEach xs (fun x => memWrite (addr x) (val x)) s = .next t ∧
      wrote (xs.map addr) (xs.map fun x => .write (addr x) (val x)) s t ∧
      ((∀ x ∈ xs, ∀ u : State, u.params = s.params → u.table = s.table → plainReg u (addr x)) →
        ∀ x ∈ xs, t.mem.readWord (addr x) = val x) := by
  induction xs generalizing s with
  | nil => exact ⟨s, rfl, wrote_nil s, by simp⟩
  | cons x rest ih =>
    simp only [List.mem_cons, forall_eq_or_imp] at ha
    simp only [List.map_cons, List.nodup_cons] at hn
    obtain ⟨t, e, hw, hv⟩ := memWrite_wrote (v := val x) ha.1 hq
    obtain ⟨u, e', hw', hv'⟩ := ih (wrote_quiet hw hq) ha.2 hn.2
    refine ⟨u, by rw [forEach_cons, e, thenState_next, e'], wrote_append hw hw', fun hp y hy => ?_⟩
    rcases List.mem_cons.1 hy with rfl | hy
    · have al : ∀ b ∈ rest.map addr, b % 4 = 0 := by
        intro b hb
        obtain ⟨z, hz, rfl⟩ := List.mem_map.1 hb
        exact (ha.2 z hz).1
      rw [wrote_other hw' ha.1.1 al hn.1]
      exact hv (hp _ (List.mem_cons_self ..) s rfl rfl)
    · exact hv' (fun z hz w h1 h2 => hp z (List.mem_cons_of_mem _ hz) w (h1.trans (wrote_params hw))
        (h2.trans (wrote_table hw))) y hy

theorem map_indexedFrom_snd {α β : Type} (f : α → β) (n : Nat) (xs : List α) :
    (indexedFrom n xs).map (fun y => f y.2) = xs.map f := by
  induction xs generalizing n with
  | nil => rfl
  | cons x rest ih => simp [indexedFrom, ih]

/-- One register kind of a community: every pad group's register is written with its snapshot word (R187). -/
theorem restoreKind_quiet {c : Nat} {C : Community} {o : Nat} {s : State} (words : List Word)
    (hw : tableWf s.params s.table = true) (hd : layoutDistinct s.params s.table) (hc : s.table.communities[c]? = some C)
    (ho : o ∈ scopedOffsets C) (his : o ≠ 0 → o ≠ C.isOffset) (hq : Quiet s) :
    ∃ t, restoreKind C o words s = .next t ∧ wrote (kindRegs C o) (kindWrites C o words) s t ∧
      (o ≠ 0 → ∀ g G, (groupsOf C)[g]? = some G → t.mem.readWord (groupReg C G o) = words.getD g 0) := by
  have hC := List.mem_of_getElem? hc
  unfold restoreKind kindRegs kindWrites
  by_cases h0 : o = 0
  · exact ⟨s, by rw [if_pos h0], by simpa [h0] using wrote_nil s, fun h => absurd h0 h⟩
  · simp only [if_neg h0]
    have hG : ∀ y ∈ indexedFrom 0 (groupsOf C), y.2 ∈ groupsOf C := fun y hy =>
      List.mem_of_getElem? (mem_indexedFrom_zero.1 hy)
    have hm := map_indexedFrom_snd (fun G => groupReg C G o) 0 (groupsOf C)
    have hn : ((groupsOf C).map fun G => groupReg C G o).Nodup := by
      rw [List.nodup_iff_getElem?_ne_getElem?]
      intro i j hij hj e
      rw [List.length_map] at hj
      rw [List.getElem?_map, List.getElem?_map, List.getElem?_eq_getElem hj,
        List.getElem?_eq_getElem (by omega : i < (groupsOf C).length)] at e
      have := (groupReg_inj hd hc hc (List.getElem?_eq_getElem (by omega : i < (groupsOf C).length))
        (List.getElem?_eq_getElem hj) ho ho h0 h0 (Option.some.inj e)).2.1
      omega
    obtain ⟨t, e, hwr, hv⟩ := forEach_memWrite (fun y : Nat × PadGroup => groupReg C y.2 o)
      (fun y => words.getD y.1 0) (indexedFrom 0 (groupsOf C)) hq
      (fun y hy => groupReg_onBus hw hC (hG y hy) ho h0) (by rw [hm]; exact hn)
    rw [hm] at hwr
    refine ⟨t, e, hwr, fun _ g G hg => hv (fun y hy u h1 h2 => ?_) (g, G) (mem_indexedFrom_zero.2 hg)⟩
    exact plainReg_groupReg (s := u) (by rw [h1, h2]; exact hd) (by rw [h2]; exact hc) (hG y hy) ho h0 (his h0)

/-- One pin with a valid snapshot: padcfg0, padcfg1 and padcfg2 are written in order with the saved words, which they then
hold if the pin is not locked (R188). -/
theorem restorePin_quiet {pin : Nat} {loc : Loc} {s : State} (hp : paramsWf s.params = true)
    (hw : tableWf s.params s.table = true) (hd : layoutDistinct s.params s.table)
    (hr : resolve s.table pin = some loc) (hv : (pinCtx s pin).valid = true) (hq : Quiet s) :
    ∃ t, restorePin pin s = .next t ∧
      wrote (pinRegs s.params loc.com pin)
        [.write (padcfgReg s.params loc.com pin 0) (pinCtx s pin).padcfg0,
          .write (padcfgReg s.params loc.com pin 1) (pinCtx s pin).padcfg1,
          .write (padcfgReg s.params loc.com pin 2) (pinCtx s pin).padcfg2] s t ∧
      (lockBitSet s pin = false → heldPadcfgs s.params loc pin t.mem = pinCtx s pin) := by
  obtain ⟨hc, h1, h2, -⟩ := resolve_some hr
  have hb (k : Nat) (hk : k ≤ 2) := padcfgReg_onBus hp hw (resolve_com_mem hr) h1 h2 hk
  obtain ⟨t0, e0, w0, v0⟩ := memWrite_wrote (v := (pinCtx s pin).padcfg0) (hb 0 (by omega)) hq
  obtain ⟨t1, e1, w1, v1⟩ := memWrite_wrote (v := (pinCtx s pin).padcfg1) (hb 1 (by omega)) (wrote_quiet w0 hq)
  obtain ⟨t2, e2, w2, v2⟩ := memWrite_wrote (v := (pinCtx s pin).padcfg2) (hb 2 (by omega))
    (wrote_quiet w1 (wrote_quiet w0 hq))
  refine ⟨t2, ?_, wrote_append w0 (wrote_append w1 w2), fun hl => ?_⟩
  · unfold restorePin
    rw [hr]
    simp only [hv, if_true, e0, thenState_next, wrote_params w0, e1, wrote_params w1, e2]
  · have lockApart (k : Nat) (hk : k ≤ 2) (h0 : loc.com.padConfigLockOffset ≠ 0) :
        groupReg loc.com loc.grp loc.com.padConfigLockOffset ≠ padcfgReg s.params loc.com pin k :=
      groupReg_ne_padcfgReg hd hc hc (resolve_grp_mem hw hr) (by simp [scopedOffsets]) h0
        (mem_communityPins_of_resolve hr) hk
    have keeps {a : Nat} {m : List MicroStep} {u u' : State} (k : Nat) (hk : k ≤ 2) (w : wrote [a] m u u')
        (ea : a = padcfgReg s.params loc.com pin k) (ht : u.table = s.table) (hf : lockBitSet u pin = false) :
        lockBitSet u' pin = false := by
      unfold lockBitSet at hf ⊢
      rw [wrote_table w]
      rw [ht, hr] at hf ⊢
      by_cases h0 : loc.com.padConfigLockOffset = 0
      · simp [h0]
      · dsimp only at hf ⊢
        rw [wrote_other w (groupReg_onBus hw (resolve_com_mem hr) (resolve_grp_mem hw hr) (by simp [scopedOffsets]) h0).1
          (by simpa [ea] using (hb k hk).1) (by simpa [ea] using lockApart k hk h0)]
        exact hf
    have t01 := wrote_table w0
    have t02 := (wrote_table w1).trans t01
    have p01 := wrote_params w0
    have p02 := (wrote_params w1).trans p01
    have l0 := keeps 0 (by omega) w0 rfl rfl hl
    have l1 := keeps 1 (by omega) w1 rfl t01 l0
    have r0 := v0 (plainReg_padcfgReg hd hr (by omega) hl)
    have r1 := v1 (by
      have := plainReg_padcfgReg (s := t0) (k := 1) (by rw [p01, t01]; exact hd) (by rw [t01]; exact hr) (by omega) l0
      rwa [p01] at this)
    have r2 := v2 (by
      have := plainReg_padcfgReg (s := t1) (k := 2) (by rw [p02, t02]; exact hd) (by rw [t02]; exact hr) (by omega) l1
      rwa [p02] at this)
    have apart (j k : Nat) (hj : j ≤ 2) (hk : k ≤ 2) (h : j ≠ k) :
        padcfgReg s.params loc.com pin j ≠ padcfgReg s.params loc.com pin k := by
      unfold padcfgReg; omega
    unfold heldPadcfgs
    rw [r2, wrote_other w2 (hb 0 (by omega)).1 (by simpa using (hb 2 (by omega)).1)
        (by simpa using apart 0 2 (by omega) (by omega) (by omega)),
      wrote_other w1 (hb 0 (by omega)).1 (by simpa using (hb 1 (by omega)).1)
        (by simpa using apart 0 1 (by omega) (by omega) (by omega)), r0,
      wrote_other w2 (hb 1 (by omega)).1 (by simpa using (hb 2 (by omega)).1)
        (by simpa using apart 1 2 (by omega) (by omega) (by omega)), r1, ← hv]

/-- One community with a valid snapshot: every HOSTSW_OWN, then every GPI_IE, each with its snapshot word (R187). -/
theorem restoreCommunity_quiet {c : Nat} {C : Community} {s : State} (hw : tableWf s.params s.table = true)
    (hd : layoutDistinct s.params s.table) (hc : s.table.communities[c]? = some C) (hv : (commCtx s c).valid = true)
    (hq : Quiet s) :
    ∃ t, restoreCommunity (c, C) s = .next t ∧
      wrote (kindRegs C C.hostOwnerOffset ++ kindRegs C C.interruptEnableOffset)
        (kindWrites C C.hostOwnerOffset (commCtx s c).hostown ++ kindWrites C C.interruptEnableOffset (commCtx s c).ie) s t ∧
      (C.hostOwnerOffset ≠ 0 → ∀ g G, (groupsOf C)[g]? = some G →
        t.mem.readWord (groupReg C G C.hostOwnerOffset) = (commCtx s c).hostown.getD g 0) ∧
      (C.interruptEnableOffset ≠ 0 → ∀ g G, (groupsOf C)[g]? = some G →
        t.mem.readWord (groupReg C G C.interruptEnableOffset) = (commCtx s c).ie.getD g 0) := by
  have hC := List.mem_of_getElem? hc
  obtain ⟨G0, hG0⟩ : ∃ G, G ∈ groupsOf C := by
    have h1 := (tableWf_community hw hC).1
    obtain ⟨loc, hr⟩ := resolveFrom_exists hw (fun _ h => h)
      (mem_allPins.1 (mem_allPins.2 ⟨C, hC, Nat.le_refl _, by omega⟩ : C.pinBase ∈ allPins s.table)) (n := 0)
    have hcc : loc.com = C := by
      have hx := resolve_some hr
      obtain ⟨i, hi⟩ : ∃ i, s.table.communities[i]? = some C := ⟨c, hc⟩
      have hp := List.pairwise_iff_getElem.1 (communities_pairwise hw)
      obtain ⟨hl, rfl⟩ := List.getElem?_eq_some_iff.1 hi
      obtain ⟨hl', e'⟩ := List.getElem?_eq_some_iff.1 hx.1
      rcases Nat.lt_trichotomy loc.c i with h | h | h
      · have := hp _ _ hl' hl h; rw [e'] at this; omega
      · subst h; exact e'.symm
      · have := hp _ _ hl hl' h; rw [e'] at this; omega
    exact ⟨loc.grp, hcc ▸ resolve_grp_mem hw hr⟩
  have ish : C.hostOwnerOffset ≠ 0 → C.hostOwnerOffset ≠ C.isOffset := fun h0 e => by
    exact (isOffset_ne hd hC hG0 (by omega)).1 e
  have ise : C.interruptEnableOffset ≠ 0 → C.interruptEnableOffset ≠ C.isOffset := fun h0 e => by
    exact (isOffset_ne hd hC hG0 (by omega)).2 e
  obtain ⟨t, e, wt, vt⟩ := restoreKind_quiet (commCtx s c).hostown hw hd hc (by simp [scopedOffsets]) ish hq
  have hw' : tableWf t.params t.table = true := by rw [wrote_params wt, wrote_table wt]; exact hw
  have hd' : layoutDistinct t.params t.table := by rw [wrote_params wt, wrote_table wt]; exact hd
  obtain ⟨u, e', wu, vu⟩ := restoreKind_quiet (s := t) (commCtx s c).ie hw' hd' (by rw [wrote_table wt]; exact hc)
    (by simp [scopedOffsets]) ise (wrote_quiet wt hq)
  refine ⟨u, ?_, wrote_append wt wu, fun h0 g G hg => ?_, vu⟩
  · unfold restoreCommunity
    simp only [hv, if_true, e, thenState_next, wrote_commCtx wt, e']
  · have hG := List.mem_of_getElem? hg
    have al : ∀ b ∈ kindRegs C C.interruptEnableOffset, b % 4 = 0 := by
      unfold kindRegs
      split
      · simp
      · next h1 =>
        intro b hb
        obtain ⟨H, hH, rfl⟩ := List.mem_map.1 hb
        exact (groupReg_onBus hw hC hH (by simp [scopedOffsets]) h1).1
    rw [wrote_other wu (groupReg_onBus hw hC hG (by simp [scopedOffsets]) h0).1 al ?_]
    · exact vt h0 g G hg
    · unfold kindRegs
      split
      · simp
      · next h1 =>
        intro hb
        obtain ⟨H, hH, eH⟩ := List.mem_map.1 hb
        obtain ⟨g', hg'⟩ := List.getElem?_of_mem hH
        exact hostOwner_ne_enable hd hC hG h1
          (groupReg_inj hd hc hc hg hg' (by simp [scopedOffsets]) (by simp [scopedOffsets]) h0 h1 eH.symm).2.2

/-! ## The re-armed bits -/

@[simp] theorem rearmBits_zero (s : State) (m : Memory) (G : PadGroup) : rearmBits s m G 0 = 0 := rfl

theorem rearmBits_succ (s : State) (m : Memory) (G : PadGroup) (n : Nat) :
    rearmBits s m G (n + 1) =
      if rearms s m (G.basePin + n) then rearmBits s m G n ||| 1#32 <<< n else rearmBits s m G n := by
  unfold rearmBits
  rw [List.range_succ, List.filter_append, List.foldl_append]
  cases h : rearms s m (G.basePin + n) <;> simp [h]

/-- Bit `i` of the re-armed bits: its pin is among the first `n` and is re-armed. -/
theorem getLsbD_rearmBits (s : State) (m : Memory) (G : PadGroup) (n i : Nat) (hi : i < 32) :
    (rearmBits s m G n).getLsbD i = (decide (i < n) && rearms s m (G.basePin + i)) := by
  induction n with
  | zero => simp
  | succ n ih =>
    rw [rearmBits_succ]
    by_cases hin : i = n
    · subst hin
      cases h : rearms s m (G.basePin + i)
      · simpa [h] using ih
      · simp [hi]
    · have h1 : decide (i < n + 1) = decide (i < n) := by simp; omega
      have h2 : (1#32 <<< n).getLsbD i = false := by
        simp only [BitVec.getLsbD_shiftLeft, BitVec.getLsbD_one, Bool.and_eq_false_iff, decide_eq_false_iff_not,
          Bool.not_eq_false', decide_eq_true_eq]
        omega
      rw [h1]
      split
      · rw [BitVec.getLsbD_or, ih, h2, Bool.or_false]
      · exact ih

/-- Re-arming depends on the record and on the registers the guard reads alone. -/
theorem rearms_congr {s : State} {m m' : Memory} {p : Nat}
    (h : ∀ loc, resolve s.table p = some loc → mayMutate s.params loc p m = mayMutate s.params loc p m') :
    rearms s m p = rearms s m' p := by
  unfold rearms
  split
  · rfl
  · next loc hr => rw [h loc hr]

end Sys2Proof.Machine
end

