-- ==== Sys2Proof/Tests/Slice0.lean ====
section
/-! SUPPORT. The model's own tests: ill-formed terms that the checks refuse, every command's word, one-step vectors of
spec/95_test_vectors.md, and for every statement with hypotheses a concrete state that meets them. -/

namespace Sys2Proof.Tests

set_option Elab.async false

open Sys2Proof Sys2Proof.Machine

/-! ## The test configuration of spec/95_test_vectors.md 1.2 -/

/-- Community 0 of `T0`. -/
def com0 : Community := ⟨0, 0x20, 0x80, 0xB0, 0x120, 0x400, 0x100, 0, 32, 32, 0, none, 0x10000⟩

/-- Pad group `G0` of community 1. -/
def grp0 : PadGroup := ⟨0, 32, 32, 0, 0⟩

/-- Pad group `G1` of community 1. -/
def grp1 : PadGroup := ⟨1, 64, 16, 96, 1⟩

/-- Community 1 of `T0`. -/
def com1 : Community := ⟨0, 0x20, 0x80, 0xB0, 0x120, 0x400, 0x100, 32, 48, 0, 0, some [grp0, grp1], 0x20000⟩

/-- A table of the two communities given, its pins 0 to 79. -/
def tableOf (c0 c1 : Community) : Table := ⟨(List.range 80).map (⟨·, "", 0⟩), [], [], [c0, c1]⟩

/-- `T0`. -/
def table0 : Table := tableOf com0 com1

/-- Community 1 with no host-ownership, lock, interrupt-enable and status register. -/
def bareCom1 : Community := { com1 with padConfigLockOffset := 0, hostOwnerOffset := 0, interruptEnableOffset := 0, isOffset := 0 }

/-- The state after `INIT` with a table. -/
def after (T : Table) : State := installTable T State.reset

/-- `S0`. -/
def s0 : State := after table0

/-- A state with registers set. -/
def withRegs (regs : List (Nat × Word)) (s : State) : State :=
  { s with mem := regs.foldl (fun m r => m.writeWord r.1 r.2) s.mem }

/-- `S0` with registers set. -/
def at0 (regs : List (Nat × Word)) : State := withRegs regs s0

/-- A record set in a state. -/
def withIrq (pin : Nat) (st : IrqState) (s : State) : State := setIrq pin ⟨st, 0x10, 0x20, 0x30, none⟩ s

/-- The place of pin 42 in a table with community 1 as given. -/
def loc42 (c1 : Community) : Loc := ⟨1, 0, c1, grp0⟩

/-- The next state of an outcome, if it has one. -/
def out (r : Host.Outcome State Fault Refusal) : Option State :=
  match r with
  | .next s => some s
  | .fault _ => none
  | .refused _ => none

/-- Result code, result value and the micro-steps of a command run in a state. -/
def result (i : Instr) (s : State) : Option (BitVec 8 × Word64 × List MicroStep) :=
  (out (exec i s)).map fun t => (t.respCode, t.respValue, t.trace)

/-- Result code and one more thing of the state after a command. -/
def resultOf {β : Type} (f : State → β) (i : Instr) (s : State) : Option (BitVec 8 × β) :=
  (out (exec i s)).map fun t => (t.respCode, f t)

theorem of_out {β : Type} {r : Host.Outcome State Fault Refusal} {f : State → β} {b : β} (h : (out r).map f = some b) :
    ∃ t, r = .next t ∧ f t = b := by
  cases r with
  | next t => exact ⟨t, rfl, by simpa [out] using h⟩
  | fault _ => simp [out] at h
  | refused _ => simp [out] at h

/-! ## Well-formedness -/

/-- A pin of 2^16 has no encoding (R101): every command that takes one refuses it, and takes 2^16 - 1. -/
theorem test_wf_pins :
    ([.resolve 65536, .regaddr 65536 .gpiIs, .ownedByHost 65536, .acpiMode 65536, .locked 65536, .isUnlocked 65536,
      .readPadcfg 65536 .k0, .writePadcfg 65536 .k2 0, .setTriggerType 65536 .levelLow, .getInterruptType 65536,
      .maskUnmask 65536 true, .register 65536 1 2 3, .unregister 65536, .enable 65536, .disable 65536,
      .shouldSave 65536, .getPinStatus 65536] : List Instr).map Instr.wf = List.replicate 17 false ∧
    ([.init, .resolve 65535, .dispatch true, .suspend, .resume, .setPowerState .sleeping] : List Instr).map Instr.wf
      = List.replicate 6 true := by decide

/-- Each constraint of R8, broken alone, is refused; the example set is accepted. -/
theorem test_params_wf :
    ([{ Params.example with pmodeMask := 0 }, { Params.example with pmodeMask := 5, acpiModeValue := 5 },
      { Params.example with trigMask := 6 }, { Params.example with pmodeShift := 30 },
      { Params.example with trigShift := 31 }, { Params.example with invBit := 32 }, { Params.example with invBit := 25 },
      { Params.example with trigEdgeVal := 0 }, { Params.example with trigEdgeVal := 4 },
      { Params.example with trigLevelVal := 4 }, { Params.example with acpiModeValue := 8 },
      { Params.example with padcfgStride := 14 }, { Params.example with padcfgStride := 8 }] : List Params).map paramsWf
      = List.replicate 13 false ∧ paramsWf Params.example = true := by decide

/-- V-LIF-1: `T0` passes every check. -/
theorem test_table0_wf : tableWf Params.example table0 = true := by decide +kernel

/-- Each check W1 to W9, broken (V-LIF-3 to V-LIF-12; W1 and W8 by a large pin and a large base). -/
theorem test_table_checks :
    checkW1 (tableOf com0 { com1 with pinsTotal := 65505 }) = false ∧
    checkW1 { table0 with pins := [⟨65536, "", 0⟩] } = false ∧
    checkW2 (tableOf com0 { com1 with pinBase := 31, pinsTotal := 49 }) = false ∧
    checkW2 (tableOf com1 com0) = false ∧
    checkW3 (tableOf { com0 with pinsTotal := 0 } com1) = false ∧
    checkW4 (tableOf com0 { com1 with padGroups := some [⟨0, 32, 33, 0, 0⟩, ⟨1, 65, 15, 96, 1⟩] }) = false ∧
    checkW5 (tableOf com0 { com1 with padGroups := some [grp0, { grp1 with basePin := 65 }] }) = false ∧
    checkW5 (tableOf com0 { com1 with padGroups := some [grp0, { grp1 with padownIndex := -1 }] }) = false ∧
    checkW5 (tableOf com0 { com1 with padGroups := some [] }) = false ∧
    checkW6 (tableOf { com0 with defaultPadGroupSize := 0 } com1) = false ∧
    checkW7 { table0 with pins := (List.range 79).map (⟨·, "", 0⟩) } = false ∧
    checkW7 { table0 with pins := ⟨5, "", 0⟩ :: table0.pins } = false ∧
    checkW8 Params.example (tableOf com0 { com1 with mappedBase := 2 ^ 64 - 4 }) = false ∧
    checkW9 (tableOf com0 { com1 with mappedBase := 0x20002 }) = false := by decide +kernel

/-! ## Decoding -/

/-- One word of every command, from the encodings of R86 to R99. -/
theorem test_decode_words :
    ([(0x08000000#32, .init), (0x1000FFFF#32, .resolve 65535), (0x1F00002A#32, .regaddr 42 .gpiIs),
      (0x1B00002A#32, .regaddr 42 .padOwner), (0x2000002A#32, .ownedByHost 42), (0x2800002A#32, .acpiMode 42),
      (0x3000002A#32, .locked 42), (0x3800002A#32, .isUnlocked 42), (0x4200002A#32, .readPadcfg 42 .k2),
      (0x5300002A#32, .setTriggerType 42 .edgeFalling), (0x5100002A#32, .setTriggerType 42 .levelLow),
      (0x5800002A#32, .getInterruptType 42), (0x6100002A#32, .maskUnmask 42 true), (0x6000002A#32, .maskUnmask 42 false),
      (0x70000050#32, .unregister 80), (0x78000050#32, .enable 80), (0x8000002A#32, .disable 42),
      (0x89000000#32, .dispatch true), (0x88000000#32, .dispatch false), (0x9000002A#32, .shouldSave 42),
      (0x98000000#32, .suspend), (0xA0000000#32, .resume), (0xA9000000#32, .setPowerState .sleeping),
      (0xA8000000#32, .setPowerState .working), (0xB0000050#32, .getPinStatus 80)] : List (Word × Instr)).all
      (fun x => match decode ⟨x.1, 7, 8, 9⟩ with | .ok i => i == x.2 | .error _ => false) = true := by decide

/-- The two commands with operand words (R90). -/
theorem test_decode_operands :
    decode ⟨0x4A00002A#32, 0xFFFFFFFF#64, 1, 2⟩ = .ok (.writePadcfg 42 .k2 0xFFFFFFFF#32) ∧
    decode ⟨0x6800002A#32, 0x10#64, 0x8000000000000020#64, 0x30#64⟩ = .ok (.register 42 0x10 0x8000000000000020 0x30) ∧
    decodeTableWord 32 0x6800002A = some (.register 42 0 0 0) := ⟨rfl, rfl, rfl⟩

/-- V-DEC-2 to V-DEC-18, each by the check that refuses it. -/
theorem test_decode_illegal :
    decode ⟨0#32, 0, 0, 0⟩ = .error .reservedOpcode ∧ decode ⟨0xB8000000#32, 0, 0, 0⟩ = .error .reservedOpcode ∧
    decode ⟨0xF8000000#32, 0, 0, 0⟩ = .error .reservedOpcode ∧ decode ⟨0x1001002A#32, 0, 0, 0⟩ = .error .reservedBits ∧
    decode ⟨0xA0010000#32, 0, 0, 0⟩ = .error .reservedBits ∧ decode ⟨0x1100002A#32, 0, 0, 0⟩ = .error .illegalSub ∧
    decode ⟨0x4300002A#32, 0, 0, 0⟩ = .error .illegalSub ∧ decode ⟨0x4B00002A#32, 0, 0, 0⟩ = .error .illegalSub ∧
    decode ⟨0x5400002A#32, 0, 0, 0⟩ = .error .illegalSub ∧ decode ⟨0x6200002A#32, 0, 0, 0⟩ = .error .illegalSub ∧
    decode ⟨0x8A000000#32, 0, 0, 0⟩ = .error .illegalSub ∧ decode ⟨0xAA000000#32, 0, 0, 0⟩ = .error .illegalSub ∧
    decode ⟨0x88000001#32, 0, 0, 0⟩ = .error .unusedPin ∧ decode ⟨0x98000001#32, 0, 0, 0⟩ = .error .unusedPin ∧
    decode ⟨0x08000001#32, 0, 0, 0⟩ = .error .unusedPin ∧
    decode ⟨0x4800002A#32, 0x100000000#64, 0, 0⟩ = .error .operandHighBits := by
  refine ⟨rfl, rfl, rfl, rfl, rfl, rfl, rfl, rfl, rfl, rfl, rfl, rfl, rfl, rfl, rfl, rfl⟩

/-- No two rows of the opcode table overlap. -/
theorem test_rows_disjoint :
    opcodeRows.Pairwise (fun r r' => r.mask &&& r'.mask &&& (r.pattern ^^^ r'.pattern) ≠ 0#32) := by decide

/-- The rows hold the opcode map of R89: a row's pattern is the opcode's bits uppermost. -/
theorem test_rows_opcodes :
    opcodeRows.map (fun r => (r.opcode, r.pattern)) = opcodeList.map (fun o => (o, packCmd o.bits 0 0 0)) := by decide

/-! ## The step -/

/-- V-DEC-1: right after reset a command ends with `NotInitialized`. -/
theorem test_step_before_init :
    (out (step (State.reset.withFetchWord 32 0x1000002A))).map (fun t => (t.respCode, t.cmd)) = some (0x07#8, 0x1000002A#32) := by
  decide +kernel

/-- V-DEC-2, and `INIT` with the empty table. -/
theorem test_step_first :
    (out (step (State.reset.withFetchWord 32 0))).map (·.respCode) = some 0x08#8 ∧
    (out (step (State.reset.withFetchWord 32 0x08000000))).map (fun t => (t.respCode, t.initialized)) = some (0x00#8, true) := by
  decide +kernel

/-- E4 and E1 between commands (R72, R216): the event queues `DISPATCH 1`, which then runs in the same step. -/
theorem test_step_interrupt :
    (out (step { withIrq 42 .unmasked s0 with agent := [[.pending 42 0x400, .interruptLine]] })).map
      (fun t => (t.cmd, t.respCode, t.events, t.mem)) =
      some (0x89000000#32, 0x00#8, [.callback 0x20 0x30 42], []) := by decide +kernel

/-- E3 between two micro-steps (R75, R241): a firmware change between the read and the write of padcfg0 is lost. -/
theorem test_agent_between :
    resultOf (fun t => t.mem.readWord 0x204A0) (.setTriggerType 42 .edgeFalling)
      { at0 [(0x200B0, 0x400), (0x204A0, 0x44000201)] with agent := [[], [], [], [], [.firmware 42 .padcfg0 0xFFFF]] }
      = some (0x00#8, 0x42800201#32) := by decide +kernel

/-! ## One-step vectors of spec/95_test_vectors.md -/

/-- V-LIF-1, V-LIF-2. -/
theorem test_init :
    resultOf (fun t => (t.active, t.irq.length, t.ctxPin.length)) .init { State.reset with handed := table0 }
      = some (0x00#8, [true, true], 80, 80) ∧
    resultOf (·.initialized) .init s0 = some (0x0B#8, true) := by decide +kernel

/-- V-LIF-3. -/
theorem test_init_invalid :
    resultOf (·.initialized) .init
      { State.reset with handed := tableOf com0 { com1 with pinBase := 31, pinsTotal := 49 } } = some (0x0A#8, false) := by
  decide +kernel

/-- V-RES-2, V-RES-7. -/
theorem test_resolve :
    result (.resolve 31) s0 = some (0x00#8, 0x0000001F00000000#64, []) ∧
    result (.resolve 70) s0 = some (0x00#8, 0x0000002600010001#64, []) := by decide +kernel

/-- V-RES-9. -/
theorem test_resolve_none : result (.resolve 80) s0 = some (0x01#8, 0, []) := by decide +kernel

/-- V-RES-13, V-RES-21. -/
theorem test_regaddr :
    result (.regaddr 42 .padcfg2) s0 = some (0x00#8, 0x204A8#64, []) ∧
    result (.regaddr 70 .gpiIe) s0 = some (0x00#8, 0x20124#64, []) := by decide +kernel

/-- V-GRD-1, V-GRD-2. -/
theorem test_owned_by_host :
    result (.ownedByHost 42) (at0 [(0x200B0, 0x400)]) = some (0x00#8, 1, [.read 0x200B0 0x400]) ∧
    result (.ownedByHost 42) (at0 [(0x200B0, 0xFFFFFBFF)]) = some (0x00#8, 0, [.read 0x200B0 0xFFFFFBFF]) := by
  decide +kernel

/-- V-GRD-4, V-GRD-5. -/
theorem test_acpi_mode :
    result (.acpiMode 42) (at0 [(0x204A0, 0x1C00)]) = some (0x00#8, 1, [.read 0x204A0 0x1C00]) ∧
    result (.acpiMode 42) (at0 [(0x204A0, 0x1800)]) = some (0x00#8, 0, [.read 0x204A0 0x1800]) := by decide +kernel

/-- V-GRD-6, V-GRD-7. -/
theorem test_locked :
    result (.locked 42) (at0 [(0x20080, 0x400)]) = some (0x00#8, 1, [.read 0x20080 0x400]) ∧
    result (.locked 42) (at0 [(0x20080, 0xFFFFFBFF)]) = some (0x00#8, 0, [.read 0x20080 0xFFFFFBFF]) := by decide +kernel

/-- V-GRD-8 and the table without a lock register. -/
theorem test_is_unlocked :
    result (.isUnlocked 42) (at0 [(0x20080, 0xFFFFFBFF)]) = some (0x00#8, 1, [.read 0x20080 0xFFFFFBFF]) ∧
    result (.locked 42) (after (tableOf com0 bareCom1)) = some (0x00#8, 2, []) := by decide +kernel

/-- V-GRD-10. -/
theorem test_read_padcfg :
    result (.readPadcfg 42 .k1) (at0 [(0x204A4, 0xCAFEF00D)]) = some (0x00#8, 0xCAFEF00D#64, [.read 0x204A4 0xCAFEF00D]) := by
  decide +kernel

/-- V-GRD-11, V-GRD-15. -/
theorem test_write_padcfg :
    result (.writePadcfg 42 .k0 0x12345678) (at0 [(0x200B0, 0x400), (0x204A0, 1)]) =
      some (0x00#8, 0, [.read 0x200B0 0x400, .read 0x204A0 1, .read 0x20080 0, .write 0x204A0 0x12345678]) ∧
    resultOf (fun t => t.mem.readWord 0x204A8) (.writePadcfg 42 .k2 0xFFFFFFFF) (at0 [(0x200B0, 0x400)])
      = some (0x00#8, 0xFFFFFFFF#32) := by decide +kernel

/-- V-GRD-12, V-GRD-13, V-GRD-14. -/
theorem test_write_padcfg_denied :
    resultOf (fun t => t.mem.readWord 0x204A0) (.writePadcfg 42 .k0 0x12345678)
      (at0 [(0x200B0, 0x400), (0x20080, 0x400), (0x204A0, 1)]) = some (0x03#8, 1#32) ∧
    result (.writePadcfg 42 .k0 0x12345678) (at0 [(0x204A0, 1)]) = some (0x02#8, 0, [.read 0x200B0 0]) ∧
    result (.writePadcfg 42 .k0 0x12345678) (at0 [(0x200B0, 0x400), (0x204A0, 0x1C00)])
      = some (0x02#8, 0, [.read 0x200B0 0x400, .read 0x204A0 0x1C00]) := by decide +kernel

/-- V-GRD-16, V-GRD-20. -/
theorem test_get_pin_status :
    result (.getPinStatus 42) (at0 [(0x200B0, 0x400)]) =
      some (0x00#8, 1, [.read 0x200B0 0x400, .read 0x204A0 0, .read 0x20080 0]) ∧
    result (.getPinStatus 80) s0 = some (0x00#8, 0, []) := by decide +kernel

/-- V-INT-1. -/
theorem test_set_trigger_type :
    result (.setTriggerType 42 .edgeFalling) (at0 [(0x200B0, 0x400), (0x204A0, 0x44000201)]) =
      some (0x00#8, 0, [.read 0x200B0 0x400, .read 0x204A0 0x44000201, .read 0x20080 0, .read 0x204A0 0x44000201,
        .write 0x204A0 0x42800201]) := by decide +kernel

/-- V-INT-3, V-INT-4: the polarity bit and the edge/level field. -/
theorem test_trigger_encoding :
    encTrig Params.example .levelLow 0 = 0x00800000#32 ∧ encTrig Params.example .edgeFalling 0x06800000 = 0x02800000#32 ∧
    decTrig Params.example 0x04000000 = none := by decide +kernel

/-- V-INT-10, V-INT-11. -/
theorem test_get_interrupt_type :
    result (.getInterruptType 42) (at0 [(0x204A0, 0x02000000)]) = some (0x00#8, 2, [.read 0x204A0 0x02000000]) ∧
    result (.getInterruptType 42) (at0 [(0x204A0, 0x04000000)]) = some (0x09#8, 0, [.read 0x204A0 0x04000000]) := by
  decide +kernel

/-- V-INT-12, V-INT-14. -/
theorem test_mask_unmask :
    result (.maskUnmask 42 false) (at0 [(0x200B0, 0x400), (0x20120, 1)]) = some (0x00#8, 0,
      [.read 0x200B0 0x400, .read 0x204A0 0, .read 0x20080 0, .read 0x20120 1, .write 0x20120 0x401]) ∧
    resultOf (fun t => t.mem.readWord 0x20120) (.maskUnmask 42 true) (at0 [(0x200B0, 0x400), (0x20120, 0xFFFFFFFF)])
      = some (0x00#8, 0xFFFFFBFF#32) := by decide +kernel

/-- V-REG-1, V-REG-2. -/
theorem test_register :
    resultOf (irqOf · 42) (.register 42 0x10 0x20 0x30) (at0 [(0x200B0, 0x400)])
      = some (0x00#8, ⟨.masked, 0x10, 0x20, 0x30, none⟩) ∧
    resultOf (irqOf · 42) (.register 42 0x11 0x21 0x31) (withIrq 42 .masked s0)
      = some (0x04#8, ⟨.masked, 0x10, 0x20, 0x30, none⟩) := by decide +kernel

/-- V-REG-5, V-REG-7. -/
theorem test_unregister :
    resultOf (irqOf · 42) (.unregister 42) (withIrq 42 .masked s0) = some (0x00#8, ⟨.unregistered, 0, 0, 0, none⟩) ∧
    result (.unregister 80) s0 = some (0x05#8, 0, []) := by decide +kernel

/-- V-REG-3, V-REG-8. -/
theorem test_enable :
    resultOf (fun t => ((irqOf t 42).state, t.mem.readWord 0x20120)) (.enable 42)
      (withIrq 42 .masked (at0 [(0x200B0, 0x400)])) = some (0x00#8, .unmasked, 0x400#32) ∧
    result (.enable 42) s0 = some (0x05#8, 0, []) := by decide +kernel

/-- V-REG-4, V-REG-13. -/
theorem test_disable :
    resultOf (fun t => ((irqOf t 42).state, t.mem.readWord 0x20120)) (.disable 42)
      (withIrq 42 .unmasked (at0 [(0x200B0, 0x400), (0x20120, 0x401)])) = some (0x00#8, .masked, 1#32) ∧
    resultOf (fun t => (irqOf t 42).state) (.disable 42)
      (withIrq 42 .unmasked (at0 [(0x200B0, 0x400), (0x20080, 0x400)])) = some (0x03#8, .unmasked) := by decide +kernel

/-- V-DSP-2. -/
theorem test_dispatch :
    resultOf (fun t => (t.events, t.trace)) (.dispatch true)
      (withIrq 42 .unmasked (withIrq 70 .unmasked (at0 [(0x20100, 0x402), (0x20104, 0x40)]))) =
      some (0x00#8, [.callback 0x20 0x30 42, .callback 0x20 0x30 102],
        [.settle 0, .read 0x10100 0, .read 0x20100 0x402, .write 0x20100 0x402, .read 0x20104 0x40, .write 0x20104 0x40]) := by
  decide +kernel

/-- V-DSP-3: a masked pin and a bit above the group's size are cleared and not delivered. -/
theorem test_dispatch_dropped :
    resultOf (fun t => (t.events, t.mem)) (.dispatch false)
      (withIrq 42 .masked (withIrq 70 .unmasked (at0 [(0x20100, 0x400), (0x20104, 0x10040)]))) =
      some (0x00#8, [.callback 0x20 0x30 102], []) := by decide +kernel

/-- V-PWR-1, V-PWR-3. -/
theorem test_should_save :
    result (.shouldSave 42) (at0 [(0x200B0, 0x400), (0x204A0, 1)]) =
      some (0x00#8, 1, [.read 0x200B0 0x400, .read 0x20080 0, .read 0x204A0 1]) ∧
    result (.shouldSave 42) (at0 [(0x200B0, 0x400), (0x20080, 0x400)]) =
      some (0x00#8, 0, [.read 0x200B0 0x400, .read 0x20080 0x400]) := by decide +kernel

/-- V-PWR-6 and the pin snapshot of program P2. -/
theorem test_suspend :
    resultOf (fun t => (t.trace.length, t.active, t.suspended)) .suspend s0 = some (0x00#8, 86, [false, false], true) ∧
    resultOf (fun t => (t.trace.length, pinCtx t 42, (commCtx t 1).hostown)) .suspend
      (at0 [(0x200B0, 0x400), (0x204A0, 0x44000201), (0x204A4, 0x1F)]) =
      some (0x00#8, 91, ⟨true, 0x44000201, 0x1F, 0⟩, [0x400, 0]) := by decide +kernel

/-- A state inside the suspend window, with pin 42 saved. -/
def asleep : State :=
  { s0 with
    suspended := true, active := [false, false]
    ctxComm := [⟨true, [0], [0]⟩, ⟨true, [0x400, 0], [0x400, 0]⟩]
    ctxPin := storeSet s0.ctxPin 42 ⟨true, 0x44000201, 0x1F, 0⟩ }

/-- Program P2, step 6: the restore, then the re-arm. -/
theorem test_resume :
    result .resume (withIrq 42 .unmasked asleep) = some (0x00#8, 0,
      [.write 0x100B0 0, .write 0x10120 0, .write 0x200B0 0x400, .write 0x200B4 0, .write 0x20120 0x400, .write 0x20124 0,
        .write 0x204A0 0x44000201, .write 0x204A4 0x1F, .write 0x204A8 0, .read 0x200B0 0x400, .read 0x204A0 0x44000201,
        .read 0x20080 0, .read 0x20120 0x400, .write 0x20120 0x400]) := by decide +kernel

/-- R189: an unmasked pin that is not host-owned after the restore is left masked and its owner is told. -/
theorem test_resume_lost :
    resultOf (fun t => (t.events, (irqOf t 42).state, t.active, t.suspended)) .resume
      (withIrq 42 .unmasked { s0 with suspended := true, active := [false, false] }) =
      some (0x00#8, [.advisory 0x10 42], .masked, [true, true], false) := by decide +kernel

/-- V-PWR-15, V-PWR-16. -/
theorem test_set_power_state :
    result (.setPowerState .working) s0 = some (0x00#8, 0, []) ∧
    resultOf (·.active) (.setPowerState .sleeping) s0 = some (0x00#8, [false, false]) := by decide +kernel

/-- V-PWR-8, V-PWR-10. -/
theorem test_inactive :
    resultOf (fun t => (t.events, t.trace)) (.readPadcfg 42 .k0) asleep = some (0x06#8, [.defectSignal 0x08 42 1], []) ∧
    resultOf (fun t => (t.respValue, t.events)) (.getPinStatus 42) asleep = some (0x00#8, 0, []) := by decide +kernel

/-- R94 and R103: the boundary's statuses and names. -/
theorem test_boundary :
    boundaryStatus .locked = .notPermitted ∧ boundaryStatus .alreadyRegistered = .busy ∧
    expandCall (.setInterruptTypeForPin 42 .levelLow) = .setTriggerType 42 .levelLow ∧
    asmOf (.regaddr 42 .gpiIe) = "REGADDR 42, GPI_IE" := by decide +kernel

/-! ## Witnesses: for every statement with hypotheses, a state and operands that meet them together, for each of its clauses -/

/-- Pin 42 host-owned, unlocked and not in ACPI mode. -/
def s42 : State := at0 [(0x200B0, 0x400), (0x204A0, 0x44000201)]

/-- Pin 42's place in `T0`. -/
def loc0 : Loc := loc42 com1

/-- The state after `INIT` with the table whose community 1 lacks four kinds. -/
def bare : State := after (tableOf com0 bareCom1)

/-- Pin 42's community has a negative `gpio_base`. -/
def unmapped : State := after (tableOf com0 { com1 with padGroups := some [{ grp0 with gpioBase := -1 }, grp1] })

/-- What the statements about pin 42 in an active community assume. -/
def ready (s : State) : Prop :=
  s.initialized = true ∧ resolve s.table 42 = some loc0 ∧ isActive s loc0.c = true ∧ Quiet s ∧ guardOnBus s.params loc0 42

theorem ready_of {s : State} (h1 : s.initialized = true) (h2 : resolve s.table 42 = some loc0) (h3 : isActive s 1 = true)
    (h4 : s.agent = []) (h5 : s.params = Params.example) : ready s :=
  ⟨h1, h2, h3, h4, by rw [h5]; exact ⟨fun _ => by decide, by decide, fun _ => by decide⟩⟩

theorem ready_s42 : ready s42 := ready_of rfl (by decide +kernel) (by decide +kernel) rfl rfl

theorem table0_accepted : paramsWf Params.example = true ∧ tableWf Params.example table0 = true := by decide +kernel

theorem table0_distinct : layoutDistinct Params.example table0 := by unfold layoutDistinct; decide +kernel

theorem witness_DecodeReadsEncode : (Instr.regaddr 65535 .gpiIs).wf = true ∧ Instr.init.wf = true := by decide

theorem witness_EncodeReadsDecode :
    decode ⟨0x4A00FFFF#32, 0xFFFFFFFF#64, 1, 2⟩ = .ok (.writePadcfg 65535 .k2 0xFFFFFFFF#32) := rfl

theorem witness_IllegalWordsEndWithIllegalCommand :
    paramsWf Params.example = true ∧ (agentTurn (State.reset.withFetchWord 32 0)).queue = [⟨⟨0, 0, 0, 0⟩, Table.empty⟩] ∧
      ¬ legalWords ⟨0, 0, 0, 0⟩ := ⟨by decide, rfl, by simp [legalWords]⟩

theorem witness_StepRunsDecodedCommand :
    paramsWf s0.params = true ∧ (agentTurn (s0.withFetchWord 32 0x98000000)).queue = [⟨⟨0x98000000, 0, 0, 0⟩, Table.empty⟩] ∧
      decode ⟨0x98000000, 0, 0, 0⟩ = .ok .suspend ∧ (agentTurn s0).queue = [] := ⟨by decide, rfl, rfl, rfl⟩

theorem witness_IllFormedInstanceIsRefused : ¬ paramsMeetR8 { Params.example with padcfgStride := 8 } := by
  simp [paramsMeetR8]

theorem witness_AgentNeverClearsPending :
    s0.initialized = true ∧ table0.communities[1]? = some com1 ∧ isActive s0 1 = true ∧ com1.isOffset ≠ 0 ∧
      grp0 ∈ groupsOf com1 ∧
      ((at0 [(0x20100, 0x80000000)]).mem.readWord (groupReg com1 grp0 com1.isOffset)).getLsbD 31 = true := by
  decide +kernel

/-- Before `INIT` and after it; a pin with and without GPI_IS; a pin of an active and of an inactive community. -/
theorem witness_AgentStepEffects :
    (State.reset.initialized = false ∧ onBus 0x204A0) ∧ s0.initialized = true ∧
    regAddr s0.params s0.table 42 .gpiIs = some 0x20100 ∧ regAddr bare.params bare.table 42 .gpiIs = none ∧
    (resolve s0.table 42 = some loc0 ∧ isActive s0 loc0.c = true ∧ isActive asleep loc0.c = false ∧
      asleep.table = s0.table ∧ regAddr s0.params s0.table 42 .hostswOwn = some 0x200B0) ∧
    tableWf asleep.params asleep.table = true ∧ layoutDistinct asleep.params asleep.table :=
  ⟨by decide, rfl, by decide +kernel, by decide +kernel, by decide +kernel, table0_accepted.2, table0_distinct⟩

theorem witness_ReadsHaveNoSideEffect : onBus 0x200B0 ∧ Quiet s0 ∧ onBus (2 ^ 64 - 4) := by decide

theorem witness_RegisterWriteEffects :
    isStatusReg table0 (fun _ => true) 0x20104 = true ∧
    (isStatusReg table0 (fun _ => true) 0x204A8 = false ∧ isLockedPadcfg (at0 [(0x20080, 0x400)]) 0x204A8 = true) ∧
    (isStatusReg table0 (fun _ => true) 0x204A8 = false ∧ isLockedPadcfg s0 0x204A8 = false) := by decide +kernel

theorem witness_MisalignedAccessIsRefused : 0x20102 % 4 ≠ 0 := by decide

theorem witness_InitInstallsTable :
    State.reset.initialized = false ∧ tableWf State.reset.params { State.reset with handed := table0 }.handed = true :=
  ⟨rfl, table0_accepted.2⟩

theorem witness_InitRefusesBadTable :
    State.reset.initialized = false ∧ tableWf Params.example (tableOf com1 com0) = false := ⟨rfl, by decide +kernel⟩

theorem witness_SecondInitIsRefused : s0.initialized = true := rfl

theorem witness_NothingRunsBeforeInit : Instr.suspend ≠ .init ∧ State.reset.initialized = false := by decide

theorem witness_TableNeverChangesAfterInit :
    s0.initialized = true ∧ ∃ t, step (s0.withFetchWord 32 0x08000000) = .next t :=
  ⟨rfl, (of_out (f := (·.respCode)) (b := 0x0B#8) (by decide +kernel)).imp fun _ h => h.1⟩

theorem witness_AcceptedTablesResolve :
    tableWf Params.example table0 = true ∧ resolve table0 79 = some ⟨1, 1, com1, grp1⟩ ∧ resolve table0 80 = none :=
  ⟨table0_accepted.2, by decide +kernel⟩

theorem witness_ResolveIsUnique : tableWf Params.example table0 = true ∧ 79 ∈ table0.pins.map (·.number) :=
  ⟨table0_accepted.2, by decide +kernel⟩

theorem witness_AddressesAreOnBus :
    paramsWf Params.example = true ∧ tableWf Params.example table0 = true ∧
      regAddr Params.example table0 79 .padcfg2 = some 0x206F8 ∧ regAddr Params.example table0 79 .gpiIs = some 0x20104 :=
  ⟨table0_accepted.1, table0_accepted.2, by decide +kernel⟩

theorem witness_ResolveAnswersPlace : s0.initialized = true ∧ resolve s0.table 42 = some loc0 :=
  ⟨rfl, by decide +kernel⟩

/-- Both clauses of a community-wide kind: present, and absent. -/
theorem witness_RegaddrAnswersAddress :
    (s0.initialized = true ∧ resolve s0.table 42 = some loc0 ∧ loc0.com.isOffset ≠ 0) ∧
    (bare.initialized = true ∧ resolve bare.table 42 = some (loc42 bareCom1) ∧ bareCom1.isOffset = 0) := by
  decide +kernel

theorem witness_UnresolvedPinsAreRefused : s0.initialized = true ∧ resolve s0.table 80 = none := by decide +kernel

theorem witness_InactiveCommunityIsRefused :
    asleep.initialized = true ∧ resolve asleep.table 42 = some loc0 ∧ isActive asleep loc0.c = false ∧
      loc0.com.hostOwnerOffset ≠ 0 ∧ loc0.com.padConfigLockOffset ≠ 0 ∧ loc0.com.interruptEnableOffset ≠ 0 ∧
      0 ≤ loc0.grp.gpioBase ∧ (irqOf asleep 42).trig = none ∧ (irqOf asleep 42).state = .unregistered ∧
      (irqOf (withIrq 42 .masked asleep) 42).state ≠ .unregistered := by decide +kernel

theorem inv_s0 : Invariant s0 := by unfold Invariant; decide +kernel

theorem witness_WorkingStateNeverInactive :
    Invariant s0 ∧ s0.suspended = false ∧ ∃ t, exec (.readPadcfg 42 .k0) s0 = .next t :=
  ⟨inv_s0, rfl, (of_out (f := (·.respCode)) (b := 0#8) (by decide +kernel)).imp fun _ h => h.1⟩

/-- With and without a host-ownership register. -/
theorem witness_OwnedByHostAnswers :
    (bare.initialized = true ∧ resolve bare.table 42 = some (loc42 bareCom1) ∧ bareCom1.hostOwnerOffset = 0) ∧
    (ready s42 ∧ loc0.com.hostOwnerOffset ≠ 0 ∧ onBus (hostReg loc0)) :=
  ⟨by decide +kernel, ready_s42, by decide⟩

theorem witness_AcpiModeAnswers : ready s42 ∧ onBus (padcfgReg s42.params loc0.com 42 0) := ⟨ready_s42, by decide⟩

/-- With and without a lock register. -/
theorem witness_LockCommandsAnswer :
    (bare.initialized = true ∧ resolve bare.table 42 = some (loc42 bareCom1) ∧ bareCom1.padConfigLockOffset = 0) ∧
    (ready s42 ∧ loc0.com.padConfigLockOffset ≠ 0 ∧ onBus (lockReg loc0)) :=
  ⟨by decide +kernel, ready_s42, by decide⟩

/-- Inactive, and active. -/
theorem witness_PinStatusAnswers :
    (asleep.initialized = true ∧ resolve asleep.table 42 = some loc0 ∧ isActive asleep loc0.c = false) ∧ ready s42 :=
  ⟨by decide +kernel, ready_s42⟩

theorem witness_ReadPadcfgAnswers : ready s42 ∧ ∀ k, onBus (padcfgReg s42.params loc0.com 42 (padIdxNum k)) :=
  ⟨ready_s42, fun k => by cases k <;> decide⟩

theorem witness_WritePadcfgWrites :
    ready s42 ∧ mayMutate s42.params loc0 42 s42.mem = true ∧ plainReg s42 (padcfgReg s42.params loc0.com 42 2) :=
  ⟨ready_s42, by decide +kernel⟩

/-- Not host-owned, in ACPI mode, and locked; unregistered and registered. -/
theorem witness_DeniedMutationsTouchNothing :
    ready s0 ∧ mayMutate s0.params loc0 42 s0.mem = false ∧
    mayMutate s0.params loc0 42 (at0 [(0x200B0, 0x400), (0x204A0, 0x1C00)]).mem = false ∧
    mayMutate s0.params loc0 42 (at0 [(0x200B0, 0x400), (0x20080, 0x400)]).mem = false ∧
    loc0.com.interruptEnableOffset ≠ 0 ∧ 0 ≤ loc0.grp.gpioBase ∧ (irqOf s0 42).state = .unregistered ∧
    (irqOf (withIrq 42 .masked s0) 42).state ≠ .unregistered :=
  ⟨ready_of rfl (by decide +kernel) (by decide +kernel) rfl rfl, by decide +kernel⟩

theorem witness_TriggerEncodingKeepsOtherBits :
    paramsWf Params.example = true ∧ (Params.example.trigMask * 2 ^ Params.example.trigShift).testBit 31 = false ∧
    decTrig Params.example 0x44000201#32 = none ∧ decTrig Params.example 0x02800000#32 = some .edgeFalling := by
  decide

theorem witness_SetTriggerTypeWrites :
    ready s42 ∧ mayMutate s42.params loc0 42 s42.mem = true ∧ plainReg s42 (padcfgReg s42.params loc0.com 42 0) :=
  ⟨ready_s42, by decide +kernel⟩

/-- A recorded type; none recorded and padcfg0 decodes; none recorded and it does not. -/
theorem witness_GetInterruptTypeAnswers :
    (irqOf (setIrq 42 ⟨.masked, 1, 2, 3, some .edgeFalling⟩ s42) 42).trig = some .edgeFalling ∧
    (ready s42 ∧ (irqOf s42 42).trig = none ∧ onBus (padcfgReg s42.params loc0.com 42 0) ∧
      decTrig s42.params (s42.mem.readWord 0x204A0) = none ∧ decTrig s42.params (s0.mem.readWord 0x204A0) = some .levelHigh) :=
  ⟨by decide +kernel, ready_s42, by decide +kernel⟩

/-- Unregistered for `MASK_UNMASK`, registered for `ENABLE` and `DISABLE`. -/
theorem witness_MaskCommandsWrite :
    ready s42 ∧ ready (withIrq 42 .masked s42) ∧ loc0.com.interruptEnableOffset ≠ 0 ∧ onBus (enableReg loc0) ∧
      mayMutate s42.params loc0 42 s42.mem = true ∧ (irqOf (withIrq 42 .masked s42) 42).state ≠ .unregistered ∧
      plainReg s42 (enableReg loc0) :=
  ⟨ready_s42, ready_of rfl (by decide +kernel) (by decide +kernel) rfl rfl, by decide +kernel⟩

/-- The enable bit 1 before, and 0 before. -/
theorem witness_MaskRoundTrip :
    ready s42 ∧ layoutDistinct s42.params s42.table ∧
      ((withRegs [(0x20120, 0x400)] s42).mem.readWord (enableReg loc0)).getLsbD 10 = true ∧
      ∀ s ∈ [s42, withRegs [(0x20120, 0x400)] s42], ∃ s1, exec (.maskUnmask 42 true) s = .next s1 ∧ s1.respCode = 0x00#8 ∧
        ∃ s2, exec (.maskUnmask 42 false) s1 = .next s2 ∧ s2.respCode = 0x00#8 := by
  have two (s : State)
      (h : (out (exec (.maskUnmask 42 true) s)).map (fun s1 =>
        (s1.respCode, (out (exec (.maskUnmask 42 false) s1)).map (·.respCode))) = some (0x00#8, some 0x00#8)) :
      ∃ s1, exec (.maskUnmask 42 true) s = .next s1 ∧ s1.respCode = 0x00#8 ∧
        ∃ s2, exec (.maskUnmask 42 false) s1 = .next s2 ∧ s2.respCode = 0x00#8 := by
    obtain ⟨s1, h1, h2⟩ := of_out h
    rw [Prod.mk.injEq] at h2
    exact ⟨s1, h1, h2.1, of_out h2.2⟩
  refine ⟨ready_s42, table0_distinct, by decide +kernel, fun s hs => ?_⟩
  rcases List.mem_cons.1 hs with rfl | hs
  · exact two _ (by decide +kernel)
  · rw [List.mem_singleton] at hs
    subst hs
    exact two _ (by decide +kernel)

theorem witness_RegisterInstalls :
    ready s42 ∧ 0 ≤ loc0.grp.gpioBase ∧ (irqOf s42 42).state = .unregistered ∧
      mayMutate s42.params loc0 42 s42.mem = true := ⟨ready_s42, by decide +kernel⟩

theorem witness_UnregisterClears :
    (withIrq 42 .unmasked s0).initialized = true ∧ resolve (withIrq 42 .unmasked s0).table 42 = some loc0 ∧
      (irqOf (withIrq 42 .unmasked s0) 42).state ≠ .unregistered := by decide +kernel

/-- A negative `gpio_base`; a registered pin; no GPI_IE register; an unregistered pin with one. -/
theorem witness_RegistrationErrors :
    (unmapped.initialized = true ∧ resolve unmapped.table 42 = some ⟨1, 0,
      { com1 with padGroups := some [{ grp0 with gpioBase := -1 }, grp1] }, { grp0 with gpioBase := -1 }⟩) ∧
    (resolve s0.table 42 = some loc0 ∧ 0 ≤ loc0.grp.gpioBase ∧ (irqOf (withIrq 42 .masked s0) 42).state ≠ .unregistered) ∧
    (bare.initialized = true ∧ resolve bare.table 42 = some (loc42 bareCom1) ∧ bareCom1.interruptEnableOffset = 0) ∧
    ((irqOf s0 42).state = .unregistered ∧ loc0.com.interruptEnableOffset ≠ 0) := by decide +kernel

theorem witness_InterruptStateMachine :
    (irqOf s42 42).state = .unregistered ∧
      ∃ t, exec (.register 42 1 2 3) s42 = .next t ∧ (irqOf t 42).state = .masked :=
  ⟨by decide +kernel, of_out (by decide +kernel)⟩

theorem witness_DispatchCompletes :
    s0.initialized = true ∧ paramsWf s0.params = true ∧ tableWf s0.params s0.table = true := ⟨rfl, table0_accepted⟩

/-- A pending state, with both pad groups of community 1 scanned. -/
theorem witness_DispatchDeliversAndDrains :
    layoutDistinct s0.params s0.table ∧ Quiet s0 ∧ isScanned s0 1 com1 = true ∧ grp1 ∈ groupsOf com1 ∧
      ∃ t, exec (.dispatch true) (withIrq 42 .unmasked (at0 [(0x20100, 0x400), (0x20104, 1)])) = .next t ∧
        t.events = [.callback 0x20 0x30 42] :=
  ⟨table0_distinct, rfl, by decide +kernel, by decide, of_out (by decide +kernel)⟩

theorem witness_ShouldSaveAnswers :
    ready s42 ∧ onBus (padcfgReg s42.params loc0.com 42 1) ∧ onBus (padcfgReg s42.params loc0.com 42 2) :=
  ⟨ready_s42, by decide⟩

theorem witness_SuspendTakesSnapshot :
    s42.initialized = true ∧ s42.suspended = false ∧ paramsWf s42.params = true ∧ tableWf s42.params s42.table = true ∧
      Quiet s42 := ⟨rfl, rfl, table0_accepted.1, table0_accepted.2, rfl⟩

theorem witness_RepeatedSuspendDoesNothing : asleep.initialized = true ∧ asleep.suspended = true := ⟨rfl, rfl⟩

theorem witness_RepeatedResumeDoesNothing : s0.initialized = true ∧ s0.suspended = false := ⟨rfl, rfl⟩

theorem witness_ResumeCompletes :
    asleep.initialized = true ∧ asleep.suspended = true ∧ paramsWf asleep.params = true ∧
      tableWf asleep.params asleep.table = true := ⟨rfl, rfl, table0_accepted.1, table0_accepted.2⟩

/-- Pins 42 and 70 unmasked in the suspend window. -/
def asleepArmed : State := withIrq 70 .unmasked (withIrq 42 .unmasked asleep)

/-- A saved, unlocked pin, a saved community, and a re-armed pin whose GPI_IE bit the resume leaves 1. -/
theorem witness_ResumeRestoresRegisters :
    layoutDistinct asleepArmed.params asleepArmed.table ∧ Quiet asleepArmed ∧ resolve asleepArmed.table 42 = some loc0 ∧
      (pinCtx asleepArmed 42).valid = true ∧ lockBitSet asleepArmed 42 = false ∧ (commCtx asleepArmed 1).valid = true ∧
      (groupsOf com1)[1]? = some grp1 ∧ com1.interruptEnableOffset ≠ 0 ∧
      ∃ t, exec .resume asleepArmed = .next t ∧ t.mem.readWord 0x20120 = 0x400#32 :=
  ⟨table0_distinct, rfl, by decide +kernel, by decide +kernel, by decide +kernel, rfl, rfl, by decide, of_out (by decide +kernel)⟩

/-- Pin 42 passes its guard after the restore and is re-armed; pin 70 fails it, is masked, and its owner is told. -/
theorem witness_ResumeRevalidatesPins :
    layoutDistinct asleepArmed.params asleepArmed.table ∧ Quiet asleepArmed ∧ resolve asleepArmed.table 42 = some loc0 ∧
      ∃ t, exec .resume asleepArmed = .next t ∧
        (rearms asleepArmed t.mem 42, rearms asleepArmed t.mem 70, (irqOf t 42).state, (irqOf t 70).state, t.events) =
          (true, false, .unmasked, .masked, [.advisory 0x10 70]) :=
  ⟨table0_distinct, rfl, by decide +kernel, of_out (by decide +kernel)⟩

/-- Unmasked and passing; unmasked and failing; unmasked without a GPI_IE register; masked. -/
theorem witness_RevalidateRearmsOrTells :
    ready (withIrq 42 .unmasked s42) ∧ onBus (enableReg loc0) ∧
    ((irqOf (withIrq 42 .unmasked s42) 42).state = .unmasked ∧ mayMutate s42.params loc0 42 s42.mem = true ∧
      plainReg s42 (enableReg loc0)) ∧
    mayMutate s0.params loc0 42 s0.mem = false ∧ bareCom1.interruptEnableOffset = 0 ∧
    (irqOf (withIrq 42 .masked s42) 42).state = .masked :=
  ⟨ready_of rfl (by decide +kernel) (by decide +kernel) rfl rfl, by decide, by decide +kernel⟩

theorem witness_SuspendResumeRoundTrip :
    s42.initialized = true ∧ s42.suspended = false ∧ layoutDistinct s42.params s42.table ∧ Quiet s42 ∧
      ∃ s1, exec .suspend s42 = .next s1 ∧ ∃ s2, exec .resume s1 = .next s2 ∧ s2.mem.readWord 0x204A0 = 0x44000201#32 := by
  obtain ⟨s1, h1, h2⟩ := of_out (r := exec .suspend s42)
    (f := fun s1 => (out (exec .resume s1)).map (fun s2 => s2.mem.readWord 0x204A0)) (b := some 0x44000201#32)
    (by decide +kernel)
  exact ⟨rfl, rfl, table0_distinct, rfl, s1, h1, of_out h2⟩

theorem witness_StepKeepsInvariant :
    Invariant { s0 with queue := [⟨⟨0x98000000, 0, 0, 0⟩, Table.empty⟩] } ∧
      ∃ t, step { s0 with queue := [⟨⟨0x98000000, 0, 0, 0⟩, Table.empty⟩] } = .next t ∧ t.suspended = true :=
  ⟨inv_s0, of_out (by decide +kernel)⟩

theorem witness_StepAlwaysCompletes : Invariant s0 ∧ Invariant State.reset := ⟨inv_s0, by unfold Invariant; decide +kernel⟩

theorem witness_LogsOnlyGrow : ∃ t, step (s0.withFetchWord 32 0x98000000) = .next t ∧ t.trace.length = 86 :=
  of_out (by decide +kernel)

end Sys2Proof.Tests
end

section
/-! PROOFS. Scope and progress (spec/00_scope.md R7, R8, R12): which parameter sets run, that every register of an accepted
table lies on the bus, that no step faults or is refused from a state with the invariant, and that the logs only grow.

The last two rest on one notion, `Orderly`: a piece of a command, run after the command started in a state, answers a next
state with the configuration unchanged and the logs grown, and stops only under a configuration that `INIT` does not accept.
Each piece is shown orderly once, from the pieces it is made of. -/

namespace Sys2Proof.Machine

/-! ## What a command other than `INIT` keeps -/

/-- The configuration is as it was, and the logs only grew (R7, R36). -/
structure Steady (s t : State) : Prop where
  params : t.params = s.params
  table : t.table = s.table
  events : s.events <+: t.events
  trace : s.trace <+: t.trace

theorem Steady.refl (s : State) : Steady s s := ⟨rfl, rfl, List.prefix_rfl, List.prefix_rfl⟩

theorem Steady.trans {a b c : State} (h : Steady a b) (h' : Steady b c) : Steady a c :=
  ⟨h'.params.trans h.params, h'.table.trans h.table, h.events.trans h'.events, h.trace.trans h'.trace⟩

/-- An update that writes neither configuration nor logs. -/
theorem Steady.update {s u t : State} (h : Steady s u) (hp : t.params = u.params := by rfl)
    (ht : t.table = u.table := by rfl) (he : t.events = u.events := by rfl) (hm : t.trace = u.trace := by rfl) :
    Steady s t :=
  ⟨hp ▸ h.params, ht ▸ h.table, he ▸ h.events, hm ▸ h.trace⟩

theorem Steady.emit {s u : State} (h : Steady s u) (e : Event) : Steady s (emit e u) :=
  ⟨h.params, h.table, h.events.trans (List.prefix_append _ _), h.trace⟩

theorem Steady.of_busOnly {s u t : State} (h : Steady s u) (hb : busOnly u t) : Steady s t := by
  obtain ⟨hs, -, ms, hm⟩ := hb
  exact h.trans ⟨sameBlock_params hs, sameBlock_table hs, (sameBlock_events hs).symm ▸ List.prefix_rfl,
    hm ▸ List.prefix_append _ _⟩

theorem Steady.deliverBits {s u : State} (h : Steady s u) (G : PadGroup) (v : Word) (is : List Nat) :
    Steady s (deliverBits G v is u) := by
  rw [deliverBits_spec]
  exact ⟨h.params, h.table, h.events.trans (List.prefix_append _ _), h.trace⟩

theorem Steady.resolve {s u : State} (h : Steady s u) {pin : Nat} {loc : Loc}
    (hr : Machine.resolve u.table pin = some loc) : Machine.resolve s.table pin = some loc := h.table ▸ hr

theorem Steady.configOk {s u : State} (h : Steady s u) : configOk u = configOk s := by
  simp only [Machine.configOk, h.params, h.table]

/-! ## Orderly pieces -/

section
variable {α β : Type}

/-- A piece of a command that started in `s` ends in a steady state, which `stateOf` takes from its answer; it stops only
under a configuration that `INIT` does not accept. -/
def OrderlyVia (stateOf : β → State) (s : State) : Host.Outcome β Fault Refusal → Prop
  | .next x => Steady s (stateOf x)
  | .fault _ => configOk s = false
  | .refused _ => configOk s = false

/-- An orderly piece that answers a state. -/
abbrev Orderly (s : State) (r : Out) : Prop := OrderlyVia id s r

/-- An orderly piece that answers a value and a state. -/
abbrev OrderlyRun (s : State) (r : Run α) : Prop := OrderlyVia Prod.snd s r

theorem OrderlyVia.steady {stateOf : β → State} {s : State} {x : β} (h : OrderlyVia stateOf s (.next x)) :
    Steady s (stateOf x) := h

theorem OrderlyVia.completes {stateOf : β → State} {s : State} {r : Host.Outcome β Fault Refusal}
    (h : OrderlyVia stateOf s r) (hc : configOk s = true) : ∃ x, r = .next x := by
  cases r with
  | next x => exact ⟨x, rfl⟩
  | fault f => exact absurd (hc.symm.trans h) (by simp)
  | refused x => exact absurd (hc.symm.trans h) (by simp)

/-- What is steady where it answers, and answers under an accepted configuration, is orderly. -/
theorem OrderlyVia.intro {stateOf : β → State} {s : State} {r : Host.Outcome β Fault Refusal}
    (steady : ∀ x, r = .next x → Steady s (stateOf x)) (completes : configOk s = true → ∃ x, r = .next x) :
    OrderlyVia stateOf s r := by
  have stops (h : ¬ ∃ x, r = .next x) : configOk s = false := by simpa using mt completes h
  cases r with
  | next x => exact steady x rfl
  | fault f => exact stops (by simp)
  | refused x => exact stops (by simp)

theorem OrderlyVia.andThen {stateOf : β → State} {s : State} {r : Run α} {k : α → State → Host.Outcome β Fault Refusal}
    (hr : OrderlyRun s r) (hk : ∀ v u, Steady s u → OrderlyVia stateOf s (k v u)) :
    OrderlyVia stateOf s (r.andThen k) := by
  cases r with
  | next x => exact hk x.1 x.2 hr
  | fault f => exact hr
  | refused x => exact hr

theorem Orderly.thenState {s : State} {r : Out} {k : State → Out} (hr : Orderly s r)
    (hk : ∀ u, Steady s u → Orderly s (k u)) : Orderly s (thenState r k) := by
  cases r with
  | next u => exact hk u hr
  | fault f => exact hr
  | refused x => exact hr

/-- A loop of orderly rounds is orderly. -/
theorem Orderly.forEach {s : State} {f : α → State → Out} {xs : List α}
    (hf : ∀ x ∈ xs, ∀ u, Steady s u → Orderly s (f x u)) {u : State} (hu : Steady s u) :
    Orderly s (forEach xs f u) := by
  induction xs generalizing u with
  | nil => exact hu
  | cons x rest ih =>
    exact (hf x (List.mem_cons_self ..) u hu).thenState fun v hv =>
      ih (fun y hy => hf y (List.mem_cons_of_mem _ hy)) hv

end

/-! ## The bus -/

theorem configOk_iff {s : State} : configOk s = true ↔ paramsWf s.params = true ∧ tableWf s.params s.table = true := by
  simp [configOk]

theorem orderly_memRead {s u : State} (hu : Steady s u) {a : Nat} (ha : configOk s = true → onBus a) :
    OrderlyRun s (memRead a u) :=
  .intro (fun _ h => hu.of_busOnly (memRead_busOnly h)) fun hc => ⟨_, memRead_onBus a u (ha hc)⟩

theorem orderly_memWrite {s u : State} (hu : Steady s u) {a : Nat} (ha : configOk s = true → onBus a) (v : Word) :
    Orderly s (memWrite a v u) :=
  .intro (fun _ h => hu.of_busOnly (memWrite_busOnly h)) fun hc => ⟨_, memWrite_onBus a v u (ha hc)⟩

/-- A present register of a community lies on the bus under an accepted configuration. -/
theorem communityReg_onBus {s : State} {C : Community} (hC : C ∈ s.table.communities) {G : PadGroup}
    (hG : G ∈ groupsOf C) {o : Nat} (ho : o ∈ scopedOffsets C) (h0 : o ≠ 0) (hc : configOk s = true) :
    onBus (groupReg C G o) :=
  groupReg_onBus (configOk_iff.1 hc).2 hC hG ho h0

/-- A present register of a resolving pin's pad group lies on the bus under an accepted configuration. -/
theorem pinGroupReg_onBus {s : State} {pin : Nat} {loc : Loc} (hr : resolve s.table pin = some loc) {o : Nat}
    (ho : o ∈ scopedOffsets loc.com) (h0 : o ≠ 0) (hc : configOk s = true) : onBus (groupReg loc.com loc.grp o) :=
  communityReg_onBus (resolve_com_mem hr) (resolve_grp_mem (configOk_iff.1 hc).2 hr) ho h0 hc

/-- A resolving pin's padcfg registers lie on the bus under an accepted configuration, wherever the command stands. -/
theorem pinPadcfg_onBus {s u : State} (hu : Steady s u) {pin : Nat} {loc : Loc} (hr : resolve s.table pin = some loc)
    {k : Nat} (hk : k ≤ 2) (hc : configOk s = true) : onBus (padcfgReg u.params loc.com pin k) := by
  obtain ⟨hp, hw⟩ := configOk_iff.1 hc
  obtain ⟨-, h1, h2, -⟩ := resolve_some hr
  rw [hu.params]
  exact padcfgReg_onBus hp hw (resolve_com_mem hr) h1 h2 hk

theorem padIdxNum_le (k : PadIdx) : padIdxNum k ≤ 2 := by cases k <;> decide

section
variable {s u : State} {pin : Nat} {loc : Loc}

/-! ## The guard -/

theorem orderly_hostBit (hu : Steady s u) (hr : resolve s.table pin = some loc) : OrderlyRun s (hostBit loc pin u) := by
  unfold hostBit
  split
  · exact hu
  · next h0 => exact .andThen (orderly_memRead hu (pinGroupReg_onBus hr (by simp [scopedOffsets]) h0)) fun _ _ h => h

theorem orderly_acpi (hu : Steady s u) (hr : resolve s.table pin = some loc) : OrderlyRun s (acpi loc pin u) :=
  .andThen (orderly_memRead hu (pinPadcfg_onBus hu hr (by omega))) fun _ _ h => h

theorem orderly_lockState (hu : Steady s u) (hr : resolve s.table pin = some loc) :
    OrderlyRun s (lockState loc pin u) := by
  unfold lockState
  split
  · exact hu
  · next h0 => exact .andThen (orderly_memRead hu (pinGroupReg_onBus hr (by simp [scopedOffsets]) h0)) fun _ _ h => h

theorem orderly_guard (hu : Steady s u) (hr : resolve s.table pin = some loc) : OrderlyRun s (guard loc pin u) := by
  refine .intro (fun _ h => hu.of_busOnly (guard_busOnly h)) fun hc => ?_
  obtain ⟨hp, hw⟩ := configOk_iff.1 hc
  obtain ⟨v, t, e⟩ := guard_completes loc pin u (by rw [hu.params]; exact guardOnBus_of_resolve hp hw hr)
  exact ⟨_, e⟩

/-! ## The checks of a command -/

theorem orderly_whenInit {k : Out} (hu : Steady s u) (hk : Orderly s k) : Orderly s (whenInit u k) := by
  unfold whenInit
  split
  · exact hk
  · exact hu.update

theorem orderly_whenResolved {k : Loc → Out} (e : ResultCode) (hu : Steady s u)
    (hk : ∀ loc, resolve s.table pin = some loc → Orderly s (k loc)) : Orderly s (whenResolved e pin u k) := by
  unfold whenResolved
  split
  · exact hu.update
  · next loc hr => exact hk loc (hu.resolve hr)

theorem orderly_whenActive {k : Out} (i : Instr) (hu : Steady s u) (hk : Orderly s k) :
    Orderly s (whenActive i pin loc u k) := by
  unfold whenActive
  split
  · exact hk
  · exact (hu.emit _).update

theorem orderly_whenGuarded {k : State → Out} (hu : Steady s u) (hr : resolve s.table pin = some loc)
    (hk : ∀ u', Steady s u' → Orderly s (k u')) : Orderly s (whenGuarded loc pin u k) := by
  refine .andThen (orderly_guard hu hr) fun v u' h => ?_
  cases v with
  | ownershipDenied => exact h.update
  | locked => exact h.update
  | pass => exact hk u' h

/-! ## Guard and resolver commands -/

theorem orderly_resolve (hu : Steady s u) : Orderly s (execResolve pin u) :=
  orderly_whenInit hu <| orderly_whenResolved _ hu fun _ _ => hu.update

theorem orderly_regaddr (kind : RegKind) (hu : Steady s u) : Orderly s (execRegaddr pin kind u) := by
  refine orderly_whenInit hu ?_
  split <;> exact hu.update

theorem orderly_ownedByHost (hu : Steady s u) : Orderly s (execOwnedByHost pin u) := by
  refine orderly_whenInit hu <| orderly_whenResolved _ hu fun loc hr => ?_
  split
  · exact hu.update
  · exact orderly_whenActive _ hu <| .andThen (orderly_hostBit hu hr) fun _ _ h => h.update

theorem orderly_acpiMode (hu : Steady s u) : Orderly s (execAcpiMode pin u) :=
  orderly_whenInit hu <| orderly_whenResolved _ hu fun _ hr => orderly_whenActive _ hu <|
    .andThen (orderly_acpi hu hr) fun _ _ h => h.update

theorem orderly_locked (hu : Steady s u) : Orderly s (execLocked pin u) := by
  refine orderly_whenInit hu <| orderly_whenResolved _ hu fun loc hr => ?_
  split
  · exact hu.update
  · exact orderly_whenActive _ hu <| .andThen (orderly_lockState hu hr) fun _ _ h => h.update

theorem orderly_isUnlocked (hu : Steady s u) : Orderly s (execIsUnlocked pin u) := by
  refine orderly_whenInit hu <| orderly_whenResolved _ hu fun loc hr => ?_
  split
  · exact hu.update
  · exact orderly_whenActive _ hu <| .andThen (orderly_lockState hu hr) fun _ _ h => h.update

theorem orderly_getPinStatus (hu : Steady s u) : Orderly s (execGetPinStatus pin u) := by
  refine orderly_whenInit hu ?_
  split
  · exact hu.update
  · next loc hr =>
    split
    · exact hu.update
    · exact .andThen (orderly_guard hu (hu.resolve hr)) fun _ _ h => h.update

theorem orderly_readPadcfg (k : PadIdx) (hu : Steady s u) : Orderly s (execReadPadcfg pin k u) :=
  orderly_whenInit hu <| orderly_whenResolved _ hu fun _ hr => orderly_whenActive _ hu <|
    .andThen (orderly_memRead hu (pinPadcfg_onBus hu hr (padIdxNum_le k))) fun _ _ h => h.update

theorem orderly_writePadcfg (k : PadIdx) (value : Word) (hu : Steady s u) :
    Orderly s (execWritePadcfg pin k value u) :=
  orderly_whenInit hu <| orderly_whenResolved _ hu fun _ hr => orderly_whenActive _ hu <|
    orderly_whenGuarded hu hr fun _ h1 =>
      (orderly_memWrite h1 (pinPadcfg_onBus h1 hr (padIdxNum_le k)) value).thenState fun _ h2 => h2.update

/-! ## Interrupt commands -/

theorem orderly_setTriggerType (type : TrigType) (hu : Steady s u) : Orderly s (execSetTriggerType pin type u) :=
  orderly_whenInit hu <| orderly_whenResolved _ hu fun _ hr => orderly_whenActive _ hu <|
    orderly_whenGuarded hu hr fun _ h1 =>
      have ha := pinPadcfg_onBus h1 hr (by omega)
      .andThen (orderly_memRead h1 ha) fun _ _ h2 => (orderly_memWrite h2 ha _).thenState fun _ h3 => h3.update

theorem orderly_getInterruptType (hu : Steady s u) : Orderly s (execGetInterruptType pin u) := by
  refine orderly_whenInit hu <| orderly_whenResolved _ hu fun loc hr => ?_
  split
  · exact hu.update
  · refine orderly_whenActive _ hu <| .andThen (orderly_memRead hu (pinPadcfg_onBus hu hr (by omega))) fun v u1 h => ?_
    split <;> exact h.update

theorem orderly_maskSequence (i : Instr) (mask : Bool) (hu : Steady s u) (hr : resolve s.table pin = some loc)
    (h0 : loc.com.interruptEnableOffset ≠ 0) : Orderly s (maskSequence i pin mask loc u) := by
  have ha := pinGroupReg_onBus hr (by simp [scopedOffsets]) h0
  refine orderly_whenActive _ hu <| orderly_whenGuarded hu hr fun u1 h1 =>
    .andThen (orderly_memRead h1 ha) fun v u2 h2 => (orderly_memWrite h2 ha _).thenState fun u3 h3 => ?_
  dsimp only
  split <;> exact h3.update

theorem orderly_maskUnmask (mask : Bool) (hu : Steady s u) : Orderly s (execMaskUnmask pin mask u) := by
  refine orderly_whenInit hu <| orderly_whenResolved _ hu fun loc hr => ?_
  split
  · exact hu.update
  · next h0 => exact orderly_maskSequence _ mask hu hr h0

theorem orderly_registeredMask (i : Instr) (mask : Bool) (hu : Steady s u) :
    Orderly s (registeredMask i pin mask u) := by
  refine orderly_whenInit hu <| orderly_whenResolved _ hu fun loc hr => ?_
  split
  · exact hu.update
  · next h0 =>
    split
    · exact hu.update
    · exact orderly_maskSequence _ mask hu hr h0

theorem orderly_register (owner callback context : Word64) (hu : Steady s u) :
    Orderly s (execRegister pin owner callback context u) := by
  refine orderly_whenInit hu <| orderly_whenResolved _ hu fun loc hr => ?_
  split
  · exact hu.update
  · split
    · exact hu.update
    · exact orderly_whenActive _ hu <| orderly_whenGuarded hu hr fun _ h => h.update

theorem orderly_unregister (hu : Steady s u) : Orderly s (execUnregister pin u) := by
  refine orderly_whenInit hu <| orderly_whenResolved _ hu fun loc hr => ?_
  split <;> exact hu.update

/-! ## The dispatch pass -/

theorem orderly_scanGroup {C : Community} {G : PadGroup} (hC : C ∈ s.table.communities) (hG : G ∈ groupsOf C)
    (h0 : C.isOffset ≠ 0) (hu : Steady s u) : Orderly s (scanGroup C G u) := by
  have ha := communityReg_onBus hC hG (by simp [scopedOffsets]) h0
  refine .andThen (orderly_memRead hu ha) fun v u1 h1 => ?_
  split
  · exact h1
  · exact (orderly_memWrite h1 ha v).thenState fun u2 h2 => h2.deliverBits G v _

theorem orderly_scanCommunity {x : Nat × Community} (hC : x.2 ∈ s.table.communities) (hu : Steady s u) :
    Orderly s (scanCommunity x u) := by
  unfold scanCommunity
  split
  · exact hu
  · next h =>
    have h0 : x.2.isOffset ≠ 0 := fun h0 => h (.inr (.inr h0))
    exact (Orderly.forEach (fun G hG u1 h1 => orderly_scanGroup hC hG h0 h1) hu.update).thenState fun _ h2 => h2.update

/-- A loop over the communities of the table that stands when the loop begins. -/
theorem orderly_forEachCommunity {f : Nat × Community → State → Out}
    (hf : ∀ x, x.2 ∈ s.table.communities → ∀ u', Steady s u' → Orderly s (f x u')) {T : Table} (hT : T = s.table)
    (hu : Steady s u) : Orderly s (forEach (indexedFrom 0 T.communities) f u) := by
  subst hT
  exact .forEach (fun x hx u' h => hf x (List.mem_of_getElem? (mem_indexedFrom_zero.1 hx)) u' h) hu

theorem orderly_dispatch (first : Bool) (hu : Steady s u) : Orderly s (execDispatch first u) := by
  have hs : Steady s (if first then settle u else u) := by
    split
    · exact hu.of_busOnly (settle_busOnly u)
    · exact hu
  exact orderly_whenInit hu <|
    (orderly_forEachCommunity (fun _ hC _ h => orderly_scanCommunity hC h) hu.table hs).thenState fun _ h => h.update

/-! ## Suspend -/

theorem orderly_differsFromDefault (hr : resolve s.table pin = some loc) {ks : List Nat} (hk : ∀ k ∈ ks, k ≤ 2)
    (hu : Steady s u) : OrderlyRun s (differsFromDefault loc pin ks u) := by
  induction ks generalizing u with
  | nil => exact hu
  | cons k rest ih =>
    simp only [List.mem_cons, forall_eq_or_imp] at hk
    refine .andThen (orderly_memRead hu (pinPadcfg_onBus hu hr hk.1)) fun v u1 h1 => ?_
    split
    · exact h1
    · exact ih hk.2 h1

theorem orderly_saveTest (hu : Steady s u) (hr : resolve s.table pin = some loc) :
    OrderlyRun s (saveTest loc pin u) := by
  refine .andThen (orderly_hostBit hu hr) fun host u1 h1 => ?_
  split
  · exact h1
  · refine .andThen (orderly_lockState h1 hr) fun lock u2 h2 => ?_
    split
    · exact h2
    · exact orderly_differsFromDefault hr (by simp) h2

theorem orderly_shouldSave (hu : Steady s u) : Orderly s (execShouldSave pin u) :=
  orderly_whenInit hu <| orderly_whenResolved _ hu fun _ hr => orderly_whenActive _ hu <|
    .andThen (orderly_saveTest hu hr) fun _ _ h => h.update

theorem orderly_snapshotReg {C : Community} {G : PadGroup} {o : Nat} {store : Word → State → State}
    (hC : C ∈ s.table.communities) (hG : G ∈ groupsOf C) (ho : o ∈ scopedOffsets C)
    (hstore : ∀ v u', Steady s u' → Steady s (store v u')) (hu : Steady s u) :
    Orderly s (snapshotReg C G o store u) := by
  unfold snapshotReg
  split
  · exact hu
  · next h0 => exact .andThen (orderly_memRead hu (communityReg_onBus hC hG ho h0)) hstore

theorem orderly_snapshotCommunity {x : Nat × Community} (hC : x.2 ∈ s.table.communities) (hu : Steady s u) :
    Orderly s (snapshotCommunity x u) := by
  refine (Orderly.forEach (fun y hy u1 h1 => ?_) hu).thenState fun _ h => h.update
  have hG := List.mem_of_getElem? (mem_indexedFrom_zero.1 hy)
  exact (orderly_snapshotReg hC hG (by simp [scopedOffsets]) (fun _ _ h => h.update) h1).thenState fun _ h2 =>
    orderly_snapshotReg hC hG (by simp [scopedOffsets]) (fun _ _ h => h.update) h2

theorem orderly_readPadcfgs (hu : Steady s u) (hr : resolve s.table pin = some loc) :
    OrderlyRun s (readPadcfgs loc pin u) :=
  .andThen (orderly_memRead hu (pinPadcfg_onBus hu hr (by omega))) fun _ _ h1 =>
    .andThen (orderly_memRead h1 (pinPadcfg_onBus h1 hr (by omega))) fun _ _ h2 =>
      .andThen (orderly_memRead h2 (pinPadcfg_onBus h2 hr (by omega))) fun _ _ h3 => h3

theorem orderly_snapshotPin (hu : Steady s u) : Orderly s (snapshotPin pin u) := by
  unfold snapshotPin
  split
  · exact hu
  · next loc hr =>
    refine .andThen (orderly_saveTest hu (hu.resolve hr)) fun save u1 h1 => ?_
    split
    · exact .andThen (orderly_readPadcfgs h1 (hu.resolve hr)) fun _ _ h2 => h2.update
    · exact h1

theorem orderly_suspendSequence (hu : Steady s u) : Orderly s (suspendSequence u) := by
  unfold suspendSequence
  split
  · exact hu.update
  · exact (orderly_forEachCommunity (fun _ hC _ h => orderly_snapshotCommunity hC h) hu.table hu.update).thenState
      fun _ h1 => (Orderly.forEach (fun _ _ _ h => orderly_snapshotPin h) h1).thenState fun _ h2 => h2.update

/-! ## Resume -/

theorem orderly_restoreKind {C : Community} {o : Nat} (words : List Word) (hC : C ∈ s.table.communities)
    (ho : o ∈ scopedOffsets C) (hu : Steady s u) : Orderly s (restoreKind C o words u) := by
  unfold restoreKind
  split
  · exact hu
  · next h0 =>
    refine .forEach (fun y hy u1 h1 => orderly_memWrite h1 ?_ _) hu
    exact communityReg_onBus hC (List.mem_of_getElem? (mem_indexedFrom_zero.1 hy)) ho h0

theorem orderly_restoreCommunity {x : Nat × Community} (hC : x.2 ∈ s.table.communities) (hu : Steady s u) :
    Orderly s (restoreCommunity x u) := by
  unfold restoreCommunity
  split
  · exact (orderly_restoreKind _ hC (by simp [scopedOffsets]) hu).thenState fun _ h1 =>
      orderly_restoreKind _ hC (by simp [scopedOffsets]) h1
  · exact hu

theorem orderly_restorePin (hu : Steady s u) : Orderly s (restorePin pin u) := by
  unfold restorePin
  split
  · exact hu
  · next loc hr =>
    have hb {u' : State} (h : Steady s u') {k : Nat} (hk : k ≤ 2) := pinPadcfg_onBus h (hu.resolve hr) hk
    dsimp only
    split
    · exact (orderly_memWrite hu (hb hu (by omega)) _).thenState fun _ h1 =>
        (orderly_memWrite h1 (hb h1 (by omega)) _).thenState fun _ h2 => orderly_memWrite h2 (hb h2 (by omega)) _
    · exact hu

theorem Steady.refuseRearm (h : Steady s u) (p : Nat) : Steady s (refuseRearm p u) :=
  (Steady.update (t := setIrq p { irqOf u p with state := .masked } u) h).emit _

theorem orderly_revalidate (hu : Steady s u) (hr : resolve s.table pin = some loc) :
    Orderly s (revalidate loc pin u) := by
  unfold revalidate
  split
  · split
    · exact hu.refuseRearm pin
    · next h =>
      have ha := pinGroupReg_onBus hr (by simp [scopedOffsets]) fun h0 => h (.inl h0)
      refine .andThen (orderly_guard hu hr) fun v u1 h1 => ?_
      split
      · exact .andThen (orderly_memRead h1 ha) fun _ _ h2 => orderly_memWrite h2 ha _
      · exact h1.refuseRearm pin
  · refine .andThen (orderly_guard hu hr) fun v u1 h1 => ?_
    show Steady s (if v = .pass then u1 else _)
    split
    · exact h1
    · exact h1.emit _

theorem orderly_revalidatePin (hu : Steady s u) : Orderly s (revalidatePin pin u) := by
  unfold revalidatePin
  split
  · exact hu
  · split
    · exact hu
    · next loc hr => exact orderly_revalidate hu (hu.resolve hr)

theorem orderly_resumeSequence (hu : Steady s u) : Orderly s (resumeSequence u) := by
  unfold resumeSequence
  split
  · exact hu.update
  · exact (orderly_forEachCommunity (fun _ hC _ h => orderly_restoreCommunity hC h) hu.table hu.update).thenState
      fun _ h1 => (Orderly.forEach (fun _ _ _ h => orderly_restorePin h) h1).thenState
        fun _ h2 => (Orderly.forEach (fun _ _ _ h => orderly_revalidatePin h) h2).thenState fun _ h3 => h3.update

theorem orderly_setPowerState (state : PowerState) (hu : Steady s u) : Orderly s (execSetPowerState state u) := by
  refine orderly_whenInit hu ?_
  cases state with
  | working => exact orderly_resumeSequence hu
  | sleeping => exact orderly_suspendSequence hu

end

/-! ## Every command -/

/-- Every command but `INIT`, which installs a table, is orderly. -/
theorem orderly_exec (i : Instr) (hi : i ≠ .init) (s : State) : Orderly s (exec i s) := by
  have h := Steady.refl s
  cases i with
  | init => exact absurd rfl hi
  | resolve pin => exact orderly_resolve h
  | regaddr pin kind => exact orderly_regaddr kind h
  | ownedByHost pin => exact orderly_ownedByHost h
  | acpiMode pin => exact orderly_acpiMode h
  | locked pin => exact orderly_locked h
  | isUnlocked pin => exact orderly_isUnlocked h
  | readPadcfg pin k => exact orderly_readPadcfg k h
  | writePadcfg pin k value => exact orderly_writePadcfg k value h
  | setTriggerType pin type => exact orderly_setTriggerType type h
  | getInterruptType pin => exact orderly_getInterruptType h
  | maskUnmask pin mask => exact orderly_maskUnmask mask h
  | register pin owner callback context => exact orderly_register owner callback context h
  | unregister pin => exact orderly_unregister h
  | enable pin => exact orderly_registeredMask _ false h
  | disable pin => exact orderly_registeredMask _ true h
  | dispatch first => exact orderly_dispatch first h
  | shouldSave pin => exact orderly_shouldSave h
  | suspend => exact orderly_whenInit h (orderly_suspendSequence h)
  | resume => exact orderly_whenInit h (orderly_resumeSequence h)
  | setPowerState state => exact orderly_setPowerState state h
  | getPinStatus pin => exact orderly_getPinStatus h

/-- `INIT` always answers, whatever table is handed over; it keeps parameters and logs. -/
theorem execInit_completes (s : State) :
    ∃ t, execInit s = .next t ∧ t.params = s.params ∧ t.events = s.events ∧ t.trace = s.trace := by
  unfold execInit
  split
  · exact ⟨_, rfl, rfl, rfl, rfl⟩
  · split <;> exact ⟨_, rfl, rfl, rfl, rfl⟩

/-- Under an accepted configuration every command answers. -/
theorem exec_completes (i : Instr) (s : State) (hc : configOk s = true) : ∃ t, exec i s = .next t := by
  by_cases hi : i = .init
  · subst hi
    obtain ⟨t, e, -⟩ := execInit_completes s
    exact ⟨t, e⟩
  · exact (orderly_exec i hi s).completes hc

/-- A command that answers keeps the parameters and adds to the logs only. -/
theorem exec_logsGrow {i : Instr} {s t : State} (h : exec i s = .next t) :
    t.params = s.params ∧ s.events <+: t.events ∧ s.trace <+: t.trace := by
  by_cases hi : i = .init
  · subst hi
    obtain ⟨t', e, hp, he, hm⟩ := execInit_completes s
    obtain rfl : t' = t := Host.Outcome.next.inj (e.symm.trans h)
    exact ⟨hp, he ▸ List.prefix_rfl, hm ▸ List.prefix_rfl⟩
  · have ho := orderly_exec i hi s
    rw [h] at ho
    obtain ⟨hp, -, he, hm⟩ := ho.steady
    exact ⟨hp, he, hm⟩

/-! ## The step -/

theorem steady_agentTurn (s : State) : Steady s (agentTurn s) := (Steady.refl s).of_busOnly (agentTurn_busOnly s)

theorem steady_accept (s : State) (sub : Submission) (rest : List Submission) :
    Steady s (accept sub rest (agentTurn s)) := (steady_agentTurn s).update

/-- What a step answers: a refusal under ill-formed parameters (R8), the agent's turn alone with nothing queued,
`IllegalCommand` for words that do not decode (R91), else what the command answers. -/
theorem step_cases (s : State) :
    (paramsWf s.params = false ∧ step s = .refused .illFormedInstance) ∨
    (paramsWf s.params = true ∧ (agentTurn s).queue = [] ∧ step s = .next (agentTurn s)) ∨
    (paramsWf s.params = true ∧ ∃ sub rest, (agentTurn s).queue = sub :: rest ∧
      ((∃ e, decode sub.words = .error e ∧ step s = .next (raise .illegalCommand (accept sub rest (agentTurn s)))) ∨
        ∃ i, decode sub.words = .ok i ∧ step s = exec i (accept sub rest (agentTurn s)))) := by
  unfold step
  split
  · next hp => exact .inl ⟨hp, rfl⟩
  · next hp =>
    have hp : paramsWf s.params = true := by simpa using hp
    dsimp only
    split
    · next hq => exact .inr (.inl ⟨hp, hq, rfl⟩)
    · next sub rest hq =>
      refine .inr (.inr ⟨hp, sub, rest, hq, ?_⟩)
      split
      · next e he => exact .inl ⟨e, he, rfl⟩
      · next i hi => exact .inr ⟨i, hi, rfl⟩

/-- Settles O58: every piece of every command is orderly, so none stops under the configuration the invariant gives. -/
theorem stepAlwaysCompletes : Obligations.StepAlwaysCompletes := by
  intro s hinv
  obtain ⟨hc, -⟩ := hinv
  rcases step_cases s with ⟨hp, -⟩ | ⟨-, -, h⟩ | ⟨-, sub, rest, -, ⟨_, -, h⟩ | ⟨i, -, h⟩⟩
  · exact absurd ((configOk_iff.1 hc).1.symm.trans hp) (by simp)
  · exact ⟨_, h⟩
  · exact ⟨_, h⟩
  · rw [h]
    exact exec_completes i _ ((steady_accept s sub rest).configOk.trans hc)

/-- Settles O59: the agent's turn, the gate and every command add to the logs only. -/
theorem logsOnlyGrow : Obligations.LogsOnlyGrow := by
  intro s t ht
  have grown {u : State} (hu : Steady s u) (h : t.params = u.params ∧ u.events <+: t.events ∧ u.trace <+: t.trace) :
      t.params = s.params ∧ (∃ es, t.events = s.events ++ es) ∧ ∃ ms, t.trace = s.trace ++ ms := by
    obtain ⟨hp, he, hm⟩ := h
    obtain ⟨es, hes⟩ := hu.events.trans he
    obtain ⟨ms, hms⟩ := hu.trace.trans hm
    exact ⟨hp.trans hu.params, ⟨es, hes.symm⟩, ms, hms.symm⟩
  rcases step_cases s with ⟨-, h⟩ | ⟨-, -, h⟩ | ⟨-, sub, rest, -, ⟨_, -, h⟩ | ⟨i, -, h⟩⟩ <;> rw [h] at ht
  · cases ht
  · cases ht; exact grown (steady_agentTurn s) ⟨rfl, List.prefix_rfl, List.prefix_rfl⟩
  · cases ht; exact grown (steady_accept s sub rest) ⟨rfl, List.prefix_rfl, List.prefix_rfl⟩
  · exact grown (steady_accept s sub rest) (exec_logsGrow ht)

/-! ## Parameters and addresses -/

/-- The check of a mask is R8's form 2^w - 1 with w above 0. -/
theorem isLowMask_iff (m : Nat) : isLowMask m = true ↔ maskForm m := by
  have hpow : m &&& (m + 1) = 0 ↔ (m + 1).isPowerOfTwo := by
    rw [Nat.and_comm]
    exact Nat.and_sub_one_eq_zero_iff_isPowerOfTwo (Nat.succ_ne_zero m)
  simp only [isLowMask, Bool.and_eq_true, bne_iff_ne, beq_iff_eq, hpow, maskForm]
  constructor
  · rintro ⟨h0, w, hw⟩
    refine ⟨w, Nat.pos_of_ne_zero ?_, hw⟩
    rintro rfl
    omega
  · rintro ⟨w, hw, h⟩
    have := Nat.one_lt_two_pow hw.ne'
    exact ⟨by omega, w, h⟩

/-- The parameter check is R8, constraint by constraint. -/
theorem paramsWf_iff (P : Params) : paramsWf P = true ↔ paramsMeetR8 P := by
  simp only [paramsWf, paramsMeetR8, Bool.and_eq_true, isLowMask_iff, Nat.shiftLeft_eq, decide_eq_true_eq,
    Bool.not_eq_true', bne_iff_ne, ne_eq, beq_iff_eq, and_assoc]

/-- Settles O6: the check is R8 itself, and a step that is not refused runs under parameters that pass it. -/
theorem illFormedInstanceIsRefused : Obligations.IllFormedInstanceIsRefused := by
  refine ⟨paramsWf_iff, fun s hs => ?_⟩
  rcases step_cases s with ⟨-, h⟩ | ⟨hp, -⟩ | ⟨hp, -⟩
  · exact h
  · exact absurd ((paramsWf_iff _).1 hp) hs
  · exact absurd ((paramsWf_iff _).1 hp) hs

/-- The two kinds of address that a pin has: its padcfg registers, and the present registers of its pad group (R112). -/
theorem Loc.addr_cases {P : Params} {loc : Loc} {pin a : Nat} {kind : RegKind} (h : loc.addr P pin kind = some a) :
    (∃ k ≤ 2, a = padcfgReg P loc.com pin k) ∨
      ∃ o ∈ scopedOffsets loc.com, o ≠ 0 ∧ a = groupReg loc.com loc.grp o := by
  have padcfg (k : Nat) (hk : k ≤ 2) (e : some (padcfgReg P loc.com pin k) = some a) :
      ∃ k ≤ 2, a = padcfgReg P loc.com pin k := ⟨k, hk, (Option.some.inj e).symm⟩
  have group {o : Nat} (ho : o ∈ scopedOffsets loc.com)
      (e : (if o = 0 then none else some (groupReg loc.com loc.grp o)) = some a) :
      ∃ o ∈ scopedOffsets loc.com, o ≠ 0 ∧ a = groupReg loc.com loc.grp o := by
    split at e
    · cases e
    · next h0 => exact ⟨o, ho, h0, (Option.some.inj e).symm⟩
  cases kind with
  | padcfg0 => exact .inl (padcfg 0 (by omega) h)
  | padcfg1 => exact .inl (padcfg 1 (by omega) h)
  | padcfg2 => exact .inl (padcfg 2 (by omega) h)
  | padOwner => exact .inr (group (by simp [scopedOffsets, kindOffset]) h)
  | padcfgLock => exact .inr (group (by simp [scopedOffsets, kindOffset]) h)
  | hostswOwn => exact .inr (group (by simp [scopedOffsets, kindOffset]) h)
  | gpiIe => exact .inr (group (by simp [scopedOffsets, kindOffset]) h)
  | gpiIs => exact .inr (group (by simp [scopedOffsets, kindOffset]) h)

/-- Settles O22: W8 and W9 put padcfg registers and pad-group registers on the bus. -/
theorem addressesAreOnBus : Obligations.AddressesAreOnBus := by
  intro P T p kind a hp hw h
  obtain ⟨loc, hr, ha⟩ := Option.bind_eq_some_iff.1 h
  obtain ⟨-, h1, h2, -⟩ := resolve_some hr
  have hC := resolve_com_mem hr
  rcases Loc.addr_cases ha with ⟨k, hk, rfl⟩ | ⟨o, ho, h0, rfl⟩
  · exact padcfgReg_onBus hp hw hC h1 h2 hk
  · exact groupReg_onBus hw hC (resolve_grp_mem hw hr) ho h0

end Sys2Proof.Machine
end

section
/-! PROOFS. The state and the step (spec/10_state.md): what reset holds, what the agent's turn leaves alone, what one step runs,
and that every step keeps the invariant.

For the invariant a command falls into stretches of three kinds. `Lawful`: bus accesses, events, a response, a pin's record; the
snapshots and the activity stay, so the whole invariant does. `Captured`: the middle of a suspend, which fills the snapshots in
their place. And the four points where a command sets flags or tables at once: `INIT`'s table, the power-down, the power-up and
the discarded snapshot. -/

namespace Sys2Proof.Machine

/-! ## Reset, the agent's turn, the step -/

/-- Settles O7: reset is written with these values. -/
theorem resetHoldsSpecValues : Obligations.ResetHoldsSpecValues := by
  refine ⟨?_, ?_, ?_, ?_, ?_, ?_, ?_, ?_, ?_, ?_, ?_, ?_, ?_, ?_, ?_, ?_, ?_⟩ <;> rfl

/-- Settles O8, from what each step of the agent can change. -/
theorem agentLeavesBlockAlone : Obligations.AgentLeavesBlockAlone := by
  intro s
  obtain ⟨hblock, -, hqueue⟩ := agentTurn_spec s
  exact ⟨hblock, hqueue⟩

/-- Settles O5: of the four answers of a step, the premises leave the one that the statement names. -/
theorem stepRunsDecodedCommand : Obligations.StepRunsDecodedCommand := by
  intro s hp
  refine ⟨fun sub rest i hq hd => ?_, fun hq => ?_⟩
  · rcases step_cases s with ⟨hp', -⟩ | ⟨-, hq', -⟩ | ⟨-, sub', rest', hq', h⟩
    · exact absurd (hp.symm.trans hp') (by simp)
    · exact absurd (hq.symm.trans hq') (by simp)
    · obtain ⟨rfl, rfl⟩ := List.cons.inj (hq.symm.trans hq')
      rcases h with ⟨e, he, -⟩ | ⟨j, hj, h⟩
      · exact absurd (hd.symm.trans he) (by simp)
      · obtain rfl : i = j := Except.ok.inj (hd.symm.trans hj)
        exact h
  · rcases step_cases s with ⟨hp', -⟩ | ⟨-, -, h⟩ | ⟨-, sub, rest, hq', -⟩
    · exact absurd (hp.symm.trans hp') (by simp)
    · exact h
    · exact absurd (hq.symm.trans hq') (by simp)

/-- Settles O56: the parameters of the test set meet R8, and the empty table asks for empty arrays. -/
theorem resetMeetsInvariant : Obligations.ResetMeetsInvariant := by
  have hconfig : configOk State.reset = true := configOk_iff.2 ⟨by decide, by decide⟩
  exact ⟨hconfig, rfl, rfl, rfl, rfl, rfl, rfl, rfl⟩

/-! ## Stores -/

section
variable {α β : Type}

theorem mem_storeFill {v : α} {ks : List Nat} {e : Nat × α} (h : e ∈ storeFill v ks) : e.2 = v := by
  induction ks with
  | nil => cases h
  | cons k rest ih =>
    rcases mem_storeSet h with rfl | h
    · rfl
    · exact ih h

/-- What a store reads is its default or one of its entries. -/
theorem storeGet_eq_or_mem (d : α) (m : List (Nat × α)) (q : Nat) : storeGet d m q = d ∨ (q, storeGet d m q) ∈ m := by
  induction m with
  | nil => exact .inl rfl
  | cons e rest ih =>
    rw [storeGet_cons]
    split
    · next h => exact .inr (h ▸ List.mem_cons_self ..)
    · exact ih.imp_right (List.mem_cons_of_mem _)

/-- A per-pin array of a table: one entry for each pin, ascending (R34, R35). -/
def perPin (T : Table) (m : List (Nat × α)) : Prop := m.map (·.1) = allPins T ∧ storeRises m = true

theorem perPin_storeFill {P : Params} {T : Table} (hw : tableWf P T = true) (v : α) :
    perPin T (storeFill v (allPins T)) := ⟨keys_storeFill v _ (allPins_pairwise hw), storeRises_storeFill v _⟩

theorem perPin.storeSet {T : Table} {m : List (Nat × α)} (h : perPin T m) {pin : Nat} (hp : pin ∈ allPins T) (v : α) :
    perPin T (storeSet m pin v) := by
  obtain ⟨hk, hr⟩ := h
  exact ⟨(keys_storeSet_of_mem m pin v hr (hk ▸ hp)).trans hk, storeRises_storeSet m pin v hr⟩

/-- A store with ascending keys rises. -/
theorem storeRises_of_pairwise {m : List (Nat × α)} (h : (m.map (·.1)).Pairwise (· < ·)) : storeRises m = true := by
  induction m with
  | nil => rfl
  | cons e rest ih =>
    obtain ⟨hlt, h⟩ := List.pairwise_cons.1 h
    exact (storeRises_cons _ _ _).2 ⟨ih h, fun e' he' => hlt _ (List.mem_map_of_mem he')⟩

theorem perPin_of_keys {P : Params} {T : Table} (hw : tableWf P T = true) {m : List (Nat × α)}
    (h : m.map (·.1) = allPins T) : perPin T m := ⟨h, storeRises_of_pairwise (h ▸ allPins_pairwise hw)⟩

/-- Replacing an entry by one that looks the same under `f` changes nothing under `f`. -/
theorem map_set_of_getD {f : α → β} {l : List α} {c : Nat} {x d : α} (h : f x = f (l.getD c d)) :
    (l.set c x).map f = l.map f := by
  rw [List.map_set]
  refine List.ext_getElem? fun i => ?_
  rw [List.getElem?_set]
  split
  · next hi =>
    subst hi
    split
    · next hlt =>
      rw [List.length_map] at hlt
      rw [h, List.getD_eq_getElem _ _ hlt, List.getElem?_map, List.getElem?_eq_getElem hlt, Option.map_some]
    · next hge => rw [List.getElem?_eq_none (by omega)]
  · rfl

end

/-! ## The clauses of the invariant -/

/-- The handles of an unregistered pin's record are 0 (R34). -/
def recordOk (r : IrqRecord) : Prop := r.state = .unregistered → r.owner = 0 ∧ r.callback = 0 ∧ r.context = 0

theorem recordOk_cleared : recordOk IrqRecord.cleared := fun _ => ⟨rfl, rfl, rfl⟩

theorem recordsOk_iff {s : State} : recordsOk s = true ↔ ∀ e ∈ s.irq, recordOk e.2 := by
  simp [recordsOk, recordOk, ← imp_iff_not_or, and_assoc]

theorem recordOk_irqOf {s : State} (h : recordsOk s = true) (pin : Nat) : recordOk (irqOf s pin) := by
  rcases storeGet_eq_or_mem IrqRecord.cleared s.irq pin with h' | h'
  · rw [irqOf, h']; exact recordOk_cleared
  · exact recordsOk_iff.1 h _ h'

/-- The numbers of words in a community's snapshot. -/
def commSizes (x : CommContext) : Nat × Nat := (x.ie.length, x.hostown.length)

/-- The numbers of words that a community's snapshot holds by R35: one of each kind for each pad group. -/
def groupSizes (C : Community) : Nat × Nat := ((groupsOf C).length, (groupsOf C).length)

theorem shapesOk_iff {s : State} : shapesOk s = true ↔
    s.active.length = s.table.communities.length ∧ s.busy.length = s.table.communities.length ∧
      s.irq.map (·.1) = allPins s.table ∧ s.ctxPin.map (·.1) = allPins s.table ∧
      s.ctxComm.map commSizes = s.table.communities.map groupSizes := by
  simp only [shapesOk, Bool.and_eq_true, beq_iff_eq, and_assoc]
  rfl

theorem awakeOk_iff {s : State} : awakeOk s = true ↔
    s.suspended = false → (∀ a ∈ s.active, a = true) ∧ (∀ e ∈ s.ctxPin, e.2.valid = false) ∧
      ∀ x ∈ s.ctxComm, x.valid = false := by
  cases h : s.suspended <;> simp [awakeOk, h, and_assoc]

theorem responseOk_respond (value : Word64) (s : State) : responseOk (respond .ok value s) = true := rfl

/-- Every result code is one of R92's, and a failure answers the value 0. -/
theorem responseOk_raise (code : ResultCode) (s : State) : responseOk (raise code s) = true := by cases code <;> rfl

/-! ## Stretches that leave snapshots and activity alone -/

/-- Each pin of the table has its record, and the records are sound (R34). -/
def irqOk (s : State) : Prop := perPin s.table s.irq ∧ recordsOk s = true

/-- A stretch of a command from `s` to `t` that uses the bus, emits events, writes records of the table's pins and responds. -/
structure Lawful (s t : State) : Prop extends Steady s t where
  initialized : t.initialized = s.initialized
  suspended : t.suspended = s.suspended
  active : t.active = s.active
  busy : t.busy = s.busy
  ctxPin : t.ctxPin = s.ctxPin
  ctxComm : t.ctxComm = s.ctxComm
  records : irqOk s → irqOk t
  response : responseOk s = true → responseOk t = true
  memory : s.mem.wf = true → t.mem.wf = true

theorem Lawful.refl (s : State) : Lawful s s := ⟨.refl s, rfl, rfl, rfl, rfl, rfl, rfl, id, id, id⟩

theorem Lawful.trans {a b c : State} (h : Lawful a b) (h' : Lawful b c) : Lawful a c where
  toSteady := h.toSteady.trans h'.toSteady
  initialized := h'.initialized.trans h.initialized
  suspended := h'.suspended.trans h.suspended
  active := h'.active.trans h.active
  busy := h'.busy.trans h.busy
  ctxPin := h'.ctxPin.trans h.ctxPin
  ctxComm := h'.ctxComm.trans h.ctxComm
  records := h'.records ∘ h.records
  response := h'.response ∘ h.response
  memory := h'.memory ∘ h.memory

section
variable {s u t : State}

theorem Lawful.of_busOnly (h : Lawful s u) (hb : busOnly u t) : Lawful s t := by
  obtain ⟨hs, hm, -⟩ := id hb
  refine h.trans ⟨(Steady.refl u).of_busOnly hb, sameBlock_initialized hs, sameBlock_suspended hs, sameBlock_active hs,
    sameBlock_busy hs, sameBlock_ctxPin hs, sameBlock_ctxComm hs, ?_, ?_, hm⟩
  · intro hi
    unfold irqOk recordsOk
    rw [sameBlock_table hs, sameBlock_irq hs]
    exact hi
  · unfold responseOk
    rw [sameBlock_respCode hs, sameBlock_respValue hs]
    exact id

/-- More events, and nothing else. -/
theorem Lawful.events_append (h : Lawful s u) (es : List Event) : Lawful s { u with events := u.events ++ es } :=
  h.trans ⟨⟨rfl, rfl, List.prefix_append _ _, List.prefix_rfl⟩, rfl, rfl, rfl, rfl, rfl, rfl, id, id, id⟩

theorem Lawful.emit (h : Lawful s u) (e : Event) : Lawful s (emit e u) := h.events_append [e]

theorem Lawful.deliverBits (h : Lawful s u) (G : PadGroup) (v : Word) (is : List Nat) :
    Lawful s (deliverBits G v is u) := by
  rw [deliverBits_spec]
  exact h.events_append _

theorem Lawful.respond (h : Lawful s u) (value : Word64) : Lawful s (respond .ok value u) :=
  h.trans ⟨(Steady.refl u).update, rfl, rfl, rfl, rfl, rfl, rfl, id, fun _ => responseOk_respond value u, id⟩

theorem Lawful.raise (h : Lawful s u) (code : ResultCode) : Lawful s (raise code u) :=
  h.trans ⟨(Steady.refl u).update, rfl, rfl, rfl, rfl, rfl, rfl, id, fun _ => responseOk_raise code u, id⟩

/-- A pin of the table gets a record that is sound if its old one was. -/
theorem Lawful.setIrq (h : Lawful s u) {pin : Nat} (hp : pin ∈ allPins s.table) {r : IrqRecord}
    (hr : recordOk (irqOf u pin) → recordOk r) : Lawful s (setIrq pin r u) := by
  refine h.trans ⟨(Steady.refl u).update, rfl, rfl, rfl, rfl, rfl, rfl, fun ⟨hk, ho⟩ => ⟨?_, ?_⟩, id, id⟩
  · exact hk.storeSet (h.table.symm ▸ hp) r
  · refine recordsOk_iff.2 fun e he => ?_
    rcases mem_storeSet he with rfl | he
    · exact hr (recordOk_irqOf ho pin)
    · exact recordsOk_iff.1 ho e he

theorem irqOk_of_invariant (h : Invariant s) : irqOk s := by
  obtain ⟨hc, hs, -, -, hr, -⟩ := h
  obtain ⟨-, -, hk, -⟩ := shapesOk_iff.1 hs
  exact ⟨perPin_of_keys (configOk_iff.1 hc).2 hk, hr⟩

/-- What the invariant says beyond records, responses and memory rests on fields that a lawful stretch leaves alone. -/
theorem Lawful.invariant (h : Lawful s t) (hs : Invariant s) : Invariant t := by
  obtain ⟨hkeys, hrec⟩ := h.records (irqOk_of_invariant hs)
  obtain ⟨hc, hsh, hi, ha, -, hre, hb, hm⟩ := hs
  obtain ⟨h1, h2, -, h4, h5⟩ := shapesOk_iff.1 hsh
  refine ⟨h.configOk.trans hc, shapesOk_iff.2 ?_, ?_, ?_, hrec, h.response hre, ?_, h.memory hm⟩
  · rw [h.active, h.busy, h.ctxPin, h.ctxComm]
    exact ⟨h.table ▸ h1, h.table ▸ h2, hkeys.1, h.table ▸ h4, h.table ▸ h5⟩
  · rw [idleOk, h.busy]; exact hi
  · rw [awakeOk, h.suspended, h.active, h.ctxPin, h.ctxComm]; exact ha
  · rw [bareOk, h.initialized, h.table, h.suspended]; exact hb

end

/-! ## Pieces by what they answer -/

section
variable {α β : Type}

/-- What a piece of a command answers, if it answers, has the property. -/
def Answers (P : β → Prop) : Host.Outcome β Fault Refusal → Prop
  | .next x => P x
  | .fault _ => True
  | .refused _ => True

theorem Answers.of_next {P : β → Prop} {r : Host.Outcome β Fault Refusal} {x : β} (h : Answers P r) (e : r = .next x) :
    P x := by
  subst e
  exact h

theorem Answers.imp {P Q : β → Prop} {r : Host.Outcome β Fault Refusal} (h : Answers P r) (hpq : ∀ x, P x → Q x) :
    Answers Q r := by
  cases r with
  | next x => exact hpq x h
  | fault _ => trivial
  | refused _ => trivial

theorem Answers.andThen {P : α × State → Prop} {Q : β → Prop} {r : Run α} {k : α → State → Host.Outcome β Fault Refusal}
    (hr : Answers P r) (hk : ∀ v u, P (v, u) → Answers Q (k v u)) : Answers Q (r.andThen k) := by
  cases r with
  | next x => exact hk x.1 x.2 hr
  | fault _ => trivial
  | refused _ => trivial

theorem Answers.thenState {P Q : State → Prop} {r : Out} {k : State → Out} (hr : Answers P r)
    (hk : ∀ u, P u → Answers Q (k u)) : Answers Q (thenState r k) := by
  cases r with
  | next u => exact hk u hr
  | fault _ => trivial
  | refused _ => trivial

/-- A loop keeps a property that every round keeps. -/
theorem Answers.forEach {P : State → Prop} {f : α → State → Out} {xs : List α}
    (hf : ∀ x ∈ xs, ∀ u, P u → Answers P (f x u)) {u : State} (hu : P u) : Answers P (forEach xs f u) := by
  induction xs generalizing u with
  | nil => exact hu
  | cons x rest ih =>
    exact (hf x (List.mem_cons_self ..) u hu).thenState fun v hv => ih (fun y hy => hf y (List.mem_cons_of_mem _ hy)) hv

/-- A piece that only uses the bus. -/
theorem answers_bus {r : Run α} {u : State} (hr : ∀ {v t}, r = .next (v, t) → busOnly u t) :
    Answers (fun x => busOnly u x.2) r := by
  cases r with
  | next x => exact hr rfl
  | fault _ => trivial
  | refused _ => trivial

theorem answers_write (a : Nat) (v : Word) (u : State) : Answers (busOnly u) (memWrite a v u) := by
  cases h : memWrite a v u with
  | next t => exact memWrite_busOnly h
  | fault _ => trivial
  | refused _ => trivial

end

/-- A piece of a command that started in `s` makes a lawful stretch. -/
abbrev Keeps (s : State) (r : Out) : Prop := Answers (Lawful s) r

section
variable {s u : State} {pin : Nat} {loc : Loc}

/-- After a piece that only uses the bus the stretch goes on. -/
theorem keeps_bus {α : Type} {r : Run α} {k : α → State → Out} (hu : Lawful s u)
    (hr : ∀ {v t}, r = .next (v, t) → busOnly u t) (hk : ∀ v u', Lawful s u' → Keeps s (k v u')) :
    Keeps s (r.andThen k) :=
  (answers_bus hr).andThen fun v u' hb => hk v u' (hu.of_busOnly hb)

theorem keeps_memWrite (hu : Lawful s u) (a : Nat) (v : Word) : Keeps s (memWrite a v u) :=
  (answers_write a v u).imp fun _ hb => hu.of_busOnly hb

/-! ## The checks of a command -/

theorem keeps_whenInit {k : Out} (hu : Lawful s u) (hk : Keeps s k) : Keeps s (whenInit u k) := by
  unfold whenInit
  split
  · exact hk
  · exact hu.raise _

theorem keeps_whenResolved {k : Loc → Out} (e : ResultCode) (hu : Lawful s u)
    (hk : ∀ loc, pin ∈ allPins s.table → Keeps s (k loc)) : Keeps s (whenResolved e pin u k) := by
  unfold whenResolved
  split
  · exact hu.raise e
  · next loc hr => exact hk loc (resolve_mem_allPins (hu.resolve hr))

theorem keeps_whenActive {k : Out} (i : Instr) (hu : Lawful s u) (hk : Keeps s k) :
    Keeps s (whenActive i pin loc u k) := by
  unfold whenActive
  split
  · exact hk
  · exact (hu.emit _).raise _

theorem keeps_whenGuarded {k : State → Out} (hu : Lawful s u) (hk : ∀ u', Lawful s u' → Keeps s (k u')) :
    Keeps s (whenGuarded loc pin u k) := by
  refine keeps_bus hu guard_busOnly fun v u' h => ?_
  cases v with
  | ownershipDenied => exact h.raise _
  | locked => exact h.raise _
  | pass => exact hk u' h

/-! ## Commands that only read, and WRITE_PADCFG -/

theorem keeps_resolve (hu : Lawful s u) : Keeps s (execResolve pin u) :=
  keeps_whenInit hu <| keeps_whenResolved _ hu fun _ _ => hu.respond _

theorem keeps_regaddr (kind : RegKind) (hu : Lawful s u) : Keeps s (execRegaddr pin kind u) := by
  refine keeps_whenInit hu ?_
  split
  · exact hu.raise _
  · exact hu.respond _

theorem keeps_ownedByHost (hu : Lawful s u) : Keeps s (execOwnedByHost pin u) := by
  refine keeps_whenInit hu <| keeps_whenResolved _ hu fun loc _ => ?_
  split
  · exact hu.respond _
  · exact keeps_whenActive _ hu <| keeps_bus hu hostBit_busOnly fun _ _ h => h.respond _

theorem keeps_acpiMode (hu : Lawful s u) : Keeps s (execAcpiMode pin u) :=
  keeps_whenInit hu <| keeps_whenResolved _ hu fun _ _ => keeps_whenActive _ hu <|
    keeps_bus hu acpi_busOnly fun _ _ h => h.respond _

theorem keeps_locked (hu : Lawful s u) : Keeps s (execLocked pin u) := by
  refine keeps_whenInit hu <| keeps_whenResolved _ hu fun loc _ => ?_
  split
  · exact hu.respond _
  · exact keeps_whenActive _ hu <| keeps_bus hu lockState_busOnly fun _ _ h => h.respond _

theorem keeps_isUnlocked (hu : Lawful s u) : Keeps s (execIsUnlocked pin u) := by
  refine keeps_whenInit hu <| keeps_whenResolved _ hu fun loc _ => ?_
  split
  · exact hu.respond _
  · exact keeps_whenActive _ hu <| keeps_bus hu lockState_busOnly fun _ _ h => h.respond _

theorem keeps_getPinStatus (hu : Lawful s u) : Keeps s (execGetPinStatus pin u) := by
  refine keeps_whenInit hu ?_
  split
  · exact hu.respond _
  · split
    · exact hu.respond _
    · exact keeps_bus hu guard_busOnly fun _ _ h => h.respond _

theorem keeps_readPadcfg (k : PadIdx) (hu : Lawful s u) : Keeps s (execReadPadcfg pin k u) :=
  keeps_whenInit hu <| keeps_whenResolved _ hu fun _ _ => keeps_whenActive _ hu <|
    keeps_bus hu memRead_busOnly fun _ _ h => h.respond _

theorem keeps_writePadcfg (k : PadIdx) (value : Word) (hu : Lawful s u) : Keeps s (execWritePadcfg pin k value u) :=
  keeps_whenInit hu <| keeps_whenResolved _ hu fun _ _ => keeps_whenActive _ hu <|
    keeps_whenGuarded hu fun _ h1 => (keeps_memWrite h1 _ value).thenState fun _ h2 => h2.respond 0

theorem keeps_shouldSave (hu : Lawful s u) : Keeps s (execShouldSave pin u) :=
  keeps_whenInit hu <| keeps_whenResolved _ hu fun _ _ => keeps_whenActive _ hu <|
    keeps_bus hu saveTest_busOnly fun _ _ h => h.respond _

/-! ## Interrupt commands -/

/-- A record of a pin that is masked or unmasked has no handles to check. -/
theorem recordOk_of_registered {r : IrqRecord} (h : r.state ≠ .unregistered) : recordOk r := fun h' => absurd h' h

theorem keeps_setTriggerType (type : TrigType) (hu : Lawful s u) : Keeps s (execSetTriggerType pin type u) :=
  keeps_whenInit hu <| keeps_whenResolved _ hu fun _ hp => keeps_whenActive _ hu <|
    keeps_whenGuarded hu fun _ h1 => keeps_bus h1 memRead_busOnly fun _ _ h2 =>
      (keeps_memWrite h2 _ _).thenState fun u3 h3 =>
        (h3.setIrq (r := { irqOf u3 pin with trig := some type }) hp fun hr => hr).respond 0

theorem keeps_getInterruptType (hu : Lawful s u) : Keeps s (execGetInterruptType pin u) := by
  refine keeps_whenInit hu <| keeps_whenResolved _ hu fun loc _ => ?_
  split
  · exact hu.respond _
  · refine keeps_whenActive _ hu <| keeps_bus hu memRead_busOnly fun v u1 h => ?_
    split
    · exact h.raise _
    · exact h.respond _

theorem keeps_maskSequence (i : Instr) (mask : Bool) (hu : Lawful s u) (hp : pin ∈ allPins s.table) :
    Keeps s (maskSequence i pin mask loc u) := by
  refine keeps_whenActive _ hu <| keeps_whenGuarded hu fun u1 h1 => keeps_bus h1 memRead_busOnly fun v u2 h2 =>
    (keeps_memWrite h2 _ _).thenState fun u3 h3 => ?_
  dsimp only
  split
  · exact h3.respond 0
  · exact (h3.setIrq hp fun _ => recordOk_of_registered (by cases mask <;> simp)).respond 0

theorem keeps_maskUnmask (mask : Bool) (hu : Lawful s u) : Keeps s (execMaskUnmask pin mask u) := by
  refine keeps_whenInit hu <| keeps_whenResolved _ hu fun loc hp => ?_
  split
  · exact hu.raise _
  · exact keeps_maskSequence _ mask hu hp

theorem keeps_registeredMask (i : Instr) (mask : Bool) (hu : Lawful s u) : Keeps s (registeredMask i pin mask u) := by
  refine keeps_whenInit hu <| keeps_whenResolved _ hu fun loc hp => ?_
  split
  · exact hu.raise _
  · split
    · exact hu.raise _
    · exact keeps_maskSequence _ mask hu hp

theorem keeps_register (owner callback context : Word64) (hu : Lawful s u) :
    Keeps s (execRegister pin owner callback context u) := by
  refine keeps_whenInit hu <| keeps_whenResolved _ hu fun loc hp => ?_
  split
  · exact hu.raise _
  · split
    · exact hu.raise _
    · exact keeps_whenActive _ hu <| keeps_whenGuarded hu fun _ h =>
        (h.setIrq hp fun _ => recordOk_of_registered (by simp)).respond 0

theorem keeps_unregister (hu : Lawful s u) : Keeps s (execUnregister pin u) := by
  refine keeps_whenInit hu <| keeps_whenResolved _ hu fun loc hp => ?_
  split
  · exact hu.raise _
  · exact (hu.setIrq hp fun _ => recordOk_cleared).respond 0

/-! ## The dispatch pass -/

theorem keeps_scanGroup (C : Community) (G : PadGroup) (hu : Lawful s u) : Keeps s (scanGroup C G u) := by
  refine keeps_bus hu memRead_busOnly fun v u1 h1 => ?_
  split
  · exact h1
  · exact (keeps_memWrite h1 _ v).thenState fun _ h2 => h2.deliverBits G v _

/-- A stretch between setting and clearing the busy flag of a community that was not busy is lawful as a whole. -/
theorem Lawful.unbusy {t : State} {c : Nat} (h : Lawful (setBusy c true u) t) (hc : isBusy u c = false) :
    Lawful u (setBusy c false t) :=
  { h with busy := by rw [setBusy_busy, h.busy, setBusy_busy, set_busy_back _ _ hc] }

theorem keeps_scanCommunity (x : Nat × Community) (hu : Lawful s u) : Keeps s (scanCommunity x u) := by
  unfold scanCommunity
  split
  · exact hu
  · next h =>
    have hidle : isBusy u x.1 = false := by simpa using fun hb => h (.inr (.inl hb))
    exact (Answers.forEach (fun G _ _ h1 => keeps_scanGroup x.2 G h1) (Lawful.refl _)).thenState
      fun _ h2 => hu.trans (h2.unbusy hidle)

theorem keeps_dispatch (first : Bool) (hu : Lawful s u) : Keeps s (execDispatch first u) := by
  have hs : Lawful s (if first then settle u else u) := by
    split
    · exact hu.of_busOnly (settle_busOnly u)
    · exact hu
  exact keeps_whenInit hu <|
    (Answers.forEach (fun x _ _ h => keeps_scanCommunity x h) hs).thenState fun _ h => h.respond 0

/-! ## The stretches of a resume -/

theorem keeps_restoreKind (C : Community) (o : Nat) (words : List Word) (hu : Lawful s u) :
    Keeps s (restoreKind C o words u) := by
  unfold restoreKind
  split
  · exact hu
  · exact .forEach (fun y _ _ h => keeps_memWrite h _ _) hu

theorem keeps_restoreCommunity (x : Nat × Community) (hu : Lawful s u) : Keeps s (restoreCommunity x u) := by
  unfold restoreCommunity
  split
  · exact (keeps_restoreKind _ _ _ hu).thenState fun _ h => keeps_restoreKind _ _ _ h
  · exact hu

theorem keeps_restorePin (hu : Lawful s u) : Keeps s (restorePin pin u) := by
  unfold restorePin
  split
  · exact hu
  · dsimp only
    split
    · exact (keeps_memWrite hu _ _).thenState fun _ h1 => (keeps_memWrite h1 _ _).thenState fun _ h2 =>
        keeps_memWrite h2 _ _
    · exact hu

theorem Lawful.refuseRearm (hu : Lawful s u) (hp : pin ∈ allPins s.table) : Lawful s (refuseRearm pin u) :=
  (hu.setIrq hp fun _ => recordOk_of_registered (by simp)).emit _

theorem keeps_revalidate (hu : Lawful s u) (hp : pin ∈ allPins s.table) : Keeps s (revalidate loc pin u) := by
  unfold revalidate
  split
  · split
    · exact hu.refuseRearm hp
    · refine keeps_bus hu guard_busOnly fun v u1 h1 => ?_
      split
      · exact keeps_bus h1 memRead_busOnly fun _ _ h2 => keeps_memWrite h2 _ _
      · exact h1.refuseRearm hp
  · refine keeps_bus hu guard_busOnly fun v u1 h1 => ?_
    show Lawful s (if v = .pass then u1 else _)
    split
    · exact h1
    · exact h1.emit _

theorem keeps_revalidatePin (hu : Lawful s u) : Keeps s (revalidatePin pin u) := by
  unfold revalidatePin
  split
  · exact hu
  · split
    · exact hu
    · next loc hr => exact keeps_revalidate hu (resolve_mem_allPins (hu.resolve hr))

end

/-! ## Resume -/

/-- Powering every community up inside the suspend window (R186). -/
theorem invariant_powerUp {s : State} (h : Invariant s) (hs : s.suspended = true) :
    Invariant { s with active := s.table.communities.map (fun _ => true) } := by
  obtain ⟨hc, hsh, hi, -, hr, hre, hb, hm⟩ := h
  obtain ⟨-, h2⟩ := shapesOk_iff.1 hsh
  exact ⟨hc, shapesOk_iff.2 ⟨List.length_map _, h2⟩, hi, by simp [awakeOk, hs], hr, hre, hb, hm⟩

/-- Closing the suspend window with every community active (R186). -/
theorem invariant_discardSnapshot {s : State} (h : Invariant s) (ha : ∀ a ∈ s.active, a = true) :
    Invariant (discardSnapshot s) := by
  obtain ⟨hc, hsh, hi, -, hr, hre, hb, hm⟩ := h
  obtain ⟨h1, h2, h3, h4, h5⟩ := shapesOk_iff.1 hsh
  have hkeys : (discardSnapshot s).ctxPin.map (·.1) = allPins s.table := by
    rw [discardSnapshot_ctxPin, List.map_map]
    exact h4
  have hsizes : (discardSnapshot s).ctxComm.map commSizes = s.table.communities.map groupSizes := by
    rw [discardSnapshot_ctxComm, List.map_map]
    exact h5
  have hawake : awakeOk (discardSnapshot s) = true := by
    refine awakeOk_iff.2 fun _ => ⟨ha, fun e he => ?_, by simp⟩
    obtain ⟨e, -, rfl⟩ := List.mem_map.1 he
    rfl
  refine ⟨hc, shapesOk_iff.2 ⟨h1, h2, h3, hkeys, hsizes⟩, hi, hawake, hr, hre, ?_, hm⟩
  simp only [bareOk, Bool.or_eq_true, Bool.and_eq_true] at hb ⊢
  exact hb.imp_right fun ⟨ht, _⟩ => ⟨ht, rfl⟩

theorem resumeSequence_invariant {s : State} (h : Invariant s) : Answers Invariant (resumeSequence s) := by
  unfold resumeSequence
  split
  · exact ((Lawful.refl s).respond 0).invariant h
  · next hs =>
    have h0 := invariant_powerUp h (by simpa using hs)
    refine (Answers.forEach (fun x _ _ h => keeps_restoreCommunity x h) (Lawful.refl _)).thenState fun s1 h1 =>
      (Answers.forEach (fun p _ _ h => keeps_restorePin h) h1).thenState fun s2 h2 =>
        (Answers.forEach (fun p _ _ h => keeps_revalidatePin h) h2).thenState fun s3 h3 => ?_
    have hactive : ∀ a ∈ s3.active, a = true := by rw [h3.active]; simp
    exact ((Lawful.refl _).respond 0).invariant (invariant_discardSnapshot (h3.invariant h0) hactive)

/-! ## Suspend -/

/-- The middle of a suspend that started in `s`: the snapshots have their sizes, block state is as it was, and memory stays
canonical (R183). -/
structure Captured (s t : State) : Prop extends Steady s t where
  initialized : t.initialized = s.initialized
  active : t.active = s.active
  busy : t.busy = s.busy
  irq : t.irq = s.irq
  pins : perPin s.table t.ctxPin
  sizes : t.ctxComm.map commSizes = s.table.communities.map groupSizes
  memory : s.mem.wf = true → t.mem.wf = true

theorem sizes_zeroComm (Cs : List Community) : (Cs.map zeroComm).map commSizes = Cs.map groupSizes := by
  simp [commSizes, groupSizes, zeroComm, Function.comp_def]

section
variable {s u t : State} {pin : Nat}

theorem captured_zeroFill (hw : tableWf s.params s.table = true) : Captured s (zeroFill s) :=
  ⟨(Steady.refl s).update, rfl, rfl, rfl, rfl, perPin_storeFill hw _, sizes_zeroComm _, id⟩

theorem Captured.of_busOnly (h : Captured s u) (hb : busOnly u t) : Captured s t := by
  obtain ⟨hs, hm, -⟩ := id hb
  exact ⟨h.toSteady.of_busOnly hb, (sameBlock_initialized hs).trans h.initialized, (sameBlock_active hs).trans h.active,
    (sameBlock_busy hs).trans h.busy, (sameBlock_irq hs).trans h.irq, sameBlock_ctxPin hs ▸ h.pins,
    sameBlock_ctxComm hs ▸ h.sizes, hm ∘ h.memory⟩

theorem Captured.setPinCtx (h : Captured s u) (hp : pin ∈ allPins s.table) (x : PinContext) :
    Captured s (setPinCtx pin x u) :=
  { h with pins := h.pins.storeSet hp x }

/-- A community's snapshot is replaced by one of the same sizes. -/
theorem Captured.setCommCtx (h : Captured s u) {c : Nat} {x : CommContext} (hx : commSizes x = commSizes (commCtx u c)) :
    Captured s (setCommCtx c x u) :=
  { h with sizes := (map_set_of_getD hx).trans h.sizes }

theorem Captured.storeIe (h : Captured s u) (c g : Nat) (v : Word) : Captured s (storeIe c g v u) :=
  h.setCommCtx (by simp [commSizes])

theorem Captured.storeHostown (h : Captured s u) (c g : Nat) (v : Word) : Captured s (storeHostown c g v u) :=
  h.setCommCtx (by simp [commSizes])

theorem captured_bus {α : Type} {r : Run α} {k : α → State → Out} (hu : Captured s u)
    (hr : ∀ {v t}, r = .next (v, t) → busOnly u t) (hk : ∀ v u', Captured s u' → Answers (Captured s) (k v u')) :
    Answers (Captured s) (r.andThen k) :=
  (answers_bus hr).andThen fun v u' hb => hk v u' (hu.of_busOnly hb)

theorem captured_snapshotReg {C : Community} {G : PadGroup} {o : Nat} {store : Word → State → State}
    (hstore : ∀ v u', Captured s u' → Captured s (store v u')) (hu : Captured s u) :
    Answers (Captured s) (snapshotReg C G o store u) := by
  unfold snapshotReg
  split
  · exact hu
  · exact captured_bus hu memRead_busOnly hstore

theorem captured_snapshotCommunity (x : Nat × Community) (hu : Captured s u) :
    Answers (Captured s) (snapshotCommunity x u) := by
  refine (Answers.forEach (fun y _ u1 h1 => ?_) hu).thenState fun _ h => h.setCommCtx rfl
  exact (captured_snapshotReg (fun v _ h => h.storeIe x.1 y.1 v) h1).thenState fun _ h2 =>
    captured_snapshotReg (fun v _ h => h.storeHostown x.1 y.1 v) h2

theorem captured_snapshotPin (hu : Captured s u) : Answers (Captured s) (snapshotPin pin u) := by
  unfold snapshotPin
  split
  · exact hu
  · next loc hr =>
    have hp := resolve_mem_allPins (hu.resolve hr)
    refine captured_bus hu saveTest_busOnly fun save u1 h1 => ?_
    split
    · exact captured_bus h1 readPadcfgs_busOnly fun x _ h2 => h2.setPinCtx hp x
    · exact h1

end

theorem length_powerDownFrom (Cs : List Community) (as : List Bool) : (powerDownFrom Cs as).length = as.length := by
  induction Cs generalizing as with
  | nil => rfl
  | cons C rest ih =>
    cases as with
    | nil => rfl
    | cons a as => simp [powerDownFrom, ih]

/-- The end of a suspend: power-down, the suspend window opens, the response (R183). -/
theorem Captured.invariant_powerDown {s u : State} (h : Captured s u) (hs : Invariant s) (hi : s.initialized = true) :
    Invariant (respond .ok 0
      { u with active := powerDownFrom u.table.communities u.active, suspended := true }) := by
  obtain ⟨hc, hsh, hb, -, hr, -, -, hm⟩ := hs
  obtain ⟨h1, h2, h3, -⟩ := shapesOk_iff.1 hsh
  have hshapes : shapesOk (respond .ok 0
      { u with active := powerDownFrom u.table.communities u.active, suspended := true }) = true := by
    simp only [shapesOk_iff, respond_active, respond_busy, respond_irq, respond_ctxPin, respond_ctxComm, respond_table,
      length_powerDownFrom, h.active, h.busy, h.irq, h.table]
    exact ⟨h1, h2, h3, h.pins.1, h.sizes⟩
  refine ⟨h.configOk.trans hc, hshapes, ?_, rfl, ?_, rfl, ?_, h.memory hm⟩
  · simpa [idleOk, h.busy] using hb
  · simpa [recordsOk, h.irq] using hr
  · simp [bareOk, h.initialized, hi]

theorem suspendSequence_invariant {s : State} (h : Invariant s) (hi : s.initialized = true) :
    Answers Invariant (suspendSequence s) := by
  obtain ⟨hc, -⟩ := id h
  unfold suspendSequence
  split
  · exact ((Lawful.refl s).respond 0).invariant h
  · exact (Answers.forEach (fun x _ _ h => captured_snapshotCommunity x h)
      (captured_zeroFill (configOk_iff.1 hc).2)).thenState fun _ h1 =>
        (Answers.forEach (fun _ _ _ h => captured_snapshotPin h) h1).thenState fun _ h2 => h2.invariant_powerDown h hi

/-! ## INIT -/

theorem invariant_installTable {s : State} {T : Table} (hp : paramsWf s.params = true) (hw : tableWf s.params T = true)
    (hm : s.mem.wf = true) : Invariant (respond .ok 0 (installTable T s)) := by
  have hkeys {α : Type} (v : α) : (storeFill v (allPins T)).map (·.1) = allPins T := (perPin_storeFill hw v).1
  have hshapes : shapesOk (respond .ok 0 (installTable T s)) = true :=
    shapesOk_iff.2 ⟨List.length_map _, List.length_map _, hkeys _, hkeys _, sizes_zeroComm _⟩
  have hawake : awakeOk (respond .ok 0 (installTable T s)) = true := awakeOk_iff.2 fun _ =>
    ⟨by simp, fun e he => by rw [mem_storeFill he]; rfl, by simp [zeroComm]⟩
  have hrecords : recordsOk (respond .ok 0 (installTable T s)) = true :=
    recordsOk_iff.2 fun e he => by rw [mem_storeFill he]; exact recordOk_cleared
  exact ⟨configOk_iff.2 ⟨hp, hw⟩, hshapes, by simp [idleOk], hawake, hrecords, rfl, rfl, hm⟩

theorem execInit_invariant {s : State} (h : Invariant s) : Answers Invariant (execInit s) := by
  obtain ⟨hc, -, -, -, -, -, -, hm⟩ := id h
  unfold execInit
  split
  · exact ((Lawful.refl s).raise _).invariant h
  · split
    · exact ((Lawful.refl s).raise _).invariant h
    · next hw => exact invariant_installTable (configOk_iff.1 hc).1 (by simpa using hw) hm

/-! ## Every command, every step -/

theorem whenInit_invariant {s : State} {k : Out} (h : Invariant s)
    (hk : s.initialized = true → Answers Invariant k) : Answers Invariant (whenInit s k) := by
  unfold whenInit
  split
  · next hi => exact hk hi
  · exact ((Lawful.refl s).raise _).invariant h

/-- Every command ends in a state with the invariant: all but `INIT`, `SUSPEND` and `RESUME` are one lawful stretch. -/
theorem exec_invariant (i : Instr) {s : State} (h : Invariant s) : Answers Invariant (exec i s) := by
  have hs := Lawful.refl s
  have lawful {r : Out} (hr : Keeps s r) : Answers Invariant r := hr.imp fun _ ht => ht.invariant h
  cases i with
  | init => exact execInit_invariant h
  | suspend => exact whenInit_invariant h (suspendSequence_invariant h)
  | resume => exact whenInit_invariant h fun _ => resumeSequence_invariant h
  | setPowerState state =>
    refine whenInit_invariant h fun hi => ?_
    cases state with
    | sleeping => exact suspendSequence_invariant h hi
    | working => exact resumeSequence_invariant h
  | resolve pin => exact lawful (keeps_resolve hs)
  | regaddr pin kind => exact lawful (keeps_regaddr kind hs)
  | ownedByHost pin => exact lawful (keeps_ownedByHost hs)
  | acpiMode pin => exact lawful (keeps_acpiMode hs)
  | locked pin => exact lawful (keeps_locked hs)
  | isUnlocked pin => exact lawful (keeps_isUnlocked hs)
  | readPadcfg pin k => exact lawful (keeps_readPadcfg k hs)
  | writePadcfg pin k value => exact lawful (keeps_writePadcfg k value hs)
  | setTriggerType pin type => exact lawful (keeps_setTriggerType type hs)
  | getInterruptType pin => exact lawful (keeps_getInterruptType hs)
  | maskUnmask pin mask => exact lawful (keeps_maskUnmask mask hs)
  | register pin owner callback context => exact lawful (keeps_register owner callback context hs)
  | unregister pin => exact lawful (keeps_unregister hs)
  | enable pin => exact lawful (keeps_registeredMask _ false hs)
  | disable pin => exact lawful (keeps_registeredMask _ true hs)
  | dispatch first => exact lawful (keeps_dispatch first hs)
  | shouldSave pin => exact lawful (keeps_shouldSave hs)
  | getPinStatus pin => exact lawful (keeps_getPinStatus hs)

/-- Settles O57: the agent's turn is a lawful stretch, taking a command from the queue touches nothing the invariant speaks of,
and every command keeps it. -/
theorem stepKeepsInvariant : Obligations.StepKeepsInvariant := by
  intro s t hs ht
  have hturn : Invariant (agentTurn s) := ((Lawful.refl s).of_busOnly (agentTurn_busOnly s)).invariant hs
  have haccept (sub : Submission) (rest : List Submission) : Invariant (accept sub rest (agentTurn s)) := hturn
  rcases step_cases s with ⟨-, h⟩ | ⟨-, -, h⟩ | ⟨-, sub, rest, -, ⟨_, -, h⟩ | ⟨i, -, h⟩⟩ <;> rw [h] at ht
  · cases ht
  · cases ht; exact hturn
  · cases ht; exact ((Lawful.refl _).raise _).invariant (haccept sub rest)
  · exact (exec_invariant i (haccept sub rest)).of_next ht

end Sys2Proof.Machine
end

section
/-! PROOFS. The register bus and the register agent (spec/20_memory.md): what a read and a write do, what each step of the agent
does, and that none clears a pending bit of an active community.

A step E2 or E3 does nothing at the address of a GPI_IS register of an active community. Pending bits last because of that; and
on a table without overlaps it stops none but the steps that R72 leaves out, since an address there is one register
(`statusReg_addr`). -/

namespace Sys2Proof.Machine

/-! ## Accesses -/

theorem memRead_misaligned {a : Nat} (s : State) (h : a % 4 ≠ 0) : memRead a s = .refused (.misalignedAccess a) := if_pos h

theorem memWrite_misaligned {a : Nat} (v : Word) (s : State) (h : a % 4 ≠ 0) :
    memWrite a v s = .refused (.misalignedAccess a) := if_pos h

/-- Settles O13: the alignment check comes first in both bus operations. -/
theorem misalignedAccessIsRefused : Obligations.MisalignedAccessIsRefused :=
  fun _ v s h => ⟨memRead_misaligned s h, memWrite_misaligned v s h⟩

/-- Settles O11: a read with no agent step to come adds to the trace alone, so the state after it meets the premises of the
same read. -/
theorem readsHaveNoSideEffect : Obligations.ReadsHaveNoSideEffect := by
  intro a s ha hq
  have hq' : Quiet { s with trace := s.trace ++ [readOf s.mem a] } := hq
  exact ⟨_, memRead_quiet ha hq, rfl, _, memRead_quiet ha hq'⟩

/-- A write to a locked padcfg takes effect or leaves every register, as the agent's draw has it (R73). -/
theorem regWrite_locked {a : Nat} {v : Word} {s : State} (hs : isStatusReg s.table (fun _ => true) a = false)
    (hl : isLockedPadcfg s a = true) :
    (regWrite a v s).mem = s.mem.writeWord a v ∨ (regWrite a v s).mem = s.mem := by
  rcases regWrite_cases a v s with ⟨hs', -⟩ | ⟨-, -, h⟩ | ⟨⟨-, hl'⟩, -⟩
  · exact absurd (hs.symm.trans hs') (by simp)
  · rw [h]
    split
    · exact .inl rfl
    · exact .inr rfl
  · exact absurd (hl.symm.trans hl') (by simp)

/-- Settles O12: one rule for each of the three kinds of write, and the frame that they share. -/
theorem registerWriteEffects : Obligations.RegisterWriteEffects := by
  intro a v s
  refine ⟨fun hs => ?_, fun hs hl => ?_, fun hs hl => ?_, regWrite_frame a v s⟩
  · rw [regWrite_status hs]
    exact readWord_writeWord_same ..
  · rcases regWrite_locked (v := v) hs hl with h | h <;> rw [h]
    · exact .inl (readWord_writeWord_same ..)
    · exact .inr rfl
  · rw [regWrite_plain ⟨hs, hl⟩]
    exact readWord_writeWord_same ..

/-! ## The register agent, step by step -/

theorem registerBecomes_setReg (a : Nat) (v : Word) (s : State) : registerBecomes a v s (setReg a v s) :=
  ⟨rfl, readWord_writeWord_same .., readByte_writeWord_outside s.mem a v⟩

section
variable {s : State} {pin a : Nat} {kind : RegKind} {loc : Loc}

theorem applyAgent_powerOn_initialized (a : Nat) (v : Word) (h : s.initialized = true) :
    applyAgent (.powerOn a v) s = s := by
  simp [applyAgent, h]

theorem applyAgent_powerOn_bare (v : Word) (h : s.initialized = false) (ha : onBus a) :
    applyAgent (.powerOn a v) s = setReg a v s := if_pos ⟨h, ha⟩

theorem applyAgent_pending_none (bits : Word) (h : regAddr s.params s.table pin .gpiIs = none) :
    applyAgent (.pending pin bits) s = s := by
  simp only [applyAgent, h]

theorem applyAgent_pending (bits : Word) (h : regAddr s.params s.table pin .gpiIs = some a) :
    applyAgent (.pending pin bits) s = setReg a (s.mem.readWord a ||| bits) s := by
  simp only [applyAgent, h]

theorem applyAgent_railOff_none (v : Word) (h : regAddr s.params s.table pin kind = none) :
    applyAgent (.railOff pin kind v) s = s := by
  cases hr : resolve s.table pin <;> simp only [applyAgent, hr, h]

theorem applyAgent_railOff (v : Word) (hr : resolve s.table pin = some loc)
    (h : regAddr s.params s.table pin kind = some a) :
    applyAgent (.railOff pin kind v) s =
      if isActive s loc.c = false ∧ isStatusReg s.table (isActive s) a = false then setReg a v s else s := by
  simp only [applyAgent, hr, h]

theorem applyAgent_firmware_none (v : Word) (h : regAddr s.params s.table pin kind = none) :
    applyAgent (.firmware pin kind v) s = s := by
  simp only [applyAgent, h]

theorem applyAgent_firmware (v : Word) (h : regAddr s.params s.table pin kind = some a) :
    applyAgent (.firmware pin kind v) s =
      if kind ≠ .gpiIs ∧ isStatusReg s.table (isActive s) a = false then setReg a v s else s := by
  simp only [applyAgent, h]

/-- E3 leaves GPI_IS out (R72). -/
theorem applyAgent_firmware_gpiIs (pin : Nat) (v : Word) : applyAgent (.firmware pin .gpiIs v) s = s := by
  cases h : regAddr s.params s.table pin .gpiIs with
  | none => exact applyAgent_firmware_none v h
  | some a => rw [applyAgent_firmware v h, if_neg (by simp)]

/-- What a step of the agent can do to the registers after `INIT`: nothing, or write the register of a pin and a kind, adding
bits to it (E1) or away from the GPI_IS registers of the active communities (E2, E3). -/
theorem applyAgent_mem_cases (x : AgentStep) (hi : s.initialized = true) :
    (applyAgent x s).mem = s.mem ∨
      ∃ pin kind a v, regAddr s.params s.table pin kind = some a ∧ (applyAgent x s).mem = s.mem.writeWord a v ∧
        ((∃ bits, v = s.mem.readWord a ||| bits) ∨ isStatusReg s.table (isActive s) a = false) := by
  cases x with
  | powerOn a v => exact .inl (congrArg State.mem (applyAgent_powerOn_initialized a v hi))
  | pending pin bits =>
    cases h : regAddr s.params s.table pin .gpiIs with
    | none => exact .inl (congrArg State.mem (applyAgent_pending_none bits h))
    | some a =>
      exact .inr ⟨pin, _, a, _, h, congrArg State.mem (applyAgent_pending bits h), .inl ⟨bits, rfl⟩⟩
  | railOff pin kind v =>
    cases h : regAddr s.params s.table pin kind with
    | none => exact .inl (congrArg State.mem (applyAgent_railOff_none v h))
    | some a =>
      obtain ⟨loc, hr, -⟩ := Option.bind_eq_some_iff.1 h
      rw [applyAgent_railOff v hr h]
      split
      · next hc => exact .inr ⟨pin, kind, a, v, h, rfl, .inr hc.2⟩
      · exact .inl rfl
  | firmware pin kind v =>
    cases h : regAddr s.params s.table pin kind with
    | none => exact .inl (congrArg State.mem (applyAgent_firmware_none v h))
    | some a =>
      rw [applyAgent_firmware v h]
      split
      · next hc => exact .inr ⟨pin, kind, a, v, h, rfl, .inr hc.2⟩
      · exact .inl rfl
  | interruptLine => exact .inl rfl
  | submit sub => exact .inl rfl

end

/-! ## Pending bits -/

/-- Settles O9: the register written is another one, which lies apart from this one on the bus, or it is this one, which E2 and
E3 do not write and E1 adds bits to. -/
theorem agentNeverClearsPending : Obligations.AgentNeverClearsPending := by
  intro x s c C G hi hp hw hc hact h0 hG b hb
  have hreg : onBus (groupReg C G C.isOffset) :=
    groupReg_onBus hw (List.mem_of_getElem? hc) hG (by simp [scopedOffsets]) h0
  have hstatus : isStatusReg s.table (isActive s) (groupReg C G C.isOffset) = true :=
    isStatusReg_iff.2 ⟨c, C, G, hc, hact, h0, hG, rfl⟩
  rcases applyAgent_mem_cases x hi with h | ⟨pin, kind, a, v, ha, h, hv⟩ <;> rw [h]
  · exact hb
  · by_cases he : groupReg C G C.isOffset = a
    · subst he
      rcases hv with ⟨bits, rfl⟩ | hfree
      · rw [readWord_writeWord_same, BitVec.getLsbD_or, hb, Bool.true_or]
      · exact absurd (hstatus.symm.trans hfree) (by simp)
    · have hbus : onBus a := addressesAreOnBus s.params s.table pin kind a hp hw ha
      rw [readWord_writeWord_of_ne _ _ _ _ hbus.1 hreg.1 he]
      exact hb

/-! ## Which registers are GPI_IS registers -/

section
variable {P : Params} {T : Table}

/-- An address of a pin: one of its padcfg registers, or its pad group's register at the offset of the kind (R112). -/
theorem Loc.addr_kind_cases {loc : Loc} {pin a : Nat} {kind : RegKind} (h : loc.addr P pin kind = some a) :
    (∃ k ≤ 2, a = padcfgReg P loc.com pin k) ∨
      (kindOffset loc.com kind ≠ 0 ∧ a = groupReg loc.com loc.grp (kindOffset loc.com kind)) := by
  unfold Loc.addr at h
  split at h
  · exact .inl ⟨0, by omega, (Option.some.inj h).symm⟩
  · exact .inl ⟨1, by omega, (Option.some.inj h).symm⟩
  · exact .inl ⟨2, by omega, (Option.some.inj h).symm⟩
  · split at h
    · cases h
    · next h0 => exact .inr ⟨h0, (Option.some.inj h).symm⟩

theorem kindOffset_mem_scopedOffsets {C : Community} {kind : RegKind} (h : kindOffset C kind ≠ 0) :
    kindOffset C kind ∈ scopedOffsets C := by
  cases kind <;> simp_all [kindOffset, scopedOffsets]

/-- On a table without overlaps the kind at the offset of GPI_IS is GPI_IS. -/
theorem kind_eq_gpiIs (hd : layoutDistinct P T) {C : Community} (hC : C ∈ T.communities) {G : PadGroup}
    (hG : G ∈ groupsOf C) {kind : RegKind} (h0 : C.isOffset ≠ 0) (h : kindOffset C kind = C.isOffset) : kind = .gpiIs := by
  cases kind with
  | gpiIs => rfl
  | padcfg0 => exact absurd h.symm h0
  | padcfg1 => exact absurd h.symm h0
  | padcfg2 => exact absurd h.symm h0
  | hostswOwn => exact absurd h (isOffset_ne hd hC hG h0).1
  | gpiIe => exact absurd h (isOffset_ne hd hC hG h0).2
  | padOwner =>
    exact absurd h (scopedOffsets_apart hd hC hG (.cons_cons _ (.cons _ (.cons _ (.cons _ (.cons_cons _ .slnil))))) h0)
  | padcfgLock =>
    exact absurd h (scopedOffsets_apart hd hC hG (.cons _ (.cons_cons _ (.cons _ (.cons _ (.cons_cons _ .slnil))))) h0)

/-- On an accepted table without overlaps, the address of a pin's register is that of a GPI_IS register only where the register
is the pin's own GPI_IS register. -/
theorem statusReg_addr (hw : tableWf P T = true) (hd : layoutDistinct P T) {pin a : Nat} {kind : RegKind} {loc : Loc}
    (hr : resolve T pin = some loc) (ha : regAddr P T pin kind = some a) {sel : Nat → Bool}
    (h : isStatusReg T sel a = true) : kind = .gpiIs ∧ sel loc.c = true := by
  obtain ⟨c, C, G, hc, hsel, h0, hG, e⟩ := isStatusReg_iff.1 h
  have hloc := (resolve_some hr).1
  have haddr : loc.addr P pin kind = some a := by rwa [regAddr, hr] at ha
  rcases Loc.addr_kind_cases haddr with ⟨k, hk, rfl⟩ | ⟨hne, rfl⟩
  · exact absurd e
      (groupReg_ne_padcfgReg hd hc hloc hG (by simp [scopedOffsets]) h0 (mem_communityPins_of_resolve hr) hk)
  · obtain ⟨g, hg⟩ := List.getElem?_of_mem hG
    obtain ⟨rfl, -, ho⟩ := groupReg_inj hd hc hloc hg (resolve_group hw hr).1 (by simp [scopedOffsets])
      (kindOffset_mem_scopedOffsets hne) h0 hne e
    obtain rfl : C = loc.com := Option.some.inj (hc.symm.trans hloc)
    exact ⟨kind_eq_gpiIs hd (resolve_com_mem hr) hG h0 ho.symm, hsel⟩

end

/-- Settles O10: the rule of each kind of step. E2 and E3 write where the address is not that of a GPI_IS register of an active
community, which by `statusReg_addr` it cannot be for E2 in an inactive community nor for E3 with another kind. -/
theorem agentStepEffects : Obligations.AgentStepEffects := by
  intro s
  refine ⟨rfl, fun sub => rfl, fun a v => ⟨applyAgent_powerOn_initialized a v, fun hi ha => ?_⟩,
    fun pin bits => ⟨applyAgent_pending_none bits, fun a ha => ?_⟩, applyAgent_firmware_gpiIs,
    fun pin kind v ha => ⟨applyAgent_railOff_none v ha, applyAgent_firmware_none v ha⟩,
    fun pin kind v a loc hr ha => ⟨fun hact => ?_, fun hw hd => ⟨fun hoff => ?_, fun hkind => ?_⟩⟩⟩
  · rw [applyAgent_powerOn_bare v hi ha]
    exact registerBecomes_setReg ..
  · rw [applyAgent_pending bits ha]
    exact registerBecomes_setReg ..
  · rw [applyAgent_railOff v hr ha, if_neg (by simp [hact])]
  · have hfree : isStatusReg s.table (isActive s) a = false :=
      Bool.eq_false_iff.2 fun h => absurd (hoff.symm.trans (statusReg_addr hw hd hr ha h).2) (by simp)
    rw [applyAgent_railOff v hr ha, if_pos ⟨hoff, hfree⟩]
    exact registerBecomes_setReg ..
  · have hfree : isStatusReg s.table (isActive s) a = false :=
      Bool.eq_false_iff.2 fun h => hkind (statusReg_addr hw hd hr ha h).1
    rw [applyAgent_firmware v ha, if_pos ⟨hkind, hfree⟩]
    exact registerBecomes_setReg ..

end Sys2Proof.Machine
end

section
/-! PROOFS. The command encoding (spec/30_encoding.md R86 to R91, R100, R101): decoding and encoding undo each other, and the
words that decode are the legal ones.

`decode_eq_ok_iff` says once what the checks of R91 let through, and `assemble` is all they leave: `assemble_encode` and
`encode_of_assemble` are the two directions of the encoding, `isSome_assemble` its domain. Each splits on the opcodes, of
which only those with a `SUB` operand or operand words differ from the rest. -/

namespace Sys2Proof

section
variable {w : CmdWords} {i : Instr} {o : Opcode} {sub : BitVec 3} {pin : Nat}

/-! ## Opcodes -/

theorem ofBits_eq_some_iff {b : BitVec 5} : Opcode.ofBits b = some o ↔ o.bits = b :=
  ⟨bits_of_ofBits b o, fun h => h ▸ ofBits_bits o⟩

/-- R89, R100: the `OPC` values of the opcodes are 0x01 to 0x16. -/
theorem exists_bits_eq_iff {b : BitVec 5} : (∃ o : Opcode, o.bits = b) ↔ 1 ≤ b.toNat ∧ b.toNat ≤ 0x16 := by
  have hdom : (Opcode.ofBits b).isSome = true ↔ 1 ≤ b.toNat ∧ b.toNat ≤ 0x16 := by revert b; decide
  simp only [← hdom, Option.isSome_iff_exists, ofBits_eq_some_iff]

/-- The opcodes without a pin (R89), by their `OPC` values. -/
theorem takesPin_eq_false_iff : o.takesPin = false ↔
    o.bits.toNat = 0x01 ∨ o.bits.toNat = 0x11 ∨ o.bits.toNat = 0x13 ∨ o.bits.toNat = 0x14 ∨ o.bits.toNat = 0x15 := by
  cases o <;> decide

theorem eq_writePadcfg_iff : o = .writePadcfg ↔ o.bits.toNat = 0x09 := by
  cases o <;> decide

/-! ## `SUB` operands: the codes of R88 -/

theorem noSub_eq_some_iff {u : Unit} : noSub sub = some u ↔ sub = 0#3 := by simp [noSub]

theorem isSome_noSub : (noSub sub).isSome = true ↔ sub.toNat = 0 := by revert sub; decide

theorem RegKind.ofCode_eq_iff {k : RegKind} : RegKind.ofCode sub = k ↔ k.code = sub := by
  cases k <;> revert sub <;> decide

theorem PadIdx.ofCode_eq_some_iff {k : PadIdx} : PadIdx.ofCode sub = some k ↔ k.code = sub := by
  cases k <;> revert sub <;> decide

theorem PadIdx.isSome_ofCode : (PadIdx.ofCode sub).isSome = true ↔ sub.toNat ≤ 2 := by revert sub; decide

theorem TrigType.ofCode_eq_some_iff {t : TrigType} : TrigType.ofCode sub = some t ↔ t.code = sub := by
  cases t <;> revert sub <;> decide

theorem TrigType.isSome_ofCode : (TrigType.ofCode sub).isSome = true ↔ sub.toNat ≤ 3 := by revert sub; decide

theorem flagOfCode_eq_some_iff {f : Bool} : flagOfCode sub = some f ↔ flagCode f = sub := by
  cases f <;> revert sub <;> decide

theorem isSome_flagOfCode : (flagOfCode sub).isSome = true ↔ sub.toNat ≤ 1 := by revert sub; decide

theorem PowerState.ofCode_eq_some_iff {p : PowerState} : PowerState.ofCode sub = some p ↔ p.code = sub := by
  cases p <;> revert sub <;> decide

theorem PowerState.isSome_ofCode : (PowerState.ofCode sub).isSome = true ↔ sub.toNat ≤ 1 := by revert sub; decide

/-! ## The value word of `WRITE_PADCFG` (R90) -/

theorem low_setWidth (v : Word) : (v.setWidth 64).extractLsb' 0 32 = v := by
  apply BitVec.eq_of_toNat_eq
  simp only [BitVec.extractLsb'_toNat, BitVec.toNat_setWidth]
  omega

theorem high_setWidth (v : Word) : (v.setWidth 64).extractLsb' 32 32 = 0#32 := by
  apply BitVec.eq_of_toNat_eq
  simp only [BitVec.extractLsb'_toNat, BitVec.toNat_setWidth, BitVec.toNat_ofNat]
  omega

/-- A word whose high half is 0 is its low half, extended. -/
theorem setWidth_low {v : Word64} (h : v.extractLsb' 32 32 = 0#32) : (v.extractLsb' 0 32).setWidth 64 = v := by
  have hhigh := congrArg BitVec.toNat h
  apply BitVec.eq_of_toNat_eq
  simp only [BitVec.extractLsb'_toNat, BitVec.toNat_setWidth, BitVec.toNat_ofNat] at hhigh ⊢
  omega

/-! ## Commands -/

/-- R101: a command has an encoding when its pin fits the field. -/
theorem wf_iff_pin_lt : i.wf = true ↔ i.pin < 2 ^ 16 := by
  cases i <;> simp [Instr.wf, Instr.pin, pinWf, pinWidth]

theorem pin_eq_zero (h : i.opcode.takesPin = false) : i.pin = 0 := by
  cases i with
  | init | dispatch | suspend | resume | setPowerState => rfl
  | _ => cases h

/-- The operand of `WRITE_PADCFG` is encoded with a high half of 0. -/
theorem high_encode (h : i.opcode = .writePadcfg) : (encode i).opnd0.extractLsb' 32 32 = 0#32 := by
  cases i with
  | writePadcfg pin k value => exact high_setWidth value
  | _ => cases h

/-! ## Decoding -/

/-- What passes the five checks of R91. -/
theorem decode_eq_ok_iff : decode w = .ok i ↔
    ∃ o : Opcode, o.bits = opcField w.cmd ∧ rsvField w.cmd = 0#8 ∧
      assemble o (subField w.cmd) (pinField w.cmd).toNat w = some i ∧
      (o.takesPin = false → pinField w.cmd = 0#16) ∧ (o = .writePadcfg → w.opnd0.extractLsb' 32 32 = 0#32) := by
  simp only [← ofBits_eq_some_iff, decode]
  constructor
  · intro h
    split at h
    · cases h
    next o ho =>
    split at h
    · cases h
    next hrsv =>
    split at h
    · cases h
    next j hj =>
    split at h
    · cases h
    next hpin =>
    split at h
    · cases h
    next hhigh =>
    cases h
    exact ⟨o, ho, not_not.1 hrsv, hj, by simpa using hpin, by simpa using hhigh⟩
  · rintro ⟨o, ho, hrsv, hi, hpin, hhigh⟩
    simp only [ho, hrsv, hi]
    rw [if_neg (not_not.2 rfl), if_neg fun h => h.2 (hpin h.1), if_neg fun h => h.2 (hhigh h.1)]

/-- The decoder's operand assembly reads back what the encoder writes. -/
theorem assemble_encode (i : Instr) : assemble i.opcode i.sub i.pin (encode i) = some i := by
  cases i with
  | regaddr pin kind => simp [assemble, Instr.opcode, Instr.sub, Instr.pin, RegKind.ofCode_eq_iff.2 rfl]
  | readPadcfg pin k =>
    simp [assemble, Instr.opcode, Instr.sub, Instr.pin, PadIdx.ofCode_eq_some_iff.2 rfl]
  | writePadcfg pin k value =>
    simp [assemble, Instr.opcode, Instr.sub, Instr.pin, encode, PadIdx.ofCode_eq_some_iff.2 rfl, low_setWidth]
  | setTriggerType pin type =>
    simp [assemble, Instr.opcode, Instr.sub, Instr.pin, TrigType.ofCode_eq_some_iff.2 rfl]
  | maskUnmask pin mask => simp [assemble, Instr.opcode, Instr.sub, Instr.pin, flagOfCode_eq_some_iff.2 rfl]
  | dispatch first => simp [assemble, Instr.opcode, Instr.sub, flagOfCode_eq_some_iff.2 rfl]
  | setPowerState state => simp [assemble, Instr.opcode, Instr.sub, PowerState.ofCode_eq_some_iff.2 rfl]
  | _ => rfl

/-- What the assembled command is encoded with: the opcode, `SUB` and pin it was assembled from, and its own operand words. -/
theorem encode_of_assemble (h : assemble o sub pin w = some i)
    (hhigh : o = .writePadcfg → w.opnd0.extractLsb' 32 32 = 0#32) :
    i.opcode = o ∧ i.pin = (if o.takesPin then pin else 0) ∧
      encode i = ⟨packCmd o.bits sub 0#8 (BitVec.ofNat 16 (if o.takesPin then pin else 0)),
        if 1 ≤ o.operandWords then w.opnd0 else 0, if 2 ≤ o.operandWords then w.opnd1 else 0,
        if 3 ≤ o.operandWords then w.opnd2 else 0⟩ := by
  cases o with
  | regaddr =>
    obtain rfl := Option.some.inj h
    generalize hk : RegKind.ofCode sub = k
    obtain rfl := RegKind.ofCode_eq_iff.1 hk
    exact ⟨rfl, rfl, rfl⟩
  | readPadcfg =>
    obtain ⟨k, hk, rfl⟩ := Option.map_eq_some_iff.1 h
    obtain rfl := PadIdx.ofCode_eq_some_iff.1 hk
    exact ⟨rfl, rfl, rfl⟩
  | writePadcfg =>
    obtain ⟨k, hk, rfl⟩ := Option.map_eq_some_iff.1 h
    obtain rfl := PadIdx.ofCode_eq_some_iff.1 hk
    refine ⟨rfl, rfl, ?_⟩
    rw [encode, setWidth_low (hhigh rfl)]
    rfl
  | setTriggerType =>
    obtain ⟨t, ht, rfl⟩ := Option.map_eq_some_iff.1 h
    obtain rfl := TrigType.ofCode_eq_some_iff.1 ht
    exact ⟨rfl, rfl, rfl⟩
  | maskUnmask | dispatch =>
    obtain ⟨f, hf, rfl⟩ := Option.map_eq_some_iff.1 h
    obtain rfl := flagOfCode_eq_some_iff.1 hf
    exact ⟨rfl, rfl, rfl⟩
  | setPowerState =>
    obtain ⟨p, hp, rfl⟩ := Option.map_eq_some_iff.1 h
    obtain rfl := PowerState.ofCode_eq_some_iff.1 hp
    exact ⟨rfl, rfl, rfl⟩
  | _ =>
    obtain ⟨_, hs, rfl⟩ := Option.map_eq_some_iff.1 h
    obtain rfl := noSub_eq_some_iff.1 hs
    exact ⟨rfl, rfl, rfl⟩

end

/-! ## The two directions -/

/-- Settles O1: the fields of an encoded command word read back, and assembly reads back the rest. -/
theorem decodeReadsEncode : Obligations.DecodeReadsEncode := by
  intro i hwf
  obtain ⟨hopc, hsub, hrsv, hpin⟩ := Laws.FieldsReadBack.of_pack i
  have hnat : (BitVec.ofNat 16 i.pin).toNat = i.pin := Nat.mod_eq_of_lt (wf_iff_pin_lt.1 hwf)
  refine decode_eq_ok_iff.2 ⟨i.opcode, hopc.symm, hrsv, ?_, fun h => ?_, high_encode⟩
  · rw [hsub, hpin, hnat]
    exact assemble_encode i
  · rw [hpin, pin_eq_zero h]

/-- Settles O2: the command is encoded with what it was assembled from, and the fields of a command word make it up. -/
theorem encodeReadsDecode : Obligations.EncodeReadsDecode := by
  intro w i h
  obtain ⟨o, hopc, hrsv, hi, hunused, hhigh⟩ := decode_eq_ok_iff.1 h
  obtain ⟨rfl, hpin, henc⟩ := encode_of_assemble hi hhigh
  have hfield : (if i.opcode.takesPin then (pinField w.cmd).toNat else 0) = (pinField w.cmd).toNat := by
    split
    · rfl
    · next hp => rw [hunused (Bool.eq_false_iff.2 hp)]; rfl
  refine ⟨wf_iff_pin_lt.2 ?_, ?_⟩
  · rw [hpin, hfield]
    exact (pinField w.cmd).isLt
  · rw [henc, hfield, hopc, ← hrsv, BitVec.ofNat_toNat, BitVec.setWidth_eq, packCmd_fields]

/-- Settles O4: each check of R91 is evaluated on the seven words. -/
theorem specWordsDecode : Obligations.SpecWordsDecode := ⟨rfl, rfl, rfl, rfl, rfl, rfl, rfl⟩

end Sys2Proof

namespace Sys2Proof.Machine

/-! ## Legal words -/

/-- Assembly fails exactly where R88 calls `SUB` illegal. -/
theorem isSome_assemble {o : Opcode} {sub : BitVec 3} {pin : Nat} {w : CmdWords} :
    (assemble o sub pin w).isSome = true ↔ legalSub o.bits.toNat sub.toNat := by
  cases o with
  | regaddr => exact iff_of_true rfl trivial
  | readPadcfg | writePadcfg => rw [assemble, Option.isSome_map]; exact PadIdx.isSome_ofCode
  | setTriggerType => rw [assemble, Option.isSome_map]; exact TrigType.isSome_ofCode
  | maskUnmask | dispatch => rw [assemble, Option.isSome_map]; exact isSome_flagOfCode
  | setPowerState => rw [assemble, Option.isSome_map]; exact PowerState.isSome_ofCode
  | _ => rw [assemble, Option.isSome_map]; exact isSome_noSub

/-- R91, R100: check by check, what `decode` lets through is what `legalWords` asks in numbers. -/
theorem decodes_iff_legalWords (w : CmdWords) : (∃ i, decode w = .ok i) ↔ legalWords w := by
  constructor
  · rintro ⟨i, h⟩
    obtain ⟨o, ho, hrsv, hi, hpin, hhigh⟩ := decode_eq_ok_iff.1 h
    have hsub : legalSub o.bits.toNat (subField w.cmd).toNat := isSome_assemble.1 (Option.isSome_of_mem hi)
    rw [takesPin_eq_false_iff, ho] at hpin
    rw [eq_writePadcfg_iff, ho] at hhigh
    rw [ho] at hsub
    exact ⟨exists_bits_eq_iff.1 ⟨o, ho⟩, hrsv, hsub, hpin, hhigh⟩
  · rintro ⟨hopc, hrsv, hsub, hpin, hhigh⟩
    obtain ⟨o, ho⟩ := exists_bits_eq_iff.2 hopc
    rw [← ho] at hsub hpin hhigh
    obtain ⟨i, hi⟩ := Option.isSome_iff_exists.1 (isSome_assemble.2 hsub)
    exact ⟨i, decode_eq_ok_iff.2 ⟨o, ho, hrsv, hi, fun h => hpin (takesPin_eq_false_iff.1 h),
      fun h => hhigh (eq_writePadcfg_iff.1 h)⟩⟩

/-- Settles O3: of the four answers of a step, the premises leave the refusal of words that do not decode. -/
theorem illegalWordsEndWithIllegalCommand : Obligations.IllegalWordsEndWithIllegalCommand := by
  refine ⟨decodes_iff_legalWords, fun s sub rest hp hq hillegal => ?_⟩
  rcases step_cases s with ⟨hp', -⟩ | ⟨-, hq', -⟩ | ⟨-, sub', rest', hq', h⟩
  · exact absurd (hp.symm.trans hp') (by simp)
  · exact absurd (hq.symm.trans hq') (by simp)
  · obtain ⟨rfl, rfl⟩ := List.cons.inj (hq.symm.trans hq')
    rcases h with ⟨e, -, h⟩ | ⟨i, hi, -⟩
    · exact h
    · exact absurd ((decodes_iff_legalWords _).1 ⟨i, hi⟩) hillegal

end Sys2Proof.Machine
end

section
/-! PROOFS. The address resolver (spec/40_resolver.md): a declared pin lies in one community alone (R116), and what its two
commands answer for a pin that resolves (R113, R114). Neither makes an access, so each answer is the state with a response. -/

namespace Sys2Proof.Machine

/-! ## One community for each declared pin -/

section
variable {P : Params} {T : Table} {p : Nat}

/-- The declared pins of an accepted table are the pins of its communities (R203 W7). -/
theorem declared_iff_mem_allPins (hw : tableWf P T = true) : p ∈ T.pins.map (·.number) ↔ p ∈ allPins T := by
  simp only [tableWf, Bool.and_eq_true] at hw
  obtain ⟨⟨⟨-, h7⟩, -⟩, -⟩ := hw
  simp only [checkW7, Bool.and_eq_true, List.all_eq_true, List.any_eq_true, decide_eq_true_eq,
    List.contains_eq_mem] at h7
  obtain ⟨⟨-, hin⟩, hall⟩ := h7
  exact ⟨fun h => mem_allPins.2 (hin p h), hall p⟩

/-- Communities stand in the order of their ranges: one that begins at or below a pin does not come after one that ends above
it. -/
theorem community_index_le (hw : tableWf P T = true) {c d : Nat} {C D : Community} (hC : T.communities[c]? = some C)
    (hD : T.communities[d]? = some D) (hbegin : C.pinBase ≤ p) (hend : p < D.pinBase + D.pinsTotal) : c ≤ d := by
  obtain ⟨hc, rfl⟩ := List.getElem?_eq_some_iff.1 hC
  obtain ⟨hd, rfl⟩ := List.getElem?_eq_some_iff.1 hD
  by_contra! hlt
  have hapart := List.pairwise_iff_getElem.1 (communities_pairwise hw) d c hd hc hlt
  omega

end

/-- Settles O21: by W7 the pin lies in a community, and by W2 two communities that hold it stand at one index. -/
theorem resolveIsUnique : Obligations.ResolveIsUnique := by
  intro P T p hw hp
  obtain ⟨loc, hr⟩ := (resolve_isSome_iff hw p).2 ((declared_iff_mem_allPins hw).1 hp)
  obtain ⟨hcom, hbegin, hend, -⟩ := resolve_some hr
  refine ⟨loc, hr, hcom, fun c C hC => ⟨fun ⟨hbegin', hend'⟩ => ?_, ?_⟩⟩
  · exact (community_index_le hw hC hcom hbegin' hend).antisymm (community_index_le hw hcom hC hbegin hend')
  · rintro rfl
    obtain rfl : C = loc.com := Option.some.inj (hC.symm.trans hcom)
    exact ⟨hbegin, hend⟩

/-! ## `RESOLVE` -/

section
variable {s : State} {pin a : Nat} {loc : Loc} {kind : RegKind}

theorem exec_resolve_some (hi : s.initialized = true) (hr : resolve s.table pin = some loc) :
    exec (.resolve pin) s = .next (respond .ok (resolveValue loc pin) s) := by
  show execResolve pin s = _
  rw [execResolve, whenInit_true _ _ hi, whenResolved_some _ _ _ _ _ hr]

/-- The four fields of `RESOLVE`'s payload, read back (R93). -/
theorem resolveValue_fields (loc : Loc) (pin : Nat) :
    (resolveValue loc pin).extractLsb' 0 16 = BitVec.ofNat 16 loc.c ∧
      (resolveValue loc pin).extractLsb' 16 16 = BitVec.ofNat 16 loc.g ∧
      (resolveValue loc pin).extractLsb' 32 16 = BitVec.ofNat 16 (pin - loc.com.pinBase) ∧
      (resolveValue loc pin).extractLsb' 48 16 = 0 := by
  have above {n start : Nat} (v : BitVec n) (w : BitVec 16) :
      (v ++ w).extractLsb' (start + 16) 16 = v.extractLsb' start 16 :=
    BitVec.extractLsb'_append_eq_of_le (Nat.le_add_left ..)
  exact ⟨BitVec.extractLsb'_append_eq_right, (above _ _).trans BitVec.extractLsb'_append_eq_right,
    (above _ _).trans ((above _ _).trans BitVec.extractLsb'_append_eq_right),
    (above _ _).trans ((above _ _).trans BitVec.extractLsb'_append_eq_left)⟩

/-! ## `REGADDR` -/

theorem exec_regaddr_some (hi : s.initialized = true) (h : regAddr s.params s.table pin kind = some a) :
    exec (.regaddr pin kind) s = .next (respond .ok (BitVec.ofNat 64 a) s) := by
  show execRegaddr pin kind s = _
  rw [execRegaddr, whenInit_true _ _ hi, h]

theorem exec_regaddr_none (hi : s.initialized = true) (h : regAddr s.params s.table pin kind = none) :
    exec (.regaddr pin kind) s = .next (raise .addressingFailure s) := by
  show execRegaddr pin kind s = _
  rw [execRegaddr, whenInit_true _ _ hi, h]

theorem regAddr_of_resolve (P : Params) {T : Table} (hr : resolve T pin = some loc) (kind : RegKind) :
    regAddr P T pin kind = loc.addr P pin kind := by
  rw [regAddr, hr, Option.bind_some]

/-- A kind that is no padcfg has an address where the community's offset for it is not 0 (R25, R112). -/
theorem Loc.addr_scoped (P : Params) (loc : Loc) (pin : Nat) (h : kind ∉ [.padcfg0, .padcfg1, .padcfg2]) :
    loc.addr P pin kind =
      if kindOffset loc.com kind = 0 then none else some (groupReg loc.com loc.grp (kindOffset loc.com kind)) := by
  cases kind with
  | padcfg0 | padcfg1 | padcfg2 => simp at h
  | padOwner | padcfgLock | hostswOwn | gpiIe | gpiIs => rfl

/-- `REGADDR` of a community-scoped kind: its offset decides between the pad group's register and `AddressingFailure`. -/
theorem exec_regaddr_scoped (hi : s.initialized = true) (hr : resolve s.table pin = some loc)
    (hk : kind ∉ [.padcfg0, .padcfg1, .padcfg2]) :
    (kindOffset loc.com kind = 0 → exec (.regaddr pin kind) s = .next (raise .addressingFailure s)) ∧
    (kindOffset loc.com kind ≠ 0 → exec (.regaddr pin kind) s =
      .next (respond .ok (BitVec.ofNat 64 (groupReg loc.com loc.grp (kindOffset loc.com kind))) s)) := by
  have haddr := (regAddr_of_resolve s.params hr kind).trans (Loc.addr_scoped _ loc pin hk)
  exact ⟨fun h => exec_regaddr_none hi (haddr.trans (if_pos h)), fun h => exec_regaddr_some hi (haddr.trans (if_neg h))⟩

end

/-! ## The answers -/

/-- Settles O23: the payload is the fields that R113 names. -/
theorem resolveAnswersPlace : Obligations.ResolveAnswersPlace :=
  fun _ pin loc hi hr => ⟨resolveValue loc pin, exec_resolve_some hi hr, resolveValue_fields loc pin⟩

/-- Settles O24: the padcfg kinds have an address always, the others as their offset says. -/
theorem regaddrAnswersAddress : Obligations.RegaddrAnswersAddress := by
  intro s pin loc hi hr
  have padcfg (kind : RegKind) (a : Nat) (h : loc.addr s.params pin kind = some a) :
      exec (.regaddr pin kind) s = .next (respond .ok (BitVec.ofNat 64 a) s) :=
    exec_regaddr_some hi ((regAddr_of_resolve _ hr kind).trans h)
  exact ⟨padcfg .padcfg0 _ rfl, padcfg .padcfg1 _ rfl, padcfg .padcfg2 _ rfl,
    exec_regaddr_scoped (kind := .padOwner) hi hr (by decide), exec_regaddr_scoped (kind := .padcfgLock) hi hr (by decide),
    exec_regaddr_scoped (kind := .hostswOwn) hi hr (by decide), exec_regaddr_scoped (kind := .gpiIe) hi hr (by decide),
    exec_regaddr_scoped (kind := .gpiIs) hi hr (by decide)⟩

end Sys2Proof.Machine
end

section
/-! PROOFS. The guard's commands (spec/41_guard.md R126 to R135): what the commands that read answer, what `WRITE_PADCFG`
writes, and that a failing guard leaves every register and record alone.

Each command is its checks (`whenInit_whenResolved`, `checks_passed`) and then a body whose answer is known: one read,
whatever the register agent does before it (`memRead_agentTurn`), or the guard where no agent step is to come
(`guard_quiet`). -/

namespace Sys2Proof.Machine

section
variable {s : State} {pin a : Nat} {loc : Loc}

/-! ## One read, whatever the register agent does before it -/

/-- A read on the bus leaves the register agent's turn and one entry of the trace. -/
theorem memRead_agentTurn (ha : onBus a) :
    memRead a s = .next ((agentTurn s).mem.readWord a,
      { agentTurn s with trace := s.trace ++ [readOf (agentTurn s).mem a] }) := by
  rw [memRead_onBus a s ha, logStep, agentTurn_trace]
  rfl

theorem hostBit_agentTurn (h0 : loc.com.hostOwnerOffset ≠ 0) (hbus : onBus (hostReg loc)) :
    hostBit loc pin s = .next (((agentTurn s).mem.readWord (hostReg loc)).getLsbD (pin - loc.grp.basePin),
      { agentTurn s with trace := s.trace ++ [readOf (agentTurn s).mem (hostReg loc)] }) := by
  rw [hostBit, if_neg h0, memRead_agentTurn hbus]
  rfl

theorem acpi_agentTurn (hbus : onBus (padcfgReg s.params loc.com pin 0)) :
    acpi loc pin s = .next (inAcpiMode s.params loc pin (agentTurn s).mem,
      { agentTurn s with trace := s.trace ++ [readOf (agentTurn s).mem (padcfgReg s.params loc.com pin 0)] }) := by
  have hparams : (agentTurn s).params = s.params := sameBlock_params (agentTurn_sameBlock s)
  simp only [acpi, memRead_agentTurn hbus, andThen_next, hparams]
  rfl

theorem lockState_agentTurn (h0 : loc.com.padConfigLockOffset ≠ 0) (hbus : onBus (lockReg loc)) :
    ∃ l, lockState loc pin s =
        .next (l, { agentTurn s with trace := s.trace ++ [readOf (agentTurn s).mem (lockReg loc)] }) ∧
      (l = .locked ↔ ((agentTurn s).mem.readWord (lockReg loc)).getLsbD (pin - loc.grp.basePin) = true) := by
  rw [lockState, if_neg h0, memRead_agentTurn hbus]
  refine ⟨_, rfl, ?_⟩
  rw [pinBit, Loc.bit]
  split <;> simp [*]

/-! ## The checks, passed -/

theorem whenInit_whenResolved {e : ResultCode} {k : Loc → Out} (hi : s.initialized = true)
    (hr : resolve s.table pin = some loc) : whenInit s (whenResolved e pin s k) = k loc := by
  rw [whenInit_true _ _ hi, whenResolved_some _ _ _ _ _ hr]

/-- A command past the initialized, the resolved and the active check goes on with the pin's place. -/
theorem checks_passed {e : ResultCode} {i : Instr} {k : Loc → Out} (hi : s.initialized = true)
    (hr : resolve s.table pin = some loc) (hact : isActive s loc.c = true) :
    whenInit s (whenResolved e pin s fun l => whenActive i pin l s (k l)) = k loc := by
  rw [whenInit_whenResolved hi hr, whenActive_true _ _ _ _ _ hact]

/-- A guarded command on an active pin ends where the guard does not pass (R134, R135). -/
theorem whenActive_denied {i : Instr} {k : State → Out} (hact : isActive s loc.c = true)
    (hbus : guardOnBus s.params loc pin) (hq : Quiet s) (hden : mayMutate s.params loc pin s.mem = false) :
    whenActive i pin loc s (whenGuarded loc pin s k) = .next { s with
      respCode := if hostOwned loc pin s.mem && !inAcpiMode s.params loc pin s.mem then 0x03#8 else 0x02#8
      respValue := 0, trace := s.trace ++ guardReads s.params loc pin s.mem } := by
  rw [whenActive_true _ _ _ _ _ hact, whenGuarded_denied hbus hq hden]

/-- `ENABLE` and `DISABLE` on a registered pin with a GPI_IE register run `MASK_UNMASK`'s sequence (R161, R162). -/
theorem registeredMask_registered {i : Instr} {mask : Bool} (hi : s.initialized = true)
    (hr : resolve s.table pin = some loc) (h0 : loc.com.interruptEnableOffset ≠ 0)
    (hreg : (irqOf s pin).state ≠ .unregistered) :
    registeredMask i pin mask s = maskSequence i pin mask loc s := by
  rw [registeredMask, whenInit_whenResolved hi hr, if_neg h0, if_neg hreg]

end

/-! ## Commands that answer after one read -/

/-- Settles O28: without the register the command answers at once, with it after `host_bit`'s read. -/
theorem ownedByHostAnswers : Obligations.OwnedByHostAnswers := by
  intro s pin loc hi hr
  refine ⟨fun h0 => ?absent, fun h0 hact hbus => ?present⟩ <;>
    show execOwnedByHost pin s = _ <;> rw [execOwnedByHost, whenInit_whenResolved hi hr]
  case absent => rw [if_pos h0]; rfl
  case present => rw [if_neg h0, whenActive_true _ _ _ _ _ hact, hostBit_agentTurn h0 hbus]; rfl

/-- Settles O29: the answer is the mux-mode comparison of `acpi`. -/
theorem acpiModeAnswers : Obligations.AcpiModeAnswers := by
  intro s pin loc hi hr hact hbus
  show execAcpiMode pin s = _
  rw [execAcpiMode, checks_passed hi hr hact, acpi_agentTurn hbus]
  rfl

/-- Settles O30: both commands read `lock_state` and answer by whether it is locked. -/
theorem lockCommandsAnswer : Obligations.LockCommandsAnswer := by
  intro s pin loc hi hr
  refine ⟨fun h0 => ⟨?_, ?_⟩, fun h0 hact hbus => ?_⟩
  · show execLocked pin s = _
    rw [execLocked, whenInit_whenResolved hi hr, if_pos h0]; rfl
  · show execIsUnlocked pin s = _
    rw [execIsUnlocked, whenInit_whenResolved hi hr, if_pos h0]; rfl
  · obtain ⟨l, hread, hlocked⟩ := lockState_agentTurn (pin := pin) h0 hbus
    constructor
    · show execLocked pin s = _
      rw [execLocked, whenInit_whenResolved hi hr, if_neg h0, whenActive_true _ _ _ _ _ hact, hread, andThen_next]
      simp only [hlocked]; rfl
    · show execIsUnlocked pin s = _
      rw [execIsUnlocked, whenInit_whenResolved hi hr, if_neg h0, whenActive_true _ _ _ _ _ hact, hread, andThen_next]
      simp only [hlocked]; rfl

/-- Settles O32: no guard stands before the read. -/
theorem readPadcfgAnswers : Obligations.ReadPadcfgAnswers := by
  intro s pin loc k hi hr hact hbus
  show execReadPadcfg pin k s = _
  rw [execReadPadcfg, checks_passed hi hr hact, memRead_agentTurn hbus, andThen_next, ← BitVec.ofNat_toNat]
  rfl

/-! ## Commands that run the guard -/

/-- Settles O31: the verdict is `pass` exactly where the three checks of R126 pass. -/
theorem pinStatusAnswers : Obligations.PinStatusAnswers := by
  intro s pin loc hi hr
  refine ⟨fun hact => ?inactive, fun hact hq hbus => ?active⟩ <;>
    show execGetPinStatus pin s = _ <;> simp only [execGetPinStatus, whenInit_true _ _ hi, hr]
  case inactive => rw [if_pos hact]; rfl
  case active =>
    rw [if_neg (by simp [hact]), guard_quiet hbus hq, andThen_next]
    simp only [verdictOf_pass]; rfl

/-- Settles O33: past the guard's reads, the command is one bus write. -/
theorem writePadcfgWrites : Obligations.WritePadcfgWrites := by
  intro s pin loc k value hi hr hact hq hguard hbus hpass a
  obtain ⟨t, hwrite, hshape, hword, hframe⟩ :=
    memWrite_quiet_spec (v := value) (s := { s with trace := s.trace ++ guardReads s.params loc pin s.mem }) hbus hq
  refine ⟨respond .ok 0 t, ?_, ?_, hword, hframe⟩
  · show execWritePadcfg pin k value s = _
    rw [execWritePadcfg, checks_passed hi hr hact, whenGuarded_pass hguard hq hpass, hwrite, thenState_next]
  · conv_lhs => rw [hshape]
    rfl

/-- Settles O34: each of the six commands is, past its own checks, an active check and the guard before all else. -/
theorem deniedMutationsTouchNothing : Obligations.DeniedMutationsTouchNothing := by
  intro s pin loc hi hr hact hq hbus hden denied
  have body {i : Instr} {k : State → Out} := whenActive_denied (i := i) (k := k) hact hbus hq hden
  refine ⟨fun k v => ?writePadcfg, fun t => ?setTriggerType, fun h0 m => ?maskUnmask, fun hbase hreg o c x => ?register,
    fun h0 hreg => ⟨?enable, ?disable⟩⟩
  case writePadcfg => exact (whenInit_whenResolved hi hr).trans body
  case setTriggerType => exact (whenInit_whenResolved hi hr).trans body
  case maskUnmask =>
    show execMaskUnmask pin m s = _
    rw [execMaskUnmask, whenInit_whenResolved hi hr, if_neg h0]
    exact body
  case register =>
    show execRegister pin o c x s = _
    rw [execRegister, whenInit_whenResolved hi hr, if_neg (by omega), if_neg (by simp [hreg])]
    exact body
  case enable => exact (registeredMask_registered hi hr h0 hreg).trans body
  case disable => exact (registeredMask_registered hi hr h0 hreg).trans body

end Sys2Proof.Machine
end

section
/-! PROOFS. The interrupt controller's per-pin commands (spec/42_interrupt.md R146 to R163): the trigger encoding, what each
command reads, writes and records, and that a pin's state moves along the rows of R152 alone.

The commands that write a register have one shape: past the checks and the guard's reads, one read and one write
(`guardedReadModifyWrite_quiet`), then the record. For the state machine, `Moves` says which changes of state a stretch of a
command can make: none before the record is written, and none but unmasked to masked in a resume. -/

namespace Sys2Proof.Machine

/-! ## The trigger encoding -/

section
variable {P : Params} {t : TrigType} {v : Word} {b k m n sh : Nat}

/-- A number up to a mask of the form 2^w - 1 has no bit outside it. -/
theorem and_mask_of_le (hm : maskForm m) (hn : n ≤ m) : n &&& m = n := by
  obtain ⟨w, -, hw⟩ := hm
  obtain rfl : m = 2 ^ w - 1 := by omega
  exact Nat.and_two_pow_sub_one_of_lt_two_pow (by omega)

theorem getLsbD_ofNat_shiftLeft (n sh : Nat) (hb : b < 32) :
    (BitVec.ofNat 32 n <<< sh).getLsbD b = (n * 2 ^ sh).testBit b := by
  have hlt : b - sh < 32 := by omega
  simp only [BitVec.getLsbD_shiftLeft, BitVec.getLsbD_ofNat, Nat.testBit_mul_two_pow, hb, hlt, decide_true,
    Bool.true_and, ← Nat.not_lt, decide_not]

theorem getLsbD_bitMask (hb : b < 32) : (bitMask k).getLsbD b = decide (b = k) := by
  rw [bitMask, getLsbD_ofNat_shiftLeft 1 k hb, Nat.one_mul, Nat.testBit_two_pow]
  simp only [eq_comm]

/-- The value `kindval` gives a type, as a number of the parameters (R147). -/
def kindNum (P : Params) : TrigType → Nat
  | .levelHigh | .levelLow => P.trigLevelVal
  | .edgeRising | .edgeFalling => P.trigEdgeVal

theorem kindVal_eq (P : Params) (t : TrigType) : kindVal P t = BitVec.ofNat 32 (kindNum P t) := by
  cases t <;> rfl

/-- R8's edge and level values have no bit outside the mask of the edge/level field. -/
theorem kindNum_and_trigMask (hP : paramsMeetR8 P) (t : TrigType) : kindNum P t &&& P.trigMask = kindNum P t := by
  obtain ⟨-, hmask, -, -, -, -, -, hedge, hlevel, -⟩ := hP
  cases t with
  | levelHigh | levelLow => exact and_mask_of_le hmask hlevel
  | edgeRising | edgeFalling => exact and_mask_of_le hmask hedge

/-- The written field lies within the edge/level field. -/
theorem testBit_field_of_kind (hP : paramsMeetR8 P) (h : (kindNum P t * 2 ^ P.trigShift).testBit b = true) :
    (P.trigMask * 2 ^ P.trigShift).testBit b = true := by
  rw [← kindNum_and_trigMask hP] at h
  simp only [Nat.testBit_mul_two_pow, Nat.testBit_and, Bool.and_eq_true] at h ⊢
  exact ⟨h.1, h.2.2⟩

/-- Bit by bit: the encoding keeps `v` outside the field and the polarity bit, and writes the type's value and polarity. -/
theorem getLsbD_encTrig (P : Params) (t : TrigType) (v : Word) (hb : b < 32) :
    (encTrig P t v).getLsbD b =
      (v.getLsbD b && !(P.trigMask * 2 ^ P.trigShift).testBit b && !decide (b = P.invBit)
        || (kindNum P t * 2 ^ P.trigShift).testBit b || invVal t && decide (b = P.invBit)) := by
  simp only [encTrig, trigFieldMask, kindVal_eq, BitVec.getLsbD_or, BitVec.getLsbD_and, BitVec.getLsbD_not,
    getLsbD_ofNat_shiftLeft _ _ hb, getLsbD_bitMask hb, hb, decide_true, Bool.true_and]
  cases invVal t <;> simp [getLsbD_bitMask hb]

theorem getLsbD_encTrig_outside (hP : paramsMeetR8 P) (hb : b < 32)
    (hfield : (P.trigMask * 2 ^ P.trigShift).testBit b = false) (hinv : b ≠ P.invBit) :
    (encTrig P t v).getLsbD b = v.getLsbD b := by
  have hkind : (kindNum P t * 2 ^ P.trigShift).testBit b = false :=
    Bool.eq_false_iff.2 fun h => absurd (hfield.symm.trans (testBit_field_of_kind hP h)) (by simp)
  simp [getLsbD_encTrig P t v hb, hfield, hinv, hkind]

theorem getLsbD_encTrig_invBit (hP : paramsMeetR8 P) : (encTrig P t v).getLsbD P.invBit = invVal t := by
  obtain ⟨-, -, -, -, hb, hfield, -⟩ := id hP
  have hkind : (kindNum P t * 2 ^ P.trigShift).testBit P.invBit = false :=
    Bool.eq_false_iff.2 fun h => absurd (hfield.symm.trans (testBit_field_of_kind hP h)) (by simp)
  simp [getLsbD_encTrig P t v (Nat.lt_succ_of_le hb), hkind]

/-- The field of an encoded value holds the type's value: a bit of the mask lies in the field, away from the polarity bit. -/
theorem trigField_encTrig (hP : paramsMeetR8 P) : trigField P (encTrig P t v) = kindVal P t := by
  obtain ⟨-, -, -, hfits, -, hinv, -⟩ := id hP
  rw [kindVal_eq]
  refine BitVec.eq_of_getLsbD_eq fun j hj => ?_
  simp only [trigField, BitVec.getLsbD_and, BitVec.getLsbD_ushiftRight, BitVec.getLsbD_ofNat, hj, decide_true,
    Bool.true_and]
  cases hmask : P.trigMask.testBit j with
  | false =>
    rw [Bool.and_false, ← kindNum_and_trigMask hP, Nat.testBit_and, hmask, Bool.and_false]
  | true =>
    have hfield : (P.trigMask * 2 ^ P.trigShift).testBit (P.trigShift + j) = true := by
      simp [Nat.testBit_mul_two_pow, hmask]
    have hb : P.trigShift + j < 32 :=
      (Nat.pow_lt_pow_iff_right (by decide)).1 ((Nat.ge_two_pow_of_testBit hfield).trans_lt hfits)
    have hne : P.trigShift + j ≠ P.invBit := fun e => by simp [e, hinv] at hfield
    rw [getLsbD_encTrig P t v hb, hfield]
    simp [hne, Nat.testBit_mul_two_pow]

/-- A value up to the mask is not cut by the word's width. -/
theorem toNat_ofNat_of_le_trigMask (hP : paramsMeetR8 P) (hn : n ≤ P.trigMask) : (BitVec.ofNat 32 n).toNat = n := by
  obtain ⟨-, -, -, hfits, -⟩ := hP
  have hmask : P.trigMask < 2 ^ 32 := (Nat.le_mul_of_pos_right _ (by positivity)).trans_lt hfits
  rw [BitVec.toNat_ofNat, Nat.mod_eq_of_lt (hn.trans_lt hmask)]

/-- The edge/level field, as a number. -/
theorem trigField_eq_ofNat (hP : paramsMeetR8 P) (hn : n ≤ P.trigMask) :
    trigField P v = BitVec.ofNat 32 n ↔ (v.toNat >>> P.trigShift) &&& P.trigMask = n := by
  rw [BitVec.toNat_eq, trigField, BitVec.toNat_and, BitVec.toNat_ushiftRight, toNat_ofNat_of_le_trigMask hP hn,
    toNat_ofNat_of_le_trigMask hP le_rfl]

theorem decTrig_eq_none : decTrig P v = none ↔
    trigField P v ≠ BitVec.ofNat 32 P.trigLevelVal ∧ trigField P v ≠ BitVec.ofNat 32 P.trigEdgeVal := by
  unfold decTrig
  dsimp only
  split
  · simp [*]
  · split <;> simp [*]

/-- The two values of the field differ, so a type is decoded from its own. -/
theorem decTrig_encTrig (hP : paramsMeetR8 P) (t : TrigType) (v : Word) : decTrig P (encTrig P t v) = some t := by
  obtain ⟨-, -, -, -, -, -, hne, hedge, hlevel, -⟩ := id hP
  have hapart : BitVec.ofNat 32 P.trigEdgeVal ≠ BitVec.ofNat 32 P.trigLevelVal := fun e => hne <| by
    rwa [BitVec.toNat_eq, toNat_ofNat_of_le_trigMask hP hedge, toNat_ofNat_of_le_trigMask hP hlevel] at e
  simp only [decTrig, trigField_encTrig hP, getLsbD_encTrig_invBit hP]
  cases t with
  | levelHigh | levelLow => exact if_pos rfl
  | edgeRising | edgeFalling => exact (if_neg hapart).trans (if_pos rfl)

end

/-- Settles O35: the encoding is known bit by bit, and the field's two values are apart. -/
theorem triggerEncodingKeepsOtherBits : Obligations.TriggerEncodingKeepsOtherBits := by
  intro P t v hp
  have hP := (paramsWf_iff P).1 hp
  obtain ⟨-, -, -, -, -, -, -, hedge, hlevel, -⟩ := id hP
  refine ⟨decTrig_encTrig hP t v, fun b hb hfield hinv => getLsbD_encTrig_outside hP hb hfield hinv, ?_⟩
  rw [decTrig_eq_none, ne_eq, ne_eq, trigField_eq_ofNat hP hlevel, trigField_eq_ofNat hP hedge]

section
variable {s : State} {pin : Nat} {loc : Loc}

/-! ## Records -/

theorem irqOf_setIrq (pin : Nat) (r : IrqRecord) (s : State) (p : Nat) :
    irqOf (setIrq pin r s) p = if p = pin then r else irqOf s p := storeGet_storeSet ..

/-- The record's part of `MASK_UNMASK` (R150): a registered pin becomes masked or unmasked. -/
def markMasked (pin : Nat) (mask : Bool) (s : State) : State :=
  { s with irq := if (irqOf s pin).state = .unregistered then s.irq
      else storeSet s.irq pin { irqOf s pin with state := if mask then .masked else .unmasked } }

theorem markMasked_eq (pin : Nat) (mask : Bool) (s : State) :
    markMasked pin mask s = if (irqOf s pin).state = .unregistered then s
      else setIrq pin { irqOf s pin with state := if mask then .masked else .unmasked } s := by
  unfold markMasked
  split <;> rfl

theorem irqOf_markMasked (pin : Nat) (mask : Bool) (s : State) (p : Nat) :
    irqOf (markMasked pin mask s) p =
      if p = pin ∧ (irqOf s pin).state ≠ .unregistered then
        { irqOf s pin with state := if mask then .masked else .unmasked }
      else irqOf s p := by
  rw [markMasked_eq]
  split
  · next hun => rw [if_neg fun h => h.2 hun]
  · next hreg => simp only [irqOf_setIrq, hreg, ne_eq, not_false_eq_true, and_true]

/-! ## The checks of the mask commands -/

theorem exec_maskUnmask_present {mask : Bool} (hi : s.initialized = true) (hr : resolve s.table pin = some loc)
    (h0 : loc.com.interruptEnableOffset ≠ 0) :
    exec (.maskUnmask pin mask) s = maskSequence (.maskUnmask pin mask) pin mask loc s := by
  show execMaskUnmask pin mask s = _
  rw [execMaskUnmask, whenInit_whenResolved hi hr, if_neg h0]

theorem exec_maskUnmask_absent {mask : Bool} (hi : s.initialized = true) (hr : resolve s.table pin = some loc)
    (h0 : loc.com.interruptEnableOffset = 0) :
    exec (.maskUnmask pin mask) s = .next (raise .addressingFailure s) := by
  show execMaskUnmask pin mask s = _
  rw [execMaskUnmask, whenInit_whenResolved hi hr, if_pos h0]

theorem registeredMask_absent {i : Instr} {mask : Bool} (hi : s.initialized = true)
    (hr : resolve s.table pin = some loc) (h0 : loc.com.interruptEnableOffset = 0) :
    registeredMask i pin mask s = .next (raise .addressingFailure s) := by
  rw [registeredMask, whenInit_whenResolved hi hr, if_pos h0]

theorem registeredMask_unregistered {i : Instr} {mask : Bool} (hi : s.initialized = true)
    (hr : resolve s.table pin = some loc) (h0 : loc.com.interruptEnableOffset ≠ 0)
    (hun : (irqOf s pin).state = .unregistered) :
    registeredMask i pin mask s = .next (raise .notRegistered s) := by
  rw [registeredMask, whenInit_whenResolved hi hr, if_neg h0, if_pos hun]

/-! ## Read, modify, write -/

/-- A register is read, and written with a value made from what was read. -/
theorem readModifyWrite_quiet {a : Nat} {enc : Params → Word → Word} {k : State → Out} (ha : onBus a) (hq : Quiet s) :
    let w := enc s.params (s.mem.readWord a)
    ∃ m d, ((memRead a s).andThen fun v s2 => thenState (memWrite a (enc s2.params v) s2) k) =
        k { s with mem := m, draws := d, trace := s.trace ++ [readOf s.mem a, .write a w] } ∧
      (plainReg s a → m.readWord a = w) ∧ ∀ q, q < a ∨ a + 4 ≤ q → m.readByte q = s.mem.readByte q := by
  intro w
  obtain ⟨t, hwrite, hshape, hword, hframe⟩ :=
    memWrite_quiet_spec (v := w) (s := { s with trace := s.trace ++ [readOf s.mem a] }) ha hq
  refine ⟨t.mem, t.draws, ?_, hword, hframe⟩
  rw [memRead_quiet ha hq, andThen_next, hwrite, thenState_next]
  exact congrArg k (hshape.trans (by simp))

/-- The guarded commands that write a register of the pin from what it holds (R146, R150): past the guard's reads, one read and
one write. -/
theorem guardedReadModifyWrite_quiet {addr : Params → Nat} {enc : Params → Word → Word} {k : State → Out}
    (hguard : guardOnBus s.params loc pin) (hq : Quiet s) (hpass : mayMutate s.params loc pin s.mem = true)
    (ha : onBus (addr s.params)) :
    let a := addr s.params
    let w := enc s.params (s.mem.readWord a)
    ∃ m d, (whenGuarded loc pin s fun s1 => (memRead (addr s1.params) s1).andThen fun v s2 =>
          thenState (memWrite (addr s1.params) (enc s2.params v) s2) k) =
        k { s with mem := m, draws := d,
                   trace := s.trace ++ guardReads s.params loc pin s.mem ++ [readOf s.mem a, .write a w] } ∧
      (plainReg s a → m.readWord a = w) ∧ ∀ q, q < a ∨ a + 4 ≤ q → m.readByte q = s.mem.readByte q := by
  rw [whenGuarded_pass hguard hq hpass]
  exact readModifyWrite_quiet (s := { s with trace := s.trace ++ guardReads s.params loc pin s.mem }) ha hq

/-- `MASK_UNMASK`'s sequence (R150), its last state written with `markMasked`. -/
theorem maskSequence_eq (i : Instr) (pin : Nat) (mask : Bool) (loc : Loc) (s : State) :
    maskSequence i pin mask loc s = whenActive i pin loc s (whenGuarded loc pin s fun s1 =>
      (memRead (enableReg loc) s1).andThen fun v s2 =>
        thenState (memWrite (enableReg loc) (enableBits mask v (loc.bit pin)) s2) fun s3 =>
          .next (respond .ok 0 (markMasked pin mask s3))) := by
  simp only [markMasked_eq]
  rfl

/-- `MASK_UNMASK`'s sequence on a pin whose guard passes (R150). -/
theorem maskSequence_quiet {i : Instr} {mask : Bool} (hact : isActive s loc.c = true)
    (hguard : guardOnBus s.params loc pin) (hq : Quiet s) (hpass : mayMutate s.params loc pin s.mem = true)
    (ha : onBus (enableReg loc)) :
    let a := enableReg loc
    let w := enableBits mask (s.mem.readWord a) (loc.bit pin)
    ∃ t, maskSequence i pin mask loc s = .next t ∧
      t = { s with mem := t.mem, draws := t.draws, irq := t.irq, respCode := 0x00#8, respValue := 0,
                   trace := s.trace ++ guardReads s.params loc pin s.mem ++ [readOf s.mem a, .write a w] } ∧
      (∀ p, irqOf t p =
        if p = pin ∧ (irqOf s pin).state ≠ .unregistered then
          { irqOf s pin with state := if mask then .masked else .unmasked }
        else irqOf s p) ∧
      (plainReg s a → t.mem.readWord a = w) ∧ ∀ q, q < a ∨ a + 4 ≤ q → t.mem.readByte q = s.mem.readByte q := by
  obtain ⟨m, d, hrun, hword, hframe⟩ := guardedReadModifyWrite_quiet (addr := fun _ => enableReg loc)
    (enc := fun _ v => enableBits mask v (loc.bit pin))
    (k := fun s3 => .next (respond .ok 0 (markMasked pin mask s3))) hguard hq hpass ha
  rw [maskSequence_eq, whenActive_true _ _ _ _ _ hact, hrun]
  exact ⟨_, rfl, rfl, irqOf_markMasked pin mask _, hword, hframe⟩

end

/-! ## Trigger type -/

/-- Settles O36: past the guard, the command is one read and one write of padcfg0, then the record. -/
theorem setTriggerTypeWrites : Obligations.SetTriggerTypeWrites := by
  intro s pin loc type hi hr hact hq hguard hpass a v w
  obtain ⟨-, hbus, -⟩ := id hguard
  obtain ⟨m, d, hrun, hword, hframe⟩ := guardedReadModifyWrite_quiet
    (addr := fun P => padcfgReg P loc.com pin 0) (enc := fun P v => encTrig P type v)
    (k := fun s3 => .next (respond .ok 0 (setIrq pin { irqOf s3 pin with trig := some type } s3))) hguard hq hpass hbus
  exact ⟨_, (checks_passed hi hr hact).trans hrun, rfl, irqOf_setIrq pin _ _, hword, hframe⟩

/-- `RESP_VALUE` for a type is its code (R93, R96). -/
theorem trigValue_eq_ofNat (t : TrigType) : trigValue t = BitVec.ofNat 64 t.code.toNat := by
  rw [trigValue, BitVec.ofNat_toNat]

/-- Settles O37: a recorded type is answered at once; else padcfg0 is read and decoded, with parameters that the agent's turn
leaves alone. -/
theorem getInterruptTypeAnswers : Obligations.GetInterruptTypeAnswers := by
  intro s pin loc hi hr
  have hstart : exec (.getInterruptType pin) s = _ := whenInit_whenResolved hi hr
  constructor
  · intro t ht
    rw [hstart, ht, ← trigValue_eq_ofNat]
    rfl
  · intro hnone hact hbus v
    have hparams : (agentTurn s).params = s.params := sameBlock_params (agentTurn_sameBlock s)
    rw [hstart, hnone]
    simp only [whenActive_true _ _ _ _ _ hact, memRead_agentTurn hbus, andThen_next, hparams]
    constructor
    · intro t ht
      simp only [v, ht, ← trigValue_eq_ofNat]
      rfl
    · intro ht
      simp only [v, ht]
      rfl

/-! ## Masking -/

/-- Settles O38: the three commands run `MASK_UNMASK`'s sequence. -/
theorem maskCommandsWrite : Obligations.MaskCommandsWrite := by
  intro s pin loc mask i hi hr hact hq hguard h0 hbus hpass hcmd a v bit w
  obtain ⟨j, hstart⟩ : ∃ j, exec i s = maskSequence j pin mask loc s := by
    rcases hcmd with rfl | ⟨hreg, ⟨rfl, rfl⟩ | ⟨rfl, rfl⟩⟩
    · exact ⟨_, exec_maskUnmask_present hi hr h0⟩
    · exact ⟨_, registeredMask_registered hi hr h0 hreg⟩
    · exact ⟨_, registeredMask_registered hi hr h0 hreg⟩
  rw [hstart]
  exact maskSequence_quiet hact hguard hq hpass hbus

/-! ## Mask, then unmask -/

/-- Masking then unmasking bit `b` sets it and leaves every other bit. -/
theorem enableBits_unmask_mask (v : Word) (b : Nat) : enableBits false (enableBits true v b) b = v ||| bitMask b := by
  have hset (x m : Word) : (x &&& ~~~m) ||| m = x ||| m := by
    refine BitVec.eq_of_getLsbD_eq fun j hj => ?_
    simp only [BitVec.getLsbD_or, BitVec.getLsbD_and, BitVec.getLsbD_not, hj, decide_true, Bool.true_and]
    cases m.getLsbD j <;> simp
  exact hset v (bitMask b)

/-- Setting a bit that is 1 changes nothing. -/
theorem or_bitMask_of_getLsbD {v : Word} {b : Nat} (h : v.getLsbD b = true) : v ||| bitMask b = v := by
  refine BitVec.eq_of_getLsbD_eq fun j hj => ?_
  rw [BitVec.getLsbD_or, getLsbD_bitMask hj]
  by_cases hjb : j = b
  · simp [hjb, h]
  · simp [hjb]

section
variable {s t : State} {P : Params} {T : Table} {pin : Nat} {loc : Loc} {mask : Bool}

/-- A pad group of an accepted table has at most 32 pins (R203 W4, W6). -/
theorem size_le_of_mem_groupsOf (hw : tableWf P T = true) {C : Community} (hC : C ∈ T.communities) {G : PadGroup}
    (hG : G ∈ groupsOf C) : G.size ≤ 32 := by
  obtain ⟨-, hlisted, hsize, -⟩ := tableWf_community hw hC
  unfold groupsOf at hG
  split at hG
  · next gs hgs =>
    obtain ⟨-, hsizes, -⟩ := hlisted gs hgs
    exact (hsizes G hG).2
  · next hgs =>
    obtain ⟨k, -, rfl⟩ := List.mem_map.1 hG
    exact (Nat.min_le_left _ _).trans (hsize hgs).2

theorem Loc.bit_lt (hw : tableWf P T = true) (hr : resolve T pin = some loc) : loc.bit pin < 32 := by
  obtain ⟨-, hbegin, hend⟩ := resolve_group hw hr
  have hsize := size_le_of_mem_groupsOf hw (resolve_com_mem hr) (resolve_grp_mem hw hr)
  unfold Loc.bit
  omega

/-- The GPI_IE register of a pin takes plain writes where no two registers lie at one address. -/
theorem plainReg_enableReg (hw : tableWf s.params s.table = true) (hd : layoutDistinct s.params s.table)
    (hr : resolve s.table pin = some loc) (h0 : loc.com.interruptEnableOffset ≠ 0) : plainReg s (enableReg loc) := by
  have hC := resolve_com_mem hr
  have hG := resolve_grp_mem hw hr
  refine plainReg_groupReg hd (resolve_some hr).1 hG (by simp [scopedOffsets]) h0 fun he => ?_
  exact (isOffset_ne hd hC hG (he ▸ h0)).2 he

/-- `MASK_UNMASK` answers `OK` only where none of its checks fails. -/
theorem maskUnmask_ok_checks (hi : s.initialized = true) (hr : resolve s.table pin = some loc) (hq : Quiet s)
    (hguard : guardOnBus s.params loc pin) (h : exec (.maskUnmask pin mask) s = .next t) (hok : t.respCode = 0x00#8) :
    loc.com.interruptEnableOffset ≠ 0 ∧ isActive s loc.c = true ∧ mayMutate s.params loc pin s.mem = true := by
  have fails {u : State} (e : exec (.maskUnmask pin mask) s = .next u) (hu : u.respCode ≠ 0x00#8) : False := by
    obtain rfl : u = t := Host.Outcome.next.inj (e.symm.trans h)
    exact hu hok
  have h0 : loc.com.interruptEnableOffset ≠ 0 := fun h0 =>
    fails (exec_maskUnmask_absent hi hr h0) (show resultBits .addressingFailure ≠ 0x00#8 by decide)
  have hact : isActive s loc.c = true := by
    by_contra hoff
    refine fails ((exec_maskUnmask_present hi hr h0).trans (whenActive_false _ _ _ _ _ (by simpa using hoff))) ?_
    exact show resultBits .inactiveCommunity ≠ 0x00#8 by decide
  refine ⟨h0, hact, ?_⟩
  by_contra hden
  obtain ⟨-, -, hmask, -⟩ := deniedMutationsTouchNothing s pin loc hi hr hact hq hguard (by simpa using hden)
  refine fails (hmask h0 mask) ?_
  show (if _ then 0x03#8 else 0x02#8) ≠ 0x00#8
  split <;> decide

/-- What an `OK` of `MASK_UNMASK` leaves: the pin's enable bit cleared or set, and a state in which the next command meets the
same premises. -/
theorem maskUnmask_ok (hi : s.initialized = true) (hp : paramsWf s.params = true)
    (hw : tableWf s.params s.table = true) (hd : layoutDistinct s.params s.table) (hr : resolve s.table pin = some loc)
    (hq : Quiet s) (h : exec (.maskUnmask pin mask) s = .next t) (hok : t.respCode = 0x00#8) :
    t.mem.readWord (enableReg loc) = enableBits mask (s.mem.readWord (enableReg loc)) (loc.bit pin) ∧
      t.initialized = true ∧ t.params = s.params ∧ t.table = s.table ∧ Quiet t := by
  have hguard := guardOnBus_of_resolve hp hw hr
  obtain ⟨h0, hact, hpass⟩ := maskUnmask_ok_checks hi hr hq hguard h hok
  have hbus : onBus (enableReg loc) :=
    groupReg_onBus hw (resolve_com_mem hr) (resolve_grp_mem hw hr) (by simp [scopedOffsets]) h0
  obtain ⟨u, hrun, hshape, -, hword, -⟩ := maskSequence_quiet (mask := mask) hact hguard hq hpass hbus
  obtain rfl : u = t := Host.Outcome.next.inj (hrun.symm.trans ((exec_maskUnmask_present hi hr h0).symm.trans h))
  refine ⟨hword (plainReg_enableReg hw hd hr h0), ?_⟩
  rw [hshape]
  exact ⟨hi, rfl, rfl, hq⟩

end

/-- Settles O39: each command writes the pin's bit alone, so the pair sets it. -/
theorem maskRoundTrip : Obligations.MaskRoundTrip := by
  intro s s1 s2 pin loc hi hp hw hd hr hq hmask hok1 hunmask hok2
  obtain ⟨hword1, hi1, hparams, htable, hq1⟩ := maskUnmask_ok hi hp hw hd hr hq hmask hok1
  obtain ⟨hword2, -⟩ := maskUnmask_ok hi1 (by rwa [hparams]) (by rwa [hparams, htable]) (by rwa [hparams, htable])
    (by rwa [htable]) hq1 hunmask hok2
  have hword : s2.mem.readWord (enableReg loc) = s.mem.readWord (enableReg loc) ||| bitMask (loc.bit pin) := by
    rw [hword2, hword1, enableBits_unmask_mask]
  refine ⟨hword, ?_, fun hbit => hword.trans (or_bitMask_of_getLsbD hbit)⟩
  show (s2.mem.readWord (enableReg loc)).getLsbD (loc.bit pin) = true
  rw [hword, BitVec.getLsbD_or, getLsbD_bitMask (Loc.bit_lt hw hr), decide_eq_true rfl, Bool.or_true]

/-! ## Registration -/

/-- Settles O40: past the guard's reads, only the record is written. -/
theorem registerInstalls : Obligations.RegisterInstalls := by
  intro s pin loc owner callback context hi hr hbase hun hact hq hguard hpass
  have hrun : exec (.register pin owner callback context) s = _ := whenInit_whenResolved hi hr
  rw [if_neg (by omega), if_neg (by simp [hun]), whenActive_true _ _ _ _ _ hact,
    whenGuarded_pass hguard hq hpass] at hrun
  exact ⟨_, hrun, rfl, irqOf_setIrq pin _ _⟩

/-- Settles O41: the record is cleared in place. -/
theorem unregisterClears : Obligations.UnregisterClears := by
  intro s pin loc hi hr hreg
  refine ⟨respond .ok 0 (setIrq pin IrqRecord.cleared s), ?_, rfl, irqOf_setIrq pin _ s⟩
  show execUnregister pin s = _
  rw [execUnregister, whenInit_whenResolved hi hr, if_neg hreg]

/-- Settles O42: these checks stand before the active check, in this order. -/
theorem registrationErrors : Obligations.RegistrationErrors := by
  intro s pin loc hi hr ends
  refine ⟨fun o c x => ⟨fun hbase => ?negativeBase, fun hbase hreg => ?registered⟩, fun h0 => ?absent,
    fun hun => ⟨?unregister, fun h0 => ?unregistered⟩⟩
  case negativeBase => exact (whenInit_whenResolved hi hr).trans (if_pos hbase)
  case registered =>
    exact (whenInit_whenResolved hi hr).trans ((if_neg (by omega)).trans (if_pos hreg))
  case absent =>
    exact ⟨registeredMask_absent hi hr h0, registeredMask_absent hi hr h0, fun m => exec_maskUnmask_absent hi hr h0⟩
  case unregister => exact (whenInit_whenResolved hi hr).trans (if_pos hun)
  case unregistered =>
    exact ⟨registeredMask_unregistered hi hr h0 hun, registeredMask_unregistered hi hr h0 hun⟩

/-! ## The state machine -/

/-- The rows of R152: the command may take the pin's state from the one to the other. -/
inductive StateRow : Instr → Nat → IrqState → IrqState → Prop
  | register (p : Nat) (o c x : Word64) : StateRow (.register p o c x) p .unregistered .masked
  | enable (p : Nat) : StateRow (.enable p) p .masked .unmasked
  | unmask (p : Nat) : StateRow (.maskUnmask p false) p .masked .unmasked
  | disable (p : Nat) : StateRow (.disable p) p .unmasked .masked
  | mask (p : Nat) : StateRow (.maskUnmask p true) p .unmasked .masked
  | resume (p : Nat) : StateRow .resume p .unmasked .masked
  | working (p : Nat) : StateRow (.setPowerState .working) p .unmasked .masked
  | unregister (p : Nat) (a : IrqState) : StateRow (.unregister p) p a .unregistered

/-- No change of state at all. -/
def noRow (_ : Nat) (_ _ : IrqState) : Prop := False

/-- The only change is from unmasked to masked: the row of a resume. -/
def maskingRow (_ : Nat) (a b : IrqState) : Prop := a = .unmasked ∧ b = .masked

/-- From `s` to `t` each pin's state is the same or changed along a row. -/
def Moves (row : Nat → IrqState → IrqState → Prop) (s t : State) : Prop :=
  ∀ p, (irqOf t p).state ≠ (irqOf s p).state → row p (irqOf s p).state (irqOf t p).state

/-- What R152 says of a whole command from `s` to `t`: a change is along one of its rows, and then it answers `OK`. -/
abbrev FollowsRows (i : Instr) (s t : State) : Prop := Moves (fun p a b => t.respCode = 0x00#8 ∧ StateRow i p a b) s t

section
variable {row row' : Nat → IrqState → IrqState → Prop} {i : Instr} {s u t : State} {pin : Nat} {loc : Loc}

theorem Moves.refl (s : State) : Moves row s s := fun _ h => absurd rfl h

theorem Moves.imp (h : Moves row s u) (hrow : ∀ p a b, row p a b → row' p a b) : Moves row' s u :=
  fun p hp => hrow _ _ _ (h p hp)

/-- An update that writes no record. -/
theorem Moves.of_irq (h : Moves row s u) (he : t.irq = u.irq := by rfl) : Moves row s t := by
  unfold Moves irqOf
  rw [he]
  exact h

theorem Moves.of_busOnly (h : Moves row s u) (hb : busOnly u t) : Moves row s t := h.of_irq (sameBlock_irq hb.1)

theorem Moves.state_eq (h : Moves noRow s u) (p : Nat) : (irqOf u p).state = (irqOf s p).state := by_contra (h p)

theorem Moves.setIrq (h : Moves row s u) {r : IrqRecord}
    (hrow : r.state ≠ (irqOf s pin).state → row pin (irqOf s pin).state r.state) :
    Moves row s (setIrq pin r u) := by
  intro p
  rw [irqOf_setIrq]
  split
  · next hp => exact hp ▸ hrow
  · exact h p

/-- After no change, any response is one that R152 allows. -/
theorem Moves.unchanged (h : Moves noRow s u) (he : t.irq = u.irq := by rfl) : FollowsRows i s t :=
  (h.of_irq he).imp fun _ _ _ => False.elim

/-- After changes along the command's rows, the response is `OK`. -/
theorem Moves.ok (h : Moves (StateRow i) s u) (value : Word64) : FollowsRows i s (respond .ok value u) :=
  (h.of_irq (t := respond .ok value u)).imp fun _ _ _ hrow => ⟨rfl, hrow⟩

theorem moves_bus {α β : Type} {Q : β → Prop} {r : Run α} {k : α → State → Host.Outcome β Fault Refusal}
    (hu : Moves row s u) (hr : ∀ {v t}, r = .next (v, t) → busOnly u t)
    (hk : ∀ v u', Moves row s u' → Answers Q (k v u')) : Answers Q (r.andThen k) :=
  (answers_bus hr).andThen fun v u' hb => hk v u' (hu.of_busOnly hb)

theorem moves_write (hu : Moves row s u) (a : Nat) (v : Word) : Answers (Moves row s) (memWrite a v u) :=
  (answers_write a v u).imp fun _ hb => hu.of_busOnly hb

/-! ### The checks of a command -/

theorem follows_whenInit {k : Out} (hu : Moves noRow s u) (hk : Answers (FollowsRows i s) k) :
    Answers (FollowsRows i s) (whenInit u k) := by
  unfold whenInit
  split
  · exact hk
  · exact hu.unchanged

theorem follows_whenResolved {k : Loc → Out} (e : ResultCode) (hu : Moves noRow s u)
    (hk : ∀ loc, Answers (FollowsRows i s) (k loc)) : Answers (FollowsRows i s) (whenResolved e pin u k) := by
  unfold whenResolved
  split
  · exact hu.unchanged
  · exact hk _

theorem follows_whenActive {k : Out} (j : Instr) (hu : Moves noRow s u) (hk : Answers (FollowsRows i s) k) :
    Answers (FollowsRows i s) (whenActive j pin loc u k) := by
  unfold whenActive
  split
  · exact hk
  · exact hu.unchanged

theorem follows_whenGuarded {k : State → Out} (hu : Moves noRow s u)
    (hk : ∀ u', Moves noRow s u' → Answers (FollowsRows i s) (k u')) :
    Answers (FollowsRows i s) (whenGuarded loc pin u k) := by
  refine moves_bus hu guard_busOnly fun v u' h => ?_
  cases v with
  | ownershipDenied => exact h.unchanged
  | locked => exact h.unchanged
  | pass => exact hk u' h

/-! ### The commands that change states -/

/-- A registered pin that is not already where the command takes it comes from the other registered state. -/
theorem Moves.markMasked {mask : Bool} (h : Moves noRow s u)
    (hrow : row pin (if mask then .unmasked else .masked) (if mask then .masked else .unmasked)) :
    Moves row s (markMasked pin mask u) := by
  intro p hp
  rw [irqOf_markMasked] at hp ⊢
  split
  · next hreg =>
    obtain ⟨rfl, hreg⟩ := hreg
    rw [h.state_eq] at hreg
    simp only [hreg, h.state_eq, ne_eq, not_false_eq_true, and_self, if_true] at hp
    have hfrom : (irqOf s p).state = if mask then .unmasked else .masked := by
      cases mask <;> cases hstate : (irqOf s p).state <;> simp_all
    rwa [hfrom]
  · next hnot => exact absurd (h.state_eq p) (by simpa [hnot] using hp)

theorem follows_maskSequence {j : Instr} {mask : Bool} (hu : Moves noRow s u)
    (hrow : StateRow i pin (if mask then .unmasked else .masked) (if mask then .masked else .unmasked)) :
    Answers (FollowsRows i s) (maskSequence j pin mask loc u) := by
  rw [maskSequence_eq]
  exact follows_whenActive _ hu <| follows_whenGuarded hu fun _ h1 => moves_bus h1 memRead_busOnly fun _ _ h2 =>
    (moves_write h2 _ _).thenState fun _ h3 => (h3.markMasked hrow).ok 0

theorem follows_maskUnmask (pin : Nat) (mask : Bool) (s : State) :
    Answers (FollowsRows (.maskUnmask pin mask) s) (execMaskUnmask pin mask s) := by
  have h : Moves noRow s s := .refl s
  refine follows_whenInit h <| follows_whenResolved _ h fun loc => ?_
  split
  · exact h.unchanged
  · refine follows_maskSequence h ?_
    cases mask with
    | false => exact .unmask pin
    | true => exact .mask pin

theorem follows_registeredMask {mask : Bool} (s : State)
    (hrow : StateRow i pin (if mask then .unmasked else .masked) (if mask then .masked else .unmasked)) :
    Answers (FollowsRows i s) (registeredMask i pin mask s) := by
  have h : Moves noRow s s := .refl s
  refine follows_whenInit h <| follows_whenResolved _ h fun loc => ?_
  split
  · exact h.unchanged
  · split
    · exact h.unchanged
    · exact follows_maskSequence h hrow

theorem follows_register (pin : Nat) (o c x : Word64) (s : State) :
    Answers (FollowsRows (.register pin o c x) s) (execRegister pin o c x s) := by
  have h : Moves noRow s s := .refl s
  refine follows_whenInit h <| follows_whenResolved _ h fun loc => ?_
  split
  · exact h.unchanged
  · split
    · exact h.unchanged
    · next hun =>
      have hrow : StateRow (.register pin o c x) pin (irqOf s pin).state .masked := not_not.1 hun ▸ .register pin o c x
      exact follows_whenActive _ h <| follows_whenGuarded h fun _ h1 =>
        ((h1.imp fun _ _ _ => False.elim).setIrq fun _ => hrow).ok 0

theorem follows_unregister (pin : Nat) (s : State) :
    Answers (FollowsRows (.unregister pin) s) (execUnregister pin s) := by
  have h : Moves noRow s s := .refl s
  refine follows_whenInit h <| follows_whenResolved _ h fun loc => ?_
  split
  · exact h.unchanged
  · exact ((Moves.refl s).setIrq fun _ => .unregister pin _).ok 0

/-- The type is written into the record, whose state stays. -/
theorem follows_setTriggerType (pin : Nat) (type : TrigType) (s : State) :
    Answers (FollowsRows i s) (execSetTriggerType pin type s) := by
  have h : Moves noRow s s := .refl s
  exact follows_whenInit h <| follows_whenResolved _ h fun _ => follows_whenActive _ h <|
    follows_whenGuarded h fun _ h1 => moves_bus h1 memRead_busOnly fun _ _ h2 =>
      (moves_write h2 _ _).thenState fun u3 h3 =>
        (h3.setIrq (r := { irqOf u3 pin with trig := some type }) fun hne => hne (h3.state_eq pin)).unchanged

/-! ### Dispatch and suspend -/

theorem moves_scanGroup (C : Community) (G : PadGroup) (hu : Moves row s u) :
    Answers (Moves row s) (scanGroup C G u) := by
  refine moves_bus hu memRead_busOnly fun v u1 h1 => ?_
  split
  · exact h1
  · exact (moves_write h1 _ v).thenState fun u2 h2 => h2.of_irq (by rw [deliverBits_spec])

theorem moves_scanCommunity (x : Nat × Community) (hu : Moves row s u) :
    Answers (Moves row s) (scanCommunity x u) := by
  unfold scanCommunity
  split
  · exact hu
  · exact (Answers.forEach (fun G _ _ h1 => moves_scanGroup x.2 G h1) hu.of_irq).thenState fun _ h2 => h2.of_irq

theorem follows_dispatch (first : Bool) (s : State) : Answers (FollowsRows i s) (execDispatch first s) := by
  have h : Moves noRow s s := .refl s
  have hs : Moves noRow s (if first then settle s else s) := by
    split
    · exact h.of_busOnly (settle_busOnly s)
    · exact h
  exact follows_whenInit h <|
    (Answers.forEach (fun x _ _ h => moves_scanCommunity x h) hs).thenState fun _ h1 => h1.unchanged

theorem moves_snapshotReg {C : Community} {G : PadGroup} {o : Nat} {store : Word → State → State}
    (hstore : ∀ v u', (store v u').irq = u'.irq) (hu : Moves row s u) :
    Answers (Moves row s) (snapshotReg C G o store u) := by
  unfold snapshotReg
  split
  · exact hu
  · exact moves_bus hu memRead_busOnly fun v u' h => h.of_irq (hstore v u')

theorem moves_snapshotCommunity (x : Nat × Community) (hu : Moves row s u) :
    Answers (Moves row s) (snapshotCommunity x u) := by
  refine (Answers.forEach (fun y _ u1 h1 => ?_) hu).thenState fun _ h => h.of_irq
  exact (moves_snapshotReg (store := storeIe x.1 y.1) (fun _ _ => rfl) h1).thenState fun _ h2 =>
    moves_snapshotReg (store := storeHostown x.1 y.1) (fun _ _ => rfl) h2

theorem moves_snapshotPin (hu : Moves row s u) : Answers (Moves row s) (snapshotPin pin u) := by
  unfold snapshotPin
  split
  · exact hu
  · refine moves_bus hu saveTest_busOnly fun save u1 h1 => ?_
    split
    · exact moves_bus h1 readPadcfgs_busOnly fun _ _ h2 => h2.of_irq
    · exact h1

theorem follows_suspendSequence (s : State) : Answers (FollowsRows i s) (suspendSequence s) := by
  have h : Moves noRow s s := .refl s
  unfold suspendSequence
  split
  · exact h.unchanged
  · exact (Answers.forEach (fun x _ _ h => moves_snapshotCommunity x h) h.of_irq).thenState fun _ h1 =>
      (Answers.forEach (fun _ _ _ h => moves_snapshotPin h) h1).thenState fun _ h2 => h2.unchanged

/-! ### Resume -/

theorem moves_restoreKind (C : Community) (o : Nat) (words : List Word) (hu : Moves row s u) :
    Answers (Moves row s) (restoreKind C o words u) := by
  unfold restoreKind
  split
  · exact hu
  · exact .forEach (fun y _ _ h => moves_write h _ _) hu

theorem moves_restoreCommunity (x : Nat × Community) (hu : Moves row s u) :
    Answers (Moves row s) (restoreCommunity x u) := by
  unfold restoreCommunity
  split
  · exact (moves_restoreKind _ _ _ hu).thenState fun _ h => moves_restoreKind _ _ _ h
  · exact hu

theorem moves_restorePin (hu : Moves row s u) : Answers (Moves row s) (restorePin pin u) := by
  unfold restorePin
  split
  · exact hu
  · dsimp only
    split
    · exact (moves_write hu _ _).thenState fun _ h1 => (moves_write h1 _ _).thenState fun _ h2 => moves_write h2 _ _
    · exact hu

/-- A pin that a resume finds unmasked was unmasked when the resume began. -/
theorem Moves.refuseRearm (h : Moves maskingRow s u) (hun : (irqOf u pin).state = .unmasked) :
    Moves maskingRow s (refuseRearm pin u) := by
  have hbegan : (irqOf s pin).state = .unmasked := by
    by_contra hne
    obtain ⟨hwas, -⟩ := h pin fun e => hne (e ▸ hun)
    exact hne hwas
  exact (h.setIrq (r := { irqOf u pin with state := .masked }) fun _ => ⟨hbegan, rfl⟩).of_irq

theorem moves_revalidate (hu : Moves maskingRow s u) : Answers (Moves maskingRow s) (revalidate loc pin u) := by
  unfold revalidate
  split
  · next hun =>
    split
    · exact hu.refuseRearm hun
    · refine (answers_bus guard_busOnly).andThen fun v u1 hb => ?_
      have h1 := hu.of_busOnly hb
      split
      · exact moves_bus h1 memRead_busOnly fun _ _ h2 => moves_write h2 _ _
      · exact h1.refuseRearm ((congrArg IrqRecord.state (sameBlock_irqOf hb.1 pin)).trans hun)
  · refine moves_bus hu guard_busOnly fun v u1 h1 => ?_
    show Moves maskingRow s (if v = .pass then u1 else _)
    split
    · exact h1
    · exact h1.of_irq

theorem moves_revalidatePin (hu : Moves maskingRow s u) : Answers (Moves maskingRow s) (revalidatePin pin u) := by
  unfold revalidatePin
  split
  · exact hu
  · split
    · exact hu
    · exact moves_revalidate hu

theorem follows_resumeSequence (s : State) (hrow : ∀ p, StateRow i p .unmasked .masked) :
    Answers (FollowsRows i s) (resumeSequence s) := by
  have h : Moves maskingRow s s := .refl s
  unfold resumeSequence
  split
  · exact (Moves.refl s).unchanged
  · refine (Answers.forEach (fun x _ _ h => moves_restoreCommunity x h) h.of_irq).thenState fun _ h1 =>
      (Answers.forEach (fun _ _ _ h => moves_restorePin h) h1).thenState fun _ h2 =>
        (Answers.forEach (fun _ _ _ h => moves_revalidatePin h) h2).thenState fun u3 h3 => ?_
    have hmasked : Moves (StateRow i) s u3 := h3.imp fun p _ _ ⟨ha, hb⟩ => ha ▸ hb ▸ hrow p
    exact (hmasked.of_irq (t := discardSnapshot u3)).ok 0

/-! ### The commands that leave every record alone -/

theorem follows_regaddr (pin : Nat) (kind : RegKind) (s : State) :
    Answers (FollowsRows i s) (execRegaddr pin kind s) := by
  have h : Moves noRow s s := .refl s
  refine follows_whenInit h ?_
  split <;> exact h.unchanged

section
variable {α : Type} {e : ResultCode} {j : Instr} {value : α → Word64}

/-- Past the active check, a piece that uses the bus only and an answer made from its value. -/
theorem follows_activeRead {r : Run α} (hu : Moves noRow s u) (hr : ∀ {v t}, r = .next (v, t) → busOnly u t) :
    Answers (FollowsRows i s)
      (whenActive j pin loc u <| r.andThen fun v s1 => .next (respond .ok (value v) s1)) :=
  follows_whenActive _ hu <| moves_bus hu hr fun _ _ h => h.unchanged

/-- The commands that answer from one such piece (R128, R132, R181). -/
theorem follows_readAnswer {r : Loc → Run α} (s : State) (hr : ∀ loc {v t}, r loc = .next (v, t) → busOnly s t) :
    Answers (FollowsRows i s) (whenInit s <| whenResolved e pin s fun loc =>
      whenActive j pin loc s <| (r loc).andThen fun v s1 => .next (respond .ok (value v) s1)) :=
  have h : Moves noRow s s := .refl s
  follows_whenInit h <| follows_whenResolved _ h fun loc => follows_activeRead h (hr loc)

/-- The commands that answer at once where the community lacks the register, and else from one such piece (R127, R129,
R130). -/
theorem follows_readOrAbsent {absent : Loc → Prop} [DecidablePred absent] {v0 : Word64} {r : Loc → Run α} (s : State)
    (hr : ∀ loc {v t}, r loc = .next (v, t) → busOnly s t) :
    Answers (FollowsRows i s) (whenInit s <| whenResolved e pin s fun loc =>
      if absent loc then .next (respond .ok v0 s)
      else whenActive j pin loc s <| (r loc).andThen fun v s1 => .next (respond .ok (value v) s1)) := by
  have h : Moves noRow s s := .refl s
  refine follows_whenInit h <| follows_whenResolved _ h fun loc => ?_
  split
  · exact h.unchanged
  · exact follows_activeRead h (hr loc)

end

theorem follows_getPinStatus (pin : Nat) (s : State) : Answers (FollowsRows i s) (execGetPinStatus pin s) := by
  have h : Moves noRow s s := .refl s
  refine follows_whenInit h ?_
  split
  · exact h.unchanged
  · split
    · exact h.unchanged
    · exact moves_bus h guard_busOnly fun _ _ h1 => h1.unchanged

theorem follows_writePadcfg (pin : Nat) (k : PadIdx) (value : Word) (s : State) :
    Answers (FollowsRows i s) (execWritePadcfg pin k value s) := by
  have h : Moves noRow s s := .refl s
  exact follows_whenInit h <| follows_whenResolved _ h fun _ => follows_whenActive _ h <|
    follows_whenGuarded h fun _ h1 => (moves_write h1 _ value).thenState fun _ h2 => h2.unchanged

theorem follows_getInterruptType (pin : Nat) (s : State) : Answers (FollowsRows i s) (execGetInterruptType pin s) := by
  have h : Moves noRow s s := .refl s
  refine follows_whenInit h <| follows_whenResolved _ h fun loc => ?_
  split
  · exact h.unchanged
  · refine follows_whenActive _ h <| moves_bus h memRead_busOnly fun v u1 h1 => ?_
    split <;> exact h1.unchanged

/-! ### Every command -/

/-- On an initialized block every command follows the rows; an uninitialized one may be given a new table of records. -/
theorem exec_followsRows (i : Instr) {s : State} (hi : s.initialized = true) : Answers (FollowsRows i s) (exec i s) := by
  have h : Moves noRow s s := .refl s
  cases i with
  | init =>
    show Answers _ (execInit s)
    rw [execInit, if_pos hi]
    exact h.unchanged
  | resolve pin => exact follows_whenInit h <| follows_whenResolved _ h fun _ => h.unchanged
  | regaddr pin kind => exact follows_regaddr pin kind s
  | ownedByHost pin => exact follows_readOrAbsent s fun _ _ _ => hostBit_busOnly
  | acpiMode pin => exact follows_readAnswer s fun _ _ _ => acpi_busOnly
  | locked pin => exact follows_readOrAbsent s fun _ _ _ => lockState_busOnly
  | isUnlocked pin => exact follows_readOrAbsent s fun _ _ _ => lockState_busOnly
  | readPadcfg pin k => exact follows_readAnswer s fun _ _ _ => memRead_busOnly
  | writePadcfg pin k value => exact follows_writePadcfg pin k value s
  | setTriggerType pin type => exact follows_setTriggerType pin type s
  | getInterruptType pin => exact follows_getInterruptType pin s
  | maskUnmask pin mask => exact follows_maskUnmask pin mask s
  | register pin o c x => exact follows_register pin o c x s
  | unregister pin => exact follows_unregister pin s
  | enable pin => exact follows_registeredMask s (.enable pin)
  | disable pin => exact follows_registeredMask s (.disable pin)
  | dispatch first => exact follows_dispatch first s
  | shouldSave pin => exact follows_readAnswer s fun _ _ _ => saveTest_busOnly
  | suspend => exact follows_whenInit h (follows_suspendSequence s)
  | resume => exact follows_whenInit h (follows_resumeSequence s .resume)
  | setPowerState state =>
    refine follows_whenInit h ?_
    cases state with
    | sleeping => exact follows_suspendSequence s
    | working => exact follows_resumeSequence s .working
  | getPinStatus pin => exact follows_getPinStatus pin s

end

/-- Settles O43: every command follows the rows of R152, which are the statement's alternatives. -/
theorem interruptStateMachine : Obligations.InterruptStateMachine := by
  intro i s t p hi h hp
  obtain ⟨hok, hrow⟩ := (exec_followsRows i hi).of_next h p hp
  generalize (irqOf s p).state = a at hrow ⊢
  generalize (irqOf t p).state = b at hrow ⊢
  cases hrow with
  | register _ o c x => exact .inl ⟨hok, rfl, rfl, o, c, x, rfl⟩
  | enable => exact .inr (.inl ⟨hok, rfl, rfl, .inl rfl⟩)
  | unmask => exact .inr (.inl ⟨hok, rfl, rfl, .inr rfl⟩)
  | disable => exact .inr (.inr (.inl ⟨hok, rfl, rfl, .inl rfl⟩))
  | mask => exact .inr (.inr (.inl ⟨hok, rfl, rfl, .inr (.inl rfl)⟩))
  | resume => exact .inr (.inr (.inl ⟨hok, rfl, rfl, .inr (.inr (.inl rfl))⟩))
  | working => exact .inr (.inr (.inl ⟨hok, rfl, rfl, .inr (.inr (.inr rfl))⟩))
  | unregister => exact .inr (.inr (.inr ⟨hok, rfl, rfl⟩))

end Sys2Proof.Machine
end

section
/-! PROOFS. The dispatch pass (spec/43_dispatch.md R171 to R174): it completes and emits callbacks alone whatever the register
agent does, and with no agent step it delivers and drains exactly what is pending.

For the first, `Delivers` says what every stretch of a pass can change. For the second, `Scans` says what a pass over a list of
communities does, told from the state at its start: registers at distinct addresses keep their bits until they are scanned. -/

namespace Sys2Proof.Machine

/-! ## Completion -/

/-- From `s` to `t` callbacks are emitted; beyond them only what the bus, the register agent and the gate hold can differ. -/
def Delivers (s t : State) : Prop :=
  ∃ es, sameBlock { s with events := s.events ++ es } t ∧ ∀ e ∈ es, ∃ cb ctx src, e = .callback cb ctx src

theorem bitCallback_isCallback {s : State} {G : PadGroup} {i : Nat} {e : Event} (h : e ∈ bitCallback s G i) :
    ∃ cb ctx src, e = .callback cb ctx src := by
  unfold bitCallback at h
  split at h
  · exact ⟨_, _, _, List.mem_singleton.1 h⟩
  · cases h

section
variable {s u t : State}

theorem Delivers.of_busOnly (h : Delivers s u) (hb : busOnly u t) : Delivers s t := by
  obtain ⟨es, hu, hes⟩ := h
  exact ⟨es, sameBlock_trans hu hb.1, hes⟩

theorem Delivers.refl (s : State) : Delivers s s := ⟨[], by simp [sameBlock], by simp⟩

theorem Delivers.trans (h : Delivers s u) (h' : Delivers u t) : Delivers s t := by
  obtain ⟨es, hu, hes⟩ := h
  obtain ⟨es', ht, hes'⟩ := h'
  refine ⟨es ++ es', ?_, fun e he => (List.mem_append.1 he).elim (hes e) (hes' e)⟩
  unfold sameBlock at *
  rw [ht, hu]
  simp

theorem Delivers.deliverBits (h : Delivers s u) (G : PadGroup) (v : Word) (is : List Nat) :
    Delivers s (deliverBits G v is u) := by
  refine h.trans ⟨(is.filter fun i => v.getLsbD i).flatMap (bitCallback u G), ?_, fun e he => ?_⟩
  · rw [deliverBits_spec]
  · obtain ⟨i, -, hi⟩ := List.mem_flatMap.1 he
    exact bitCallback_isCallback hi

/-- What happens between setting and clearing the busy flag of a community leaves the flag as it was. -/
theorem Delivers.unbusy {c : Nat} (h : Delivers (setBusy c true u) t) (hc : isBusy u c = false) :
    Delivers u (setBusy c false t) := by
  obtain ⟨es, ht, hes⟩ := h
  refine ⟨es, ?_, hes⟩
  have hbusy : t.busy.set c false = u.busy := by
    rw [sameBlock_busy ht]
    exact set_busy_back u.busy c hc
  unfold sameBlock setBusy at *
  rw [hbusy, ht]

theorem delivers_scanGroup (C : Community) (G : PadGroup) (hu : Delivers s u) :
    Answers (Delivers s) (scanGroup C G u) := by
  refine (answers_bus memRead_busOnly).andThen fun v u1 h1 => ?_
  split
  · exact hu.of_busOnly h1
  · exact (answers_write _ v u1).thenState fun _ h2 => ((hu.of_busOnly h1).of_busOnly h2).deliverBits G v _

theorem delivers_scanCommunity (x : Nat × Community) (hu : Delivers s u) :
    Answers (Delivers s) (scanCommunity x u) := by
  unfold scanCommunity
  split
  · exact hu
  · next h =>
    have hidle : isBusy u x.1 = false := by simpa using fun hb => h (.inr (.inl hb))
    exact (Answers.forEach (fun G _ _ h1 => delivers_scanGroup x.2 G h1) (Delivers.refl _)).thenState
      fun _ h2 => hu.trans (h2.unbusy hidle)

theorem delivers_dispatch (first : Bool) (hi : s.initialized = true) :
    Answers (fun t => ∃ u, Delivers s u ∧ t = respond .ok 0 u) (exec (.dispatch first) s) := by
  have hstart : Delivers s (if first then settle s else s) := by
    split
    · exact (Delivers.refl s).of_busOnly (settle_busOnly s)
    · exact .refl s
  show Answers _ (execDispatch first s)
  rw [execDispatch, whenInit_true _ _ hi]
  exact (Answers.forEach (fun x _ _ h => delivers_scanCommunity x h) hstart).thenState fun u hu => ⟨u, hu, rfl⟩

end

/-- Settles O44: the pass completes as every command does, and each of its stretches only delivers. -/
theorem dispatchCompletes : Obligations.DispatchCompletes := by
  intro s first hi hp hw
  obtain ⟨t, ht⟩ := exec_completes (.dispatch first) s (configOk_iff.2 ⟨hp, hw⟩)
  obtain ⟨u, ⟨es, hu, hes⟩, rfl⟩ := (delivers_dispatch first hi).of_next ht
  refine ⟨_, es, ht, ?_, hes⟩
  unfold sameBlock at hu
  rw [hu]
  rfl

/-! ## One community of a pass -/

/-- The GPI_IS registers that a pass reads of a community (R171). -/
def scannedRegs (s : State) (x : Nat × Community) : List Nat := if isScanned s x.1 x.2 then statusRegs x.2 else []

/-- The callbacks of a community, ascending by pad group and bit (R173). -/
def communityCallbacks (s : State) (x : Nat × Community) : List Event :=
  if isScanned s x.1 x.2 then
    (groupsOf x.2).flatMap fun G => groupCallbacks s G (s.mem.readWord (groupReg x.2 G x.2.isOffset))
  else []

/-- The micro-steps of a community's part of a pass (R171). -/
def communitySteps (s : State) (x : Nat × Community) : List MicroStep :=
  if isScanned s x.1 x.2 then (groupsOf x.2).flatMap fun G => groupSteps s.mem (groupReg x.2 G x.2.isOffset) else []

theorem passCallbacks_eq (s : State) :
    passCallbacks s = (indexedFrom 0 s.table.communities).flatMap (communityCallbacks s) := rfl

theorem passSteps_eq (s : State) (first : Bool) :
    passSteps s first = (if first then [.settle s.params.settleDelay] else []) ++
      (indexedFrom 0 s.table.communities).flatMap (communitySteps s) := rfl

section
variable {s t u : State} {x : Nat × Community} {xs : List (Nat × Community)} {a : Nat}

theorem isScanned_isOffset {c : Nat} {C : Community} (h : isScanned s c C = true) : C.isOffset ≠ 0 := by
  simp only [isScanned, Bool.and_eq_true, bne_iff_ne] at h
  exact h.2

theorem mem_statusRegs {C : Community} : a ∈ statusRegs C ↔ ∃ G ∈ groupsOf C, groupReg C G C.isOffset = a := by
  simp [statusRegs]

theorem mem_scannedRegs : a ∈ scannedRegs s x ↔
    isScanned s x.1 x.2 = true ∧ ∃ G ∈ groupsOf x.2, groupReg x.2 G x.2.isOffset = a := by
  unfold scannedRegs
  split
  · next h => simp [h, mem_statusRegs]
  · next h => simp [h]

theorem scannedRegs_onBus (hw : tableWf s.params s.table = true) (hx : x.2 ∈ s.table.communities)
    (h : a ∈ scannedRegs s x) : onBus a := by
  obtain ⟨hscan, G, hG, rfl⟩ := mem_scannedRegs.1 h
  exact groupReg_onBus hw hx hG (by simp [scopedOffsets]) (isScanned_isOffset hscan)

/-- The registers that a pass reads are among a community's registers, in their order. -/
theorem scannedRegs_sublist (P : Params) (s : State) (x : Nat × Community) :
    (scannedRegs s x).Sublist (commRegs P x.2) := by
  unfold scannedRegs
  split
  · next h =>
    have hgroups : (statusRegs x.2).Sublist ((groupsOf x.2).flatMap (groupRegs x.2)) := by
      rw [statusRegs, List.map_eq_flatMap]
      exact List.Sublist.flatMap_right _ fun G _ =>
        List.singleton_sublist.2 (mem_groupRegs (by simp [scopedOffsets]) (isScanned_isOffset h))
    exact hgroups.trans (List.sublist_append_left _ _)
  · exact List.nil_sublist _

theorem scannedRegs_nodup (hd : layoutDistinct s.params s.table) :
    ((indexedFrom 0 s.table.communities).flatMap (scannedRegs s)).Nodup := by
  have hall : allRegs s.params s.table =
      (indexedFrom 0 s.table.communities).flatMap fun x => commRegs s.params x.2 := by
    conv_lhs => rw [allRegs, ← List.map_id s.table.communities, ← map_indexedFrom_snd id 0, List.flatMap_map]
    rfl
  rw [layoutDistinct, hall] at hd
  exact hd.sublist (List.Sublist.flatMap_right _ fun x _ => scannedRegs_sublist s.params s x)

/-! ## The pass over a list of communities -/

/-- From `s` to `t` a pass goes over the communities `xs`: told from `s`, their callbacks are emitted, their micro-steps made
and their pending bits drained, and nothing else changes. -/
def Scans (xs : List (Nat × Community)) (s t : State) : Prop :=
  ∃ m, drained (xs.flatMap (scannedRegs s)) s.mem m ∧
    t = { s with mem := m, events := s.events ++ xs.flatMap (communityCallbacks s),
                 trace := s.trace ++ xs.flatMap (communitySteps s) }

theorem Scans.nil (s : State) : Scans [] s s := ⟨s.mem, drained_nil _, by simp⟩

/-- A community that has not been scanned yet still shows what it showed at the start of the pass. -/
theorem community_congr {m : Memory} {es : List Event} {ms : List MicroStep}
    (h : ∀ a ∈ scannedRegs s x, m.readWord a = s.mem.readWord a) :
    communityCallbacks { s with mem := m, events := es, trace := ms } x = communityCallbacks s x ∧
      communitySteps { s with mem := m, events := es, trace := ms } x = communitySteps s x := by
  by_cases hscan : isScanned s x.1 x.2 = true
  · have keep : ∀ G ∈ groupsOf x.2,
        m.readWord (groupReg x.2 G x.2.isOffset) = s.mem.readWord (groupReg x.2 G x.2.isOffset) :=
      fun G hG => h _ (mem_scannedRegs.2 ⟨hscan, G, hG, rfl⟩)
    refine ⟨(if_pos hscan).trans (.trans ?_ (if_pos hscan).symm), (if_pos hscan).trans (.trans ?_ (if_pos hscan).symm)⟩
    · exact List.flatMap_congr fun G hG => by rw [keep G hG, groupCallbacks_congr]; rfl
    · exact List.flatMap_congr fun G hG => by simp only [groupSteps, readOf, keep G hG]
  · exact ⟨(if_neg hscan).trans (if_neg hscan).symm, (if_neg hscan).trans (if_neg hscan).symm⟩

/-- A pass over one community and then over others with registers of their own is a pass over all of them. -/
theorem Scans.cons (h : Scans [x] s u) (h' : Scans xs u t) (hn : ((x :: xs).flatMap (scannedRegs s)).Nodup)
    (hal : ∀ y ∈ x :: xs, ∀ a ∈ scannedRegs s y, a % 4 = 0) : Scans (x :: xs) s t := by
  obtain ⟨m, hm, rfl⟩ := h
  obtain ⟨m', hm', rfl⟩ := h'
  rw [List.flatMap_singleton] at hm
  rw [List.flatMap_cons, List.nodup_append'] at hn
  obtain ⟨-, -, hdisj⟩ := hn
  simp only [List.mem_cons, forall_eq_or_imp] at hal
  obtain ⟨hx, hxs⟩ := hal
  have hrest : ∀ a ∈ xs.flatMap (scannedRegs s), a % 4 = 0 := fun a ha => by
    obtain ⟨y, hy, ha⟩ := List.mem_flatMap.1 ha
    exact hxs y hy a ha
  have keep : ∀ y ∈ xs, ∀ a ∈ scannedRegs s y, m.readWord a = s.mem.readWord a := fun y hy a ha =>
    drained_other hm (hxs y hy a ha) hx fun h => hdisj h (List.mem_flatMap.2 ⟨y, hy, ha⟩)
  refine ⟨m', drained_append hm hm' hx hrest fun a h1 h2 => hdisj h1 h2, ?_⟩
  rw [List.flatMap_congr fun y hy => (community_congr (keep y hy)).1,
    List.flatMap_congr fun y hy => (community_congr (keep y hy)).2]
  simp

theorem scanCommunity_scans (hq : Quiet s) (hw : tableWf s.params s.table = true) (hx : x.2 ∈ s.table.communities)
    (hn : (scannedRegs s x).Nodup) : ∃ t, scanCommunity x s = .next t ∧ Scans [x] s t := by
  by_cases hscan : isScanned s x.1 x.2 = true
  · have hregs : scannedRegs s x = statusRegs x.2 := if_pos hscan
    obtain ⟨c, hc⟩ := List.getElem?_of_mem hx
    obtain ⟨m, hm, e⟩ := scanCommunity_quiet hq hscan
      (fun G hG => scannedRegs_onBus hw hx (mem_scannedRegs.2 ⟨hscan, G, hG, rfl⟩))
      (fun G hG => isStatusReg_groupReg hc hG (isScanned_isOffset hscan)) (hregs ▸ hn)
    refine ⟨_, e, m, ?_, ?_⟩
    · rwa [List.flatMap_singleton, hregs]
    · simp only [List.flatMap_singleton, communityCallbacks, communitySteps, if_pos hscan]
  · refine ⟨s, scanCommunity_skip (by simpa using hscan), s.mem, ?_, ?_⟩
    · simpa [scannedRegs, hscan] using drained_nil s.mem
    · simp [communityCallbacks, communitySteps, hscan]

theorem scanCommunities_scans (hq : Quiet s) (hw : tableWf s.params s.table = true)
    (hxs : ∀ x ∈ xs, x.2 ∈ s.table.communities) (hn : (xs.flatMap (scannedRegs s)).Nodup) :
    ∃ t, forEach xs scanCommunity s = .next t ∧ Scans xs s t := by
  induction xs generalizing s with
  | nil => exact ⟨s, rfl, .nil s⟩
  | cons x rest ih =>
    have hsplit := hn
    rw [List.flatMap_cons, List.nodup_append'] at hsplit
    obtain ⟨hnx, hnrest, -⟩ := hsplit
    obtain ⟨u, e, hu⟩ := scanCommunity_scans hq hw (hxs x (List.mem_cons_self ..)) hnx
    have hlater : ∃ t, forEach rest scanCommunity u = .next t ∧ Scans rest u t := by
      obtain ⟨m, -, rfl⟩ := id hu
      exact ih hq hw (fun y hy => hxs y (List.mem_cons_of_mem _ hy)) hnrest
    obtain ⟨t, e', ht⟩ := hlater
    refine ⟨t, by rw [forEach_cons, e, thenState_next, e'], hu.cons ht hn fun y hy a ha => ?_⟩
    exact (scannedRegs_onBus hw (hxs y hy) ha).1

/-! ## The whole pass -/

/-- Where a pass starts when no agent step is to come: the settling delay is in the trace if it was asked for (R176). -/
theorem settle_quiet (first : Bool) (hq : Quiet s) : (if first then settle s else s) =
    { s with trace := s.trace ++ if first then [.settle s.params.settleDelay] else [] } := by
  cases first with
  | false => simp
  | true => rw [if_pos rfl, settle, agentTurn_quiet s hq]; rfl

/-- The state after a pass with no agent step to come, told from the state before it. -/
theorem dispatch_quiet (first : Bool) (hi : s.initialized = true) (hw : tableWf s.params s.table = true)
    (hd : layoutDistinct s.params s.table) (hq : Quiet s) :
    ∃ m, drained ((indexedFrom 0 s.table.communities).flatMap (scannedRegs s)) s.mem m ∧
      exec (.dispatch first) s = .next (respond .ok 0 { s with
        mem := m, events := s.events ++ passCallbacks s, trace := s.trace ++ passSteps s first }) := by
  obtain ⟨t, e, m, hm, rfl⟩ := scanCommunities_scans
    (s := { s with trace := s.trace ++ if first then [.settle s.params.settleDelay] else [] }) hq hw
    (fun x hx => List.mem_of_getElem? (mem_indexedFrom_zero.1 hx)) (scannedRegs_nodup hd)
  refine ⟨m, hm, ?_⟩
  show execDispatch first s = _
  rw [execDispatch, whenInit_true _ _ hi, settle_quiet first hq, e, thenState_next, passCallbacks_eq, passSteps_eq,
    ← List.append_assoc]
  rfl

end

/-- Settles O45: the pass goes over all communities, and the registers it drains are those that the statement names. -/
theorem dispatchDeliversAndDrains : Obligations.DispatchDeliversAndDrains := by
  intro s t first hi _ hw hd hq ht
  obtain ⟨m, ⟨hzero, hframe⟩, e⟩ := dispatch_quiet first hi hw hd hq
  obtain rfl := Host.Outcome.next.inj (e.symm.trans ht)
  refine ⟨rfl, rfl, fun c C G hc hscan hG => ?_, fun q hout => ?_⟩
  · exact hzero _ (List.mem_flatMap.2 ⟨(c, C), mem_indexedFrom_zero.2 hc, mem_scannedRegs.2 ⟨hscan, G, hG, rfl⟩⟩)
  · refine hframe q fun a ha => ?_
    obtain ⟨⟨c, C⟩, hc, ha⟩ := List.mem_flatMap.1 ha
    obtain ⟨hscan, G, hG, rfl⟩ := mem_scannedRegs.1 ha
    exact hout c C G (mem_indexedFrom_zero.1 hc) hscan hG

end Sys2Proof.Machine
end

section
/-! PROOFS. The short statements of the power context (spec/44_power_context.md R181 to R191): the save test's answer, the
repeated suspend and resume, the two power states, and the re-validation of one pin. -/

namespace Sys2Proof.Machine

/-- Settles O50: in each state the two commands run one sequence behind the same check. -/
theorem setPowerStateIsSuspendOrResume : Obligations.SetPowerStateIsSuspendOrResume := fun _ => ⟨rfl, rfl⟩

section
variable {s : State} {i : Instr}

/-- `SUSPEND` and its power state, past the initialized check (R191). -/
theorem exec_suspend_or_sleeping (hcmd : i = .suspend ∨ i = .setPowerState .sleeping) (hi : s.initialized = true) :
    exec i s = suspendSequence s := by
  rcases hcmd with rfl | rfl <;> exact whenInit_true _ _ hi

/-- `RESUME` and its power state, past the initialized check (R191). -/
theorem exec_resume_or_working (hcmd : i = .resume ∨ i = .setPowerState .working) (hi : s.initialized = true) :
    exec i s = resumeSequence s := by
  rcases hcmd with rfl | rfl <;> exact whenInit_true _ _ hi

end

/-- Settles O48: the first test of the sequence. -/
theorem repeatedSuspendDoesNothing : Obligations.RepeatedSuspendDoesNothing :=
  fun _ _ hcmd hi hs => (exec_suspend_or_sleeping hcmd hi).trans (if_pos hs)

/-- Settles O49: the first test of the sequence. -/
theorem repeatedResumeDoesNothing : Obligations.RepeatedResumeDoesNothing :=
  fun _ _ hcmd hi hs => (exec_resume_or_working hcmd hi).trans (if_pos hs)

/-- Settles O46: past its checks the command is `save_test`, whose answer and reads `saveTest_quiet` gives. -/
theorem shouldSaveAnswers : Obligations.ShouldSaveAnswers := by
  intro s pin loc hi hr hact hq hguard hbus1 hbus2
  show execShouldSave pin s = _
  rw [execShouldSave, checks_passed hi hr hact, saveTest_quiet hguard hbus1 hbus2 hq]
  rfl

/-! ## Re-validation of one pin -/

section
variable {s : State} {pin : Nat} {loc : Loc}

/-- A refused pin: masked, its owner told, no other record changed (R189). -/
theorem refuseRearm_spec (pin : Nat) (s : State) :
    refuseRearm pin s = { s with irq := (refuseRearm pin s).irq,
                                 events := s.events ++ [.advisory (irqOf s pin).owner pin] } ∧
      ∀ p, irqOf (refuseRearm pin s) p = if p = pin then { irqOf s pin with state := .masked } else irqOf s p :=
  ⟨rfl, irqOf_setIrq pin _ s⟩

theorem thenState_done (r : Out) : thenState r .next = r := by cases r <;> rfl

/-- An unmasked pin whose guard passes: past the guard's reads, one read of GPI_IE and one write that adds its bit (R189). -/
theorem revalidate_pass (hun : (irqOf s pin).state = .unmasked) (h0 : loc.com.interruptEnableOffset ≠ 0)
    (hact : isActive s loc.c = true) (hq : Quiet s) (hguard : guardOnBus s.params loc pin)
    (hbus : onBus (enableReg loc)) (hpass : mayMutate s.params loc pin s.mem = true) :
    let a := enableReg loc
    let w := s.mem.readWord a ||| 1#32 <<< (pin - loc.grp.basePin)
    ∃ t, revalidate loc pin s = .next t ∧
      t = { s with mem := t.mem, draws := t.draws,
                   trace := s.trace ++ guardReads s.params loc pin s.mem ++ [readOf s.mem a, .write a w] } ∧
      (plainReg s a → t.mem.readWord a = w) ∧ ∀ q, q < a ∨ a + 4 ≤ q → t.mem.readByte q = s.mem.readByte q := by
  obtain ⟨m, d, hrun, hword, hframe⟩ := readModifyWrite_quiet
    (enc := fun _ v => enableBits false v (loc.bit pin)) (k := .next)
    (s := { s with trace := s.trace ++ guardReads s.params loc pin s.mem }) hbus hq
  simp only [thenState_done] at hrun
  rw [revalidate, if_pos hun, if_neg (by simp [h0, hact]), guard_quiet hguard hq, andThen_next,
    if_pos (verdictOf_pass.2 hpass)]
  exact ⟨_, hrun, rfl, hword, hframe⟩

/-- An unmasked pin whose guard fails: past the guard's reads, refused (R189). -/
theorem revalidate_denied (hun : (irqOf s pin).state = .unmasked) (h0 : loc.com.interruptEnableOffset ≠ 0)
    (hact : isActive s loc.c = true) (hq : Quiet s) (hguard : guardOnBus s.params loc pin)
    (hden : mayMutate s.params loc pin s.mem = false) :
    revalidate loc pin s =
      .next (refuseRearm pin { s with trace := s.trace ++ guardReads s.params loc pin s.mem }) := by
  have hverdict : verdictOf s.params loc pin s.mem ≠ .pass := fun h => by
    simpa [hden] using verdictOf_pass.1 h
  rw [revalidate, if_pos hun, if_neg (by simp [h0, hact]), guard_quiet hguard hq, andThen_next, if_neg hverdict]

/-- An unmasked pin without a GPI_IE register is refused at once (R189). -/
theorem revalidate_absent (hun : (irqOf s pin).state = .unmasked) (h0 : loc.com.interruptEnableOffset = 0) :
    revalidate loc pin s = .next (refuseRearm pin s) := by
  rw [revalidate, if_pos hun, if_pos (.inl h0)]

/-- A pin that is not unmasked: the guard's reads, and its owner told where the guard fails (R189). -/
theorem revalidate_masked (hun : (irqOf s pin).state ≠ .unmasked) (hq : Quiet s) (hguard : guardOnBus s.params loc pin) :
    revalidate loc pin s = .next { s with
      events := s.events ++ if mayMutate s.params loc pin s.mem then [] else [.advisory (irqOf s pin).owner pin]
      trace := s.trace ++ guardReads s.params loc pin s.mem } := by
  rw [revalidate, if_neg hun, guard_quiet hguard hq, andThen_next]
  simp only [verdictOf_pass]
  split
  · simp
  · rfl

end

/-- Settles O54: one lemma for each way through the re-validation. -/
theorem revalidateRearmsOrTells : Obligations.RevalidateRearmsOrTells := by
  intro s pin loc hq hguard hact hbus pass reads a v told
  refine ⟨fun hun h0 hpass => ?rearmed, fun hun hno => ?refused, fun hm => ?masked⟩
  case rearmed => exact revalidate_pass hun h0 hact hq hguard (hbus h0) hpass
  case refused =>
    by_cases h0 : loc.com.interruptEnableOffset = 0
    · obtain ⟨hshape, hirq⟩ := refuseRearm_spec pin s
      exact ⟨_, revalidate_absent hun h0, by rw [if_pos h0, List.append_nil]; exact hshape, hirq⟩
    · obtain ⟨hshape, hirq⟩ := refuseRearm_spec pin { s with trace := s.trace ++ reads }
      exact ⟨_, revalidate_denied hun h0 hact hq hguard (hno.resolve_left h0), by rw [if_neg h0]; exact hshape, hirq⟩
  case masked =>
    exact revalidate_masked (by simp [hm]) hq hguard

end Sys2Proof.Machine
end

section
/-! PROOFS. Suspend (spec/44_power_context.md R183, R184): with no agent step to come, the snapshots it takes, the reads it
makes and the communities it powers down.

Each loop is told from the register space at its start, which no read changes: the community snapshots fill from the front
(`filling`), and the pin snapshots pin by pin. -/

namespace Sys2Proof.Machine

/-! ## The community snapshots -/

/-- The snapshot word of a pad group's register: what it holds, 0 where the community does not have the kind (R184). -/
def heldWord (m : Memory) (C : Community) (o : Nat) (G : PadGroup) : Word :=
  if o = 0 then 0 else m.readWord (groupReg C G o)

/-- The read of a pad group's register, where the community has the kind (R183). -/
def kindRead (m : Memory) (C : Community) (o : Nat) (G : PadGroup) : List MicroStep :=
  if o = 0 then [] else [readOf m (groupReg C G o)]

/-- The reads of one pad group's snapshot (R183). -/
def groupSnapshotReads (m : Memory) (C : Community) (G : PadGroup) : List MicroStep :=
  kindRead m C C.interruptEnableOffset G ++ kindRead m C C.hostOwnerOffset G

/-- A snapshot array filled for the pad groups `done` and zero for those to come (R183). -/
def filledWords (m : Memory) (C : Community) (o : Nat) (done coming : List PadGroup) : List Word :=
  done.map (heldWord m C o) ++ coming.map fun _ => 0

/-- A community's snapshot, filled for the pad groups `done` and zero for those to come (R183). -/
def filling (m : Memory) (C : Community) (done coming : List PadGroup) : CommContext :=
  ⟨false, filledWords m C C.interruptEnableOffset done coming, filledWords m C C.hostOwnerOffset done coming⟩

/-- A community's whole snapshot (R184). -/
def snapshotOf (m : Memory) (C : Community) : CommContext := { filling m C (groupsOf C) [] with valid := true }

section
variable {s : State} {c : Nat} {C : Community} {G : PadGroup} {done coming : List PadGroup} {tr : List MicroStep}

theorem commCtx_setCommCtx {x : CommContext} {s : State} (hc : c < s.ctxComm.length) : commCtx (setCommCtx c x s) c = x := by
  rw [commCtx, setCommCtx, List.getD_eq_getElem _ _ (by rwa [List.length_set]), List.getElem_set_self]

theorem setCommCtx_setCommCtx (x y : CommContext) (s : State) :
    setCommCtx c y (setCommCtx c x s) = setCommCtx c y s := by
  simp only [setCommCtx, List.set_set]

theorem set_filledWords (m : Memory) (C : Community) (o : Nat) (done coming : List PadGroup) (G : PadGroup) :
    (filledWords m C o done (G :: coming)).set done.length (heldWord m C o G) = filledWords m C o (done ++ [G]) coming := by
  simp [filledWords]

/-- Where the community does not have the kind, its words stay 0. -/
theorem filledWords_absent (m : Memory) (C : Community) (done coming : List PadGroup) (G : PadGroup) :
    filledWords m C 0 done (G :: coming) = filledWords m C 0 (done ++ [G]) coming := by
  simp [filledWords, heldWord]

/-- One register of a pad group goes into the word of its kind, which `put` writes in a snapshot. -/
theorem snapshotReg_fills {o : Nat} {put : List Word → CommContext} {store : Word → State → State}
    (hbus : o ≠ 0 → onBus (groupReg C G o)) (hq : Quiet s)
    (hstore : ∀ v tr ws, store v (setCommCtx c (put ws) { s with trace := tr }) =
      setCommCtx c (put (ws.set done.length v)) { s with trace := tr }) :
    snapshotReg C G o store (setCommCtx c (put (filledWords s.mem C o done (G :: coming))) { s with trace := tr }) =
      .next (setCommCtx c (put (filledWords s.mem C o (done ++ [G]) coming))
        { s with trace := tr ++ kindRead s.mem C o G }) := by
  have hread := snapshotReg_quiet (store := store)
    (s := setCommCtx c (put (filledWords s.mem C o done (G :: coming))) { s with trace := tr }) hbus hq
  rw [hread, kindRead]
  split
  · next h0 => subst h0; rw [filledWords_absent, List.append_nil]
  · next h0 =>
    rw [← set_filledWords, heldWord, if_neg h0]
    exact congrArg Host.Outcome.next
      (hstore (s.mem.readWord (groupReg C G o)) (tr ++ [readOf s.mem (groupReg C G o)])
        (filledWords s.mem C o done (G :: coming)))

/-- One pad group of the community snapshot (R183). -/
theorem snapshotGroup_fills (hc : c < s.ctxComm.length) (hq : Quiet s)
    (hbus : ∀ o ∈ scopedOffsets C, o ≠ 0 → onBus (groupReg C G o)) :
    snapshotGroup c C (done.length, G) (setCommCtx c (filling s.mem C done (G :: coming)) { s with trace := tr }) =
      .next (setCommCtx c (filling s.mem C (done ++ [G]) coming)
        { s with trace := tr ++ groupSnapshotReads s.mem C G }) := by
  have hie := snapshotReg_fills (c := c) (coming := coming) (done := done) (tr := tr) (store := storeIe c done.length)
    (put := fun ws => ⟨false, ws, filledWords s.mem C C.hostOwnerOffset done (G :: coming)⟩)
    (hbus C.interruptEnableOffset (by simp [scopedOffsets])) hq fun v tr ws => by
      rw [storeIe, commCtx_setCommCtx (by exact hc), setCommCtx_setCommCtx]
  have hhost := snapshotReg_fills (c := c) (coming := coming) (done := done)
    (tr := tr ++ kindRead s.mem C C.interruptEnableOffset G) (store := storeHostown c done.length)
    (put := fun ws => ⟨false, filledWords s.mem C C.interruptEnableOffset (done ++ [G]) coming, ws⟩)
    (hbus C.hostOwnerOffset (by simp [scopedOffsets])) hq fun v tr ws => by
      rw [storeHostown, commCtx_setCommCtx (by exact hc), setCommCtx_setCommCtx]
  rw [snapshotGroup, filling, hie, thenState_next, hhost, groupSnapshotReads, ← List.append_assoc]
  rfl

/-- The pad groups of a community from one on (R183). -/
theorem snapshotGroups_fill (hc : c < s.ctxComm.length) (hq : Quiet s)
    (hbus : ∀ G ∈ coming, ∀ o ∈ scopedOffsets C, o ≠ 0 → onBus (groupReg C G o)) :
    forEach (indexedFrom done.length coming) (snapshotGroup c C)
        (setCommCtx c (filling s.mem C done coming) { s with trace := tr }) =
      .next (setCommCtx c (filling s.mem C (done ++ coming) [])
        { s with trace := tr ++ coming.flatMap (groupSnapshotReads s.mem C) }) := by
  induction coming generalizing done tr with
  | nil => simp [indexedFrom]
  | cons G rest ih =>
    simp only [List.mem_cons, forall_eq_or_imp] at hbus
    have hlen : done.length + 1 = (done ++ [G]).length := by simp
    rw [indexedFrom, forEach_cons, snapshotGroup_fills hc hq hbus.1, thenState_next, hlen, ih hbus.2]
    simp

/-- One community's snapshot, from a zero-filled one (R183). -/
theorem snapshotCommunity_fills (hq : Quiet s) (hw : tableWf s.params s.table = true) (hC : C ∈ s.table.communities)
    (hzero : s.ctxComm[c]? = some (zeroComm C)) :
    snapshotCommunity (c, C) s = .next (setCommCtx c (snapshotOf s.mem C)
      { s with trace := s.trace ++ (groupsOf C).flatMap (groupSnapshotReads s.mem C) }) := by
  obtain ⟨hc, hget⟩ := List.getElem?_eq_some_iff.1 hzero
  have hstart : s = setCommCtx c (filling s.mem C [] (groupsOf C)) { s with trace := s.trace } := by
    have hset : s.ctxComm.set c (zeroComm C) = s.ctxComm := by rw [← hget, List.set_getElem_self]
    show s = { s with ctxComm := s.ctxComm.set c (zeroComm C) }
    rw [hset]
  have hloop := snapshotGroups_fill (done := []) (coming := groupsOf C) (C := C) (tr := s.trace) hc hq
    fun G hG o ho h0 => groupReg_onBus hw hC hG ho h0
  rw [← hstart] at hloop
  rw [snapshotCommunity, List.length_nil] at *
  rw [hloop, thenState_next, commCtx_setCommCtx (by exact hc), setCommCtx_setCommCtx]
  rfl

/-- The communities from one on (R183). -/
theorem snapshotCommunities_fill {done coming : List Community} (hq : Quiet s) (hw : tableWf s.params s.table = true)
    (hsub : ∀ C ∈ coming, C ∈ s.table.communities)
    (hctx : s.ctxComm = done.map (snapshotOf s.mem) ++ coming.map zeroComm) :
    forEach (indexedFrom done.length coming) snapshotCommunity s = .next
      { s with ctxComm := (done ++ coming).map (snapshotOf s.mem)
               trace := s.trace ++ coming.flatMap fun C => (groupsOf C).flatMap (groupSnapshotReads s.mem C) } := by
  induction coming generalizing done s with
  | nil =>
    have hall : s.ctxComm = done.map (snapshotOf s.mem) := by simpa using hctx
    simp [indexedFrom, ← hall]
  | cons C rest ih =>
    simp only [List.mem_cons, forall_eq_or_imp] at hsub
    have hzero : s.ctxComm[done.length]? = some (zeroComm C) := by simp [hctx]
    have hlen : done.length + 1 = (done ++ [C]).length := by simp
    rw [indexedFrom, forEach_cons, snapshotCommunity_fills hq hw hsub.1 hzero, thenState_next, hlen, ih]
    · simp [setCommCtx]
    · exact hq
    · exact hw
    · exact hsub.2
    · simp [setCommCtx, hctx]

end

/-! ## The pin snapshots -/

/-- The reads of one pin's part of a suspend (R183). -/
def pinSnapshotReads (s : State) (p : Nat) : List MicroStep :=
  match resolve s.table p with
  | none => []
  | some loc =>
    saveReads s.params loc p s.mem ++
      if wouldSave s.params loc p s.mem then (pinRegs s.params loc.com p).map (readOf s.mem) else []

/-- What a suspend takes of a pin: its padcfg registers where the save test passes (R183). -/
def pinSnapshot (s : State) (p : Nat) : Option PinContext :=
  (resolve s.table p).bind fun loc =>
    if wouldSave s.params loc p s.mem then some (heldPadcfgs s.params loc p s.mem) else none

theorem suspendReads_eq (s : State) :
    suspendReads s = (s.table.communities.flatMap fun C => (groupsOf C).flatMap (groupSnapshotReads s.mem C)) ++
      (allPins s.table).flatMap (pinSnapshotReads s) := by
  have hcomms : (indexedFrom 0 s.table.communities).flatMap
      (fun x => (groupsOf x.2).flatMap (groupSnapshotReads s.mem x.2)) =
        s.table.communities.flatMap fun C => (groupsOf C).flatMap (groupSnapshotReads s.mem C) := by
    conv_rhs => rw [← List.map_id s.table.communities, ← map_indexedFrom_snd id 0, List.flatMap_map]
    rfl
  rw [← hcomms]
  rfl

section
variable {s : State}

/-- One pin's part of a suspend: its reads, and its snapshot where the save test passes (R183). -/
theorem snapshotPin_takes (hq : Quiet s) (hp : paramsWf s.params = true) (hw : tableWf s.params s.table = true) (p : Nat) :
    ∃ ctx, snapshotPin p s = .next { s with ctxPin := ctx, trace := s.trace ++ pinSnapshotReads s p } ∧
      ∀ q, storeGet PinContext.zero ctx q = if q = p then (pinSnapshot s p).getD (pinCtx s p) else pinCtx s q := by
  cases hr : resolve s.table p with
  | none =>
    refine ⟨s.ctxPin, by simp [snapshotPin, pinSnapshotReads, hr], fun q => ?_⟩
    split
    · next h => simp [pinSnapshot, hr, h, pinCtx]
    · rfl
  | some loc =>
    obtain ⟨-, hbegin, hend, -⟩ := resolve_some hr
    rw [snapshotPin_quiet hr (guardOnBus_of_resolve hp hw hr)
      (fun k hk => padcfgReg_onBus hp hw (resolve_com_mem hr) hbegin hend hk) hq]
    simp only [pinSnapshotReads, pinSnapshot, hr, Option.bind_some]
    split
    · exact ⟨_, rfl, fun q => storeGet_storeSet ..⟩
    · refine ⟨s.ctxPin, by simp, fun q => ?_⟩
      split
      · next h => rw [h]; rfl
      · rfl

/-- The pins of a suspend (R183). -/
theorem snapshotPins_take (hq : Quiet s) (hp : paramsWf s.params = true) (hw : tableWf s.params s.table = true)
    (ps : List Nat) :
    ∃ ctx, forEach ps snapshotPin s =
        .next { s with ctxPin := ctx, trace := s.trace ++ ps.flatMap (pinSnapshotReads s) } ∧
      ∀ q, storeGet PinContext.zero ctx q = if q ∈ ps then (pinSnapshot s q).getD (pinCtx s q) else pinCtx s q := by
  induction ps generalizing s with
  | nil => exact ⟨s.ctxPin, by simp, fun q => rfl⟩
  | cons p rest ih =>
    obtain ⟨ctx1, hrun1, hctx1⟩ := snapshotPin_takes hq hp hw p
    obtain ⟨ctx, hrun, hctx⟩ := ih (s := { s with ctxPin := ctx1, trace := s.trace ++ pinSnapshotReads s p }) hq hp hw
    refine ⟨ctx, ?_, fun q => ?_⟩
    · rw [forEach_cons, hrun1, thenState_next, hrun, List.flatMap_cons, ← List.append_assoc]
      rfl
    · have hlater : storeGet PinContext.zero ctx q =
          if q ∈ rest then (pinSnapshot s q).getD (storeGet PinContext.zero ctx1 q)
          else storeGet PinContext.zero ctx1 q := hctx q
      rw [hlater, hctx1]
      by_cases hqp : q = p
      · subst hqp
        by_cases hin : q ∈ rest <;> cases hsnap : pinSnapshot s q <;> simp [hin]
      · simp [hqp]

end

/-! ## The power-down -/

theorem getD_powerDownFrom (Cs : List Community) (as : List Bool) {c : Nat} {C : Community} (hc : Cs[c]? = some C) :
    (powerDownFrom Cs as).getD c false = (as.getD c false && keepsActive C) := by
  induction Cs generalizing as c with
  | nil => simp at hc
  | cons D rest ih =>
    cases as with
    | nil => simp [powerDownFrom]
    | cons a as =>
      cases c with
      | zero =>
        obtain rfl : D = C := by simpa using hc
        cases hk : keepsActive D <;> simp [powerDownFrom, hk]
      | succ c => simpa [powerDownFrom] using ih as (by simpa using hc)

/-- A suspend between the community snapshots and the pin snapshots (R183). -/
def communitiesTaken (s : State) : State :=
  { s with ctxComm := s.table.communities.map (snapshotOf s.mem)
           ctxPin := storeFill PinContext.zero (allPins s.table)
           trace := s.trace ++ s.table.communities.flatMap fun C => (groupsOf C).flatMap (groupSnapshotReads s.mem C) }

/-- The state after a suspend with no agent step to come, told from the state before it. -/
theorem suspendSequence_quiet {s : State} (hs : s.suspended = false) (hp : paramsWf s.params = true)
    (hw : tableWf s.params s.table = true) (hq : Quiet s) :
    ∃ ctx, suspendSequence s = .next (respond .ok 0 { s with
        active := powerDownFrom s.table.communities s.active, suspended := true, ctxPin := ctx,
        ctxComm := s.table.communities.map (snapshotOf s.mem), trace := s.trace ++ suspendReads s }) ∧
      ∀ p, storeGet PinContext.zero ctx p = (pinSnapshot s p).getD PinContext.zero := by
  have hcomms : forEach (indexedFrom 0 s.table.communities) snapshotCommunity (zeroFill s) = .next (communitiesTaken s) :=
    snapshotCommunities_fill (s := zeroFill s) (done := []) hq hw (fun _ h => h) rfl
  obtain ⟨ctx, hpins, hctx⟩ := snapshotPins_take (s := communitiesTaken s) hq hp hw (allPins s.table)
  refine ⟨ctx, ?_, fun p => ?_⟩
  · rw [suspendSequence, if_neg (by simp [hs]), hcomms, thenState_next]
    show thenState (forEach (allPins s.table) snapshotPin (communitiesTaken s)) _ = _
    rw [hpins, thenState_next, suspendReads_eq, ← List.append_assoc]
    rfl
  · have hzero : pinCtx (communitiesTaken s) p = PinContext.zero := by
      rw [pinCtx, communitiesTaken, storeGet_storeFill, ite_self]
    have hsame : pinSnapshot (communitiesTaken s) p = pinSnapshot s p := rfl
    rw [hctx, hzero, hsame, ite_eq_left_iff]
    intro hout
    cases hr : resolve s.table p with
    | none => simp [pinSnapshot, hr]
    | some loc => exact absurd (resolve_mem_allPins hr) hout

theorem snapshotOf_eq (m : Memory) (C : Community) : snapshotOf m C =
    ⟨true, (groupsOf C).map (heldWord m C C.interruptEnableOffset), (groupsOf C).map (heldWord m C C.hostOwnerOffset)⟩ := by
  simp [snapshotOf, filling, filledWords]

/-- Settles O47: the snapshots are read from the registers as they stand when the suspend begins. -/
theorem suspendTakesSnapshot : Obligations.SuspendTakesSnapshot := by
  intro s i hcmd hi hs hp hw hq
  obtain ⟨ctx, hrun, hctx⟩ := suspendSequence_quiet hs hp hw hq
  refine ⟨_, (exec_suspend_or_sleeping hcmd hi).trans hrun, rfl, ?_, fun p => ?_, fun c C hc => ?_⟩
  · exact List.map_congr_left fun C _ => snapshotOf_eq s.mem C
  · refine (hctx p).trans ?_
    cases hr : resolve s.table p with
    | none => simp [pinSnapshot, hr, PinContext.zero]
    | some loc =>
      simp only [pinSnapshot, hr, Option.bind_some]
      split <;> rfl
  · exact getD_powerDownFrom s.table.communities s.active hc

end Sys2Proof.Machine
end

section
/-! PROOFS. A resume completes (spec/44_power_context.md R186, R189): whatever the register agent does, it answers, wakes
every community, discards the snapshots and tells by advisories alone. `Rechecks` says what every stretch of it can change. -/

namespace Sys2Proof.Machine

/-- From `s` to `t` unmasked pins may become masked and advisories are emitted; beyond them only what the bus, the register
agent and the gate hold can differ. -/
def Rechecks (s t : State) : Prop :=
  ∃ es, sameBlock { s with irq := t.irq, events := s.events ++ es } t ∧
    (∀ p, irqOf t p = irqOf s p ∨
      ((irqOf s p).state = .unmasked ∧ irqOf t p = { irqOf s p with state := .masked })) ∧
    ∀ e ∈ es, ∃ o p, e = .advisory o p

section
variable {s t u : State} {pin : Nat} {loc : Loc}

theorem Rechecks.refl (s : State) : Rechecks s s := ⟨[], by simp [sameBlock], fun _ => .inl rfl, by simp⟩

theorem Rechecks.trans (h : Rechecks s u) (h' : Rechecks u t) : Rechecks s t := by
  obtain ⟨es, hu, hirq, hes⟩ := h
  obtain ⟨es', ht, hirq', hes'⟩ := h'
  refine ⟨es ++ es', ?_, fun p => ?_, fun e he => (List.mem_append.1 he).elim (hes e) (hes' e)⟩
  · unfold sameBlock at *
    rw [ht, hu]
    simp
  · rcases hirq' p with hsame | ⟨hun, hmasked⟩
    · rw [hsame]; exact hirq p
    · rcases hirq p with hbegan | ⟨-, hbegan⟩
      · rw [hmasked, ← hbegan]; exact .inr ⟨hun, rfl⟩
      · rw [hbegan] at hun; cases hun

theorem Rechecks.of_busOnly (h : Rechecks s u) (hb : busOnly u t) : Rechecks s t := by
  refine h.trans ⟨[], ?_, fun p => .inl (sameBlock_irqOf hb.1 p), by simp⟩
  rw [List.append_nil, sameBlock_irq hb.1]
  exact hb.1

theorem Rechecks.advisory (h : Rechecks s u) (o : Word64) (p : Nat) : Rechecks s (emit (.advisory o p) u) :=
  h.trans ⟨[.advisory o p], rfl, fun _ => .inl rfl, fun _ he => ⟨o, p, List.mem_singleton.1 he⟩⟩

theorem Rechecks.refuseRearm (h : Rechecks s u) (hun : (irqOf u pin).state = .unmasked) :
    Rechecks s (refuseRearm pin u) := by
  obtain ⟨hshape, hirq⟩ := refuseRearm_spec pin u
  refine h.trans ⟨[.advisory (irqOf u pin).owner pin], hshape, fun p => ?_, fun _ he => ⟨_, _, List.mem_singleton.1 he⟩⟩
  rw [hirq]
  split
  · next hp => exact .inr ⟨hp ▸ hun, by rw [hp]⟩
  · exact .inl rfl

theorem rechecks_write (hu : Rechecks s u) (a : Nat) (v : Word) : Answers (Rechecks s) (memWrite a v u) :=
  (answers_write a v u).imp fun _ hb => hu.of_busOnly hb

theorem rechecks_restoreKind (C : Community) (o : Nat) (words : List Word) (hu : Rechecks s u) :
    Answers (Rechecks s) (restoreKind C o words u) := by
  unfold restoreKind
  split
  · exact hu
  · exact .forEach (fun y _ _ h => rechecks_write h _ _) hu

theorem rechecks_restoreCommunity (x : Nat × Community) (hu : Rechecks s u) :
    Answers (Rechecks s) (restoreCommunity x u) := by
  unfold restoreCommunity
  split
  · exact (rechecks_restoreKind _ _ _ hu).thenState fun _ h => rechecks_restoreKind _ _ _ h
  · exact hu

theorem rechecks_restorePin (hu : Rechecks s u) : Answers (Rechecks s) (restorePin pin u) := by
  unfold restorePin
  split
  · exact hu
  · dsimp only
    split
    · exact (rechecks_write hu _ _).thenState fun _ h1 => (rechecks_write h1 _ _).thenState fun _ h2 =>
        rechecks_write h2 _ _
    · exact hu

theorem rechecks_revalidate (hu : Rechecks s u) : Answers (Rechecks s) (revalidate loc pin u) := by
  unfold revalidate
  split
  · next hun =>
    split
    · exact hu.refuseRearm hun
    · refine (answers_bus guard_busOnly).andThen fun v u1 hb => ?_
      have h1 := hu.of_busOnly hb
      split
      · exact (answers_bus memRead_busOnly).andThen fun _ _ hb' => rechecks_write (h1.of_busOnly hb') _ _
      · exact h1.refuseRearm ((congrArg IrqRecord.state (sameBlock_irqOf hb.1 pin)).trans hun)
  · refine (answers_bus guard_busOnly).andThen fun v u1 hb => ?_
    show Rechecks s (if v = .pass then u1 else _)
    split
    · exact hu.of_busOnly hb
    · exact (hu.of_busOnly hb).advisory _ _

theorem rechecks_revalidatePin (hu : Rechecks s u) : Answers (Rechecks s) (revalidatePin pin u) := by
  unfold revalidatePin
  split
  · exact hu
  · split
    · exact hu
    · exact rechecks_revalidate hu

/-- The state a resume begins with: every community is active (R186). -/
def poweredUp (s : State) : State := { s with active := s.table.communities.map fun _ => true }

theorem rechecks_resumeSequence (hs : s.suspended = true) :
    Answers (fun t => ∃ u, Rechecks (poweredUp s) u ∧ t = respond .ok 0 (discardSnapshot u)) (resumeSequence s) := by
  rw [resumeSequence, if_neg (by simp [hs])]
  exact (Answers.forEach (fun x _ _ h => rechecks_restoreCommunity x h) (Rechecks.refl (poweredUp s))).thenState
    fun _ h1 => (Answers.forEach (fun _ _ _ h => rechecks_restorePin h) h1).thenState fun _ h2 =>
      (Answers.forEach (fun _ _ _ h => rechecks_revalidatePin h) h2).thenState fun u h3 => ⟨u, h3, rfl⟩

/-! ## The discarded snapshot -/

theorem storeGet_map {α β : Type} (f : α → β) (d : α) (m : List (Nat × α)) (q : Nat) :
    storeGet (f d) (m.map fun e => (e.1, f e.2)) q = f (storeGet d m q) := by
  induction m with
  | nil => rfl
  | cons e rest ih =>
    rw [List.map_cons, storeGet_cons, storeGet_cons, ih]
    split <;> rfl

/-- A snapshot with its `valid` flag cleared and its words kept (R186). -/
def PinContext.discarded (x : PinContext) : PinContext := { x with valid := false }

/-- A snapshot with its `valid` flag cleared and its words kept (R186). -/
def CommContext.discarded (x : CommContext) : CommContext := { x with valid := false }

theorem pinCtx_discardSnapshot (s : State) (p : Nat) : pinCtx (discardSnapshot s) p = (pinCtx s p).discarded :=
  storeGet_map PinContext.discarded PinContext.zero s.ctxPin p

theorem commCtx_discardSnapshot (s : State) (c : Nat) : commCtx (discardSnapshot s) c = (commCtx s c).discarded :=
  List.getD_map s.ctxComm ⟨false, [], []⟩ CommContext.discarded

end

/-- Settles O51: the sequence completes as every command does, and each of its stretches only rechecks. -/
theorem resumeCompletes : Obligations.ResumeCompletes := by
  intro s i hcmd hi hs hp hw
  obtain ⟨t, ht⟩ := exec_completes i s (configOk_iff.2 ⟨hp, hw⟩)
  have hrun := exec_resume_or_working hcmd hi
  obtain ⟨u, ⟨es, hu, hirq, hes⟩, rfl⟩ := (rechecks_resumeSequence hs).of_next (hrun.symm.trans ht)
  refine ⟨_, es, ht, ?_, hirq, fun p => ?_, fun c => ?_, hes⟩
  · rw [hu]; rfl
  · have hkept : pinCtx u p = pinCtx s p := by rw [pinCtx, hu]; rfl
    rw [← hkept]
    exact pinCtx_discardSnapshot u p
  · have hkept : commCtx u c = commCtx s c := by rw [commCtx, hu]; rfl
    rw [← hkept]
    exact commCtx_discardSnapshot u c

end Sys2Proof.Machine
end

section
/-! PROOFS. The restore of a resume (spec/44_power_context.md R186 to R188): with no agent step to come and no two registers
at one address, every restore write is made, in order, and stands when the restore is over.

`forEach_wrote` is the one argument: a loop whose rounds write registers apart from each other leaves each round's words. It
is used once over the communities and once over the pins. -/

namespace Sys2Proof.Machine

/-! ## What a restore writes -/

/-- The registers that a resume restores of a community (R187). -/
def communityRestoreRegs (s : State) (x : Nat × Community) : List Nat :=
  if (commCtx s x.1).valid then kindRegs x.2 x.2.hostOwnerOffset ++ kindRegs x.2 x.2.interruptEnableOffset else []

/-- The restore writes of a community (R187). -/
def communityRestoreWrites (s : State) (x : Nat × Community) : List MicroStep :=
  if (commCtx s x.1).valid then
    kindWrites x.2 x.2.hostOwnerOffset (commCtx s x.1).hostown ++
      kindWrites x.2 x.2.interruptEnableOffset (commCtx s x.1).ie
  else []

/-- The registers that a resume restores of a pin (R188). -/
def pinRestoreRegs (s : State) (p : Nat) : List Nat :=
  match resolve s.table p with
  | none => []
  | some loc => if (pinCtx s p).valid then pinRegs s.params loc.com p else []

/-- The restore writes of a pin (R188). -/
def pinRestoreWrites (s : State) (p : Nat) : List MicroStep :=
  match resolve s.table p with
  | none => []
  | some loc =>
    if (pinCtx s p).valid then
      [.write (padcfgReg s.params loc.com p 0) (pinCtx s p).padcfg0,
        .write (padcfgReg s.params loc.com p 1) (pinCtx s p).padcfg1,
        .write (padcfgReg s.params loc.com p 2) (pinCtx s p).padcfg2]
    else []

/-- The registers that a resume restores. -/
def restoreRegs (s : State) : List Nat :=
  (indexedFrom 0 s.table.communities).flatMap (communityRestoreRegs s) ++ (allPins s.table).flatMap (pinRestoreRegs s)

theorem restoreWrites_eq (s : State) : restoreWrites s =
    (indexedFrom 0 s.table.communities).flatMap (communityRestoreWrites s) ++
      (allPins s.table).flatMap (pinRestoreWrites s) := rfl

theorem mem_kindRegs {C : Community} {o a : Nat} :
    a ∈ kindRegs C o ↔ o ≠ 0 ∧ ∃ G ∈ groupsOf C, groupReg C G o = a := by
  unfold kindRegs
  split
  · next h0 => simp [h0]
  · next h0 => simp [h0]

theorem mem_kindWrites {C : Community} {o a : Nat} {v : Word} {words : List Word} :
    .write a v ∈ kindWrites C o words ↔
      o ≠ 0 ∧ ∃ g G, (groupsOf C)[g]? = some G ∧ groupReg C G o = a ∧ words.getD g 0 = v := by
  unfold kindWrites
  split
  · next h0 => simp [h0]
  · next h0 => simp [h0, mem_indexedFrom_zero]

theorem mem_pinRegs {P : Params} {C : Community} {p a : Nat} : a ∈ pinRegs P C p ↔ ∃ k ≤ 2, padcfgReg P C p k = a := by
  constructor
  · intro h
    simp only [pinRegs, List.mem_cons, List.not_mem_nil, or_false] at h
    rcases h with rfl | rfl | rfl
    exacts [⟨0, by omega, rfl⟩, ⟨1, by omega, rfl⟩, ⟨2, by omega, rfl⟩]
  · rintro ⟨k, hk, rfl⟩
    exact padcfgReg_mem_pinRegs P C p hk

section
variable {s t u w : State} {P : Params} {T : Table} {c p a : Nat} {C : Community} {x : Nat × Community} {loc : Loc} {v : Word}

theorem mem_communityRestoreRegs : a ∈ communityRestoreRegs s x ↔
    (commCtx s x.1).valid = true ∧ ∃ o, (o = x.2.hostOwnerOffset ∨ o = x.2.interruptEnableOffset) ∧ o ≠ 0 ∧
      ∃ G ∈ groupsOf x.2, groupReg x.2 G o = a := by
  unfold communityRestoreRegs
  split
  · next hv =>
    rw [List.mem_append, mem_kindRegs, mem_kindRegs]
    constructor
    · rintro (h | h)
      exacts [⟨hv, _, .inl rfl, h⟩, ⟨hv, _, .inr rfl, h⟩]
    · rintro ⟨-, o, rfl | rfl, h⟩
      exacts [.inl h, .inr h]
  · next hv => simp [hv]

theorem mem_communityRestoreWrites : .write a v ∈ communityRestoreWrites s x ↔
    (commCtx s x.1).valid = true ∧ (.write a v ∈ kindWrites x.2 x.2.hostOwnerOffset (commCtx s x.1).hostown ∨
      .write a v ∈ kindWrites x.2 x.2.interruptEnableOffset (commCtx s x.1).ie) := by
  unfold communityRestoreWrites
  split
  · next hv => simp [hv]
  · next hv => simp [hv]

theorem mem_pinRestoreRegs : a ∈ pinRestoreRegs s p ↔
    ∃ loc, resolve s.table p = some loc ∧ (pinCtx s p).valid = true ∧ ∃ k ≤ 2, padcfgReg s.params loc.com p k = a := by
  unfold pinRestoreRegs
  cases hr : resolve s.table p with
  | none => simp
  | some loc =>
    dsimp only
    split
    · next hv => simp [hv, mem_pinRegs]
    · next hv => simp [hv]

theorem mem_pinRestoreWrites (h : .write a v ∈ pinRestoreWrites s p) :
    ∃ loc, resolve s.table p = some loc ∧ (pinCtx s p).valid = true ∧
      (a = padcfgReg s.params loc.com p 0 ∧ v = (pinCtx s p).padcfg0 ∨
        a = padcfgReg s.params loc.com p 1 ∧ v = (pinCtx s p).padcfg1 ∨
        a = padcfgReg s.params loc.com p 2 ∧ v = (pinCtx s p).padcfg2) := by
  unfold pinRestoreWrites at h
  cases hr : resolve s.table p with
  | none => simp [hr] at h
  | some loc =>
    rw [hr] at h
    by_cases hv : (pinCtx s p).valid = true
    · exact ⟨loc, rfl, hv, by simpa [hv] using h⟩
    · simp [hv] at h

theorem mem_commRegs_of_written {o : Nat} (P : Params) {G : PadGroup}
    (ho : o = C.hostOwnerOffset ∨ o = C.interruptEnableOffset) (h0 : o ≠ 0) (hG : G ∈ groupsOf C) : groupReg C G o ∈ commRegs P C := by
  refine groupReg_mem_commRegs P hG ?_ h0
  rcases ho with rfl | rfl <;> simp [scopedOffsets]

/-! ## Loops of writes -/

/-- Rounds that write registers apart from each other: each round's words stand at the end, where its writes are plain. -/
theorem forEach_wrote {α : Type} {f : α → State → Out} {regs : α → List Nat} {steps : α → List MicroStep} {plain : α → Prop}
    {xs : List α}
    (hf : ∀ x ∈ xs, ∀ as ms u, (∀ a ∈ as, ∃ y ∈ xs, a ∈ regs y) → wrote as ms s u →
      ∃ t, f x u = .next t ∧ wrote (regs x) (steps x) u t ∧
        (plain x → ∀ a v, .write a v ∈ steps x → t.mem.readWord a = v))
    (hal : ∀ x ∈ xs, ∀ a ∈ regs x, a % 4 = 0)
    (hsteps : ∀ x ∈ xs, ∀ a v, .write a v ∈ steps x → a ∈ regs x)
    (hapart : xs.Pairwise fun x y => ∀ a ∈ regs x, a ∉ regs y) :
    ∃ t, forEach xs f s = .next t ∧ wrote (xs.flatMap regs) (xs.flatMap steps) s t ∧
      ∀ x ∈ xs, plain x → ∀ a v, .write a v ∈ steps x → t.mem.readWord a = v := by
  induction xs generalizing s with
  | nil => exact ⟨s, rfl, wrote_nil s, by simp⟩
  | cons x rest ih =>
    obtain ⟨u, hrun, hwrote, hwords⟩ := hf x (List.mem_cons_self ..) [] [] s (by simp) (wrote_nil s)
    obtain ⟨hx, hrest⟩ := List.pairwise_cons.1 hapart
    obtain ⟨t, hrun', hwrote', hwords'⟩ := ih (s := u)
      (fun y hy as ms u' has hw => hf y (List.mem_cons_of_mem _ hy) _ _ u' (fun a ha => by
        rcases List.mem_append.1 ha with ha | ha
        · exact ⟨x, List.mem_cons_self .., ha⟩
        · obtain ⟨z, hz, ha⟩ := has a ha
          exact ⟨z, List.mem_cons_of_mem _ hz, ha⟩) (wrote_append hwrote hw))
      (fun y hy => hal y (List.mem_cons_of_mem _ hy)) (fun y hy => hsteps y (List.mem_cons_of_mem _ hy)) hrest
    refine ⟨t, by rw [forEach_cons, hrun, thenState_next, hrun'], wrote_append hwrote hwrote', fun y hy hpl a v hav => ?_⟩
    rcases List.mem_cons.1 hy with rfl | hy
    · have ha := hsteps y (List.mem_cons_self ..) a v hav
      rw [wrote_other hwrote' (hal y (List.mem_cons_self ..) a ha) (fun b hb => ?aligned) fun hin => ?apart]
      · exact hwords hpl a v hav
      case aligned =>
        obtain ⟨z, hz, hb⟩ := List.mem_flatMap.1 hb
        exact hal z (List.mem_cons_of_mem _ hz) b hb
      case apart =>
        obtain ⟨z, hz, hb⟩ := List.mem_flatMap.1 hin
        exact hx z hz a ha hb
    · exact hwords' y hy hpl a v hav

theorem pairwise_indexedFrom {α : Type} (n : Nat) (xs : List α) : (indexedFrom n xs).Pairwise fun x y => x.1 < y.1 := by
  induction xs generalizing n with
  | nil => exact .nil
  | cons x rest ih =>
    refine .cons (fun y hy => ?_) (ih _)
    obtain ⟨i, hi, -⟩ := mem_indexedFrom.1 hy
    show n < y.1
    omega

/-! ## The communities -/

/-- The premises of a resume: an accepted configuration, registers apart, and no agent step to come. -/
structure Settled (s : State) : Prop where
  params : paramsWf s.params = true
  table : tableWf s.params s.table = true
  layout : layoutDistinct s.params s.table
  quiet : Quiet s

theorem Settled.of_wrote {as : List Nat} {ms : List MicroStep} (h : Settled s) (hw : wrote as ms s t) : Settled t := by
  obtain ⟨hp, ht, hd, hq⟩ := h
  refine ⟨?_, ?_, ?_, wrote_quiet hw hq⟩ <;> rw [wrote_params hw]
  · exact hp
  · rwa [wrote_table hw]
  · rwa [wrote_table hw]

theorem communityRestoreRegs_aligned (h : Settled s) (hC : x.2 ∈ s.table.communities)
    (ha : a ∈ communityRestoreRegs s x) : a % 4 = 0 := by
  obtain ⟨-, o, ho, h0, G, hG, rfl⟩ := mem_communityRestoreRegs.1 ha
  refine (groupReg_onBus h.table hC hG ?_ h0).1
  rcases ho with rfl | rfl <;> simp [scopedOffsets]

/-- Every community with a valid snapshot, in order: HOSTSW_OWN and GPI_IE hold the saved words (R187). -/
theorem restoreCommunities_quiet (h : Settled s) :
    ∃ t, forEach (indexedFrom 0 s.table.communities) restoreCommunity s = .next t ∧
      wrote ((indexedFrom 0 s.table.communities).flatMap (communityRestoreRegs s))
        ((indexedFrom 0 s.table.communities).flatMap (communityRestoreWrites s)) s t ∧
      ∀ x ∈ indexedFrom 0 s.table.communities, ∀ a v, .write a v ∈ communityRestoreWrites s x → t.mem.readWord a = v := by
  have hget {y : Nat × Community} (hy : y ∈ indexedFrom 0 s.table.communities) :
      s.table.communities[y.1]? = some y.2 := mem_indexedFrom_zero.1 hy
  have hloop := forEach_wrote (s := s) (f := restoreCommunity) (regs := communityRestoreRegs s)
    (steps := communityRestoreWrites s) (plain := fun _ => True) (xs := indexedFrom 0 s.table.communities)
    ?_ (fun y hy a ha => communityRestoreRegs_aligned h (List.mem_of_getElem? (hget hy)) ha) ?_ ?_
  · simpa using hloop
  · intro ⟨c, C⟩ hx as ms u _ hu
    have hsettled := h.of_wrote hu
    have hctx := wrote_commCtx hu c
    by_cases hv : (commCtx s c).valid = true
    · obtain ⟨t, hrun, hwrote, hhost, hie⟩ := restoreCommunity_quiet hsettled.table hsettled.layout
        (by rw [wrote_table hu]; exact hget hx) (hctx ▸ hv) hsettled.quiet
      rw [hctx] at hwrote hhost hie
      refine ⟨t, hrun, by rwa [communityRestoreRegs, communityRestoreWrites, if_pos hv, if_pos hv], fun _ a v hav => ?_⟩
      obtain ⟨-, hav | hav⟩ := mem_communityRestoreWrites.1 hav <;>
        obtain ⟨h0, g, G, hG, rfl, rfl⟩ := mem_kindWrites.1 hav
      · exact hhost h0 g G hG
      · exact hie h0 g G hG
    · refine ⟨u, by rw [restoreCommunity, hctx, if_neg hv], ?_, fun _ a v hav => ?_⟩
      · rw [communityRestoreRegs, communityRestoreWrites, if_neg hv, if_neg hv]
        exact wrote_nil u
      · exact absurd (mem_communityRestoreWrites.1 hav).1 hv
  · intro y hy a v hav
    obtain ⟨hv, hav⟩ := mem_communityRestoreWrites.1 hav
    rw [mem_communityRestoreRegs]
    rcases hav with hav | hav <;> obtain ⟨h0, g, G, hG, ha, -⟩ := mem_kindWrites.1 hav
    · exact ⟨hv, _, .inl rfl, h0, G, List.mem_of_getElem? hG, ha⟩
    · exact ⟨hv, _, .inr rfl, h0, G, List.mem_of_getElem? hG, ha⟩
  · refine (pairwise_indexedFrom 0 s.table.communities).imp_of_mem fun {x y} hx hy hlt a hax hay => ?_
    obtain ⟨-, o, ho, h0, G, hG, rfl⟩ := mem_communityRestoreRegs.1 hax
    obtain ⟨-, o', ho', h0', G', hG', e⟩ := mem_communityRestoreRegs.1 hay
    have := layout_community h.layout (hget hx) (hget hy) (mem_commRegs_of_written s.params ho h0 hG)
      (e ▸ mem_commRegs_of_written s.params ho' h0' hG')
    omega

/-! ## The pins -/

/-- Writes apart from PADCFG_LOCK leave a pin's lock bit. -/
theorem lockBitSet_wrote {as : List Nat} {ms : List MicroStep} (h : Settled s) (hw : wrote as ms s t)
    (hr : resolve s.table p = some loc) (hal : ∀ a ∈ as, a % 4 = 0)
    (hapart : loc.com.padConfigLockOffset ≠ 0 → lockReg loc ∉ as) : lockBitSet t p = lockBitSet s p := by
  unfold lockBitSet
  rw [wrote_table hw, hr]
  by_cases h0 : loc.com.padConfigLockOffset = 0
  · simp [h0]
  · obtain ⟨-, -, hbus⟩ := guardOnBus_of_resolve h.params h.table hr
    have hkept := wrote_other hw (hbus h0).1 hal (hapart h0)
    simp only [hkept]

theorem pinRestoreRegs_aligned (h : Settled s) (ha : a ∈ pinRestoreRegs s p) : a % 4 = 0 := by
  obtain ⟨loc, hr, -, k, hk, rfl⟩ := mem_pinRestoreRegs.1 ha
  obtain ⟨-, hbegin, hend, -⟩ := resolve_some hr
  exact (padcfgReg_onBus h.params h.table (resolve_com_mem hr) hbegin hend hk).1

/-- A pad group's register is none of the padcfg registers that a resume restores. -/
theorem groupReg_notMem_pinRestoreRegs (h : Settled s) (hc : s.table.communities[c]? = some C) {G : PadGroup}
    (hG : G ∈ groupsOf C) {o : Nat} (ho : o ∈ scopedOffsets C) (h0 : o ≠ 0) : groupReg C G o ∉ pinRestoreRegs s p := by
  intro ha
  obtain ⟨loc, hr, -, k, hk, e⟩ := mem_pinRestoreRegs.1 ha
  exact groupReg_ne_padcfgReg h.layout hc (resolve_some hr).1 hG ho h0 (mem_communityPins_of_resolve hr) hk e.symm

/-- Every pin with a valid snapshot, in order: the padcfg registers of one that is not locked hold the saved words (R188). -/
theorem restorePins_quiet (h : Settled s) :
    ∃ t, forEach (allPins s.table) restorePin s = .next t ∧
      wrote ((allPins s.table).flatMap (pinRestoreRegs s)) ((allPins s.table).flatMap (pinRestoreWrites s)) s t ∧
      ∀ p ∈ allPins s.table, lockBitSet s p = false → ∀ a v, .write a v ∈ pinRestoreWrites s p → t.mem.readWord a = v := by
  refine forEach_wrote (f := restorePin) (regs := pinRestoreRegs s) (steps := pinRestoreWrites s)
    (plain := fun p => lockBitSet s p = false) (fun p hp as ms u has hu => ?_)
    (fun p _ a ha => pinRestoreRegs_aligned h ha) (fun p _ a v hav => ?_)
    ((allPins_pairwise h.table).imp_of_mem fun {p q} _ _ hlt a hap haq => ?_)
  · have hsettled := h.of_wrote hu
    obtain ⟨loc, hr⟩ := (resolve_isSome_iff h.table p).2 hp
    have hr' : resolve u.table p = some loc := by rw [wrote_table hu, hr]
    have hctx := wrote_pinCtx hu p
    by_cases hv : (pinCtx s p).valid = true
    · obtain ⟨t, hrun, hwrote, hheld⟩ := restorePin_quiet hsettled.params hsettled.table hsettled.layout hr' (hctx ▸ hv)
        hsettled.quiet
      rw [hctx, wrote_params hu] at hwrote hheld
      refine ⟨t, hrun, by simpa only [pinRestoreRegs, pinRestoreWrites, hr, if_pos hv] using hwrote, fun hl a v hav => ?_⟩
      have hlock : lockBitSet u p = false := by
        rw [lockBitSet_wrote h hu hr (fun a ha => ?aligned) fun h0 hin => ?apart, hl]
        case aligned =>
          obtain ⟨y, -, ha⟩ := has a ha
          exact pinRestoreRegs_aligned h ha
        case apart =>
          obtain ⟨y, -, ha⟩ := has _ hin
          exact groupReg_notMem_pinRestoreRegs h (resolve_some hr).1 (resolve_grp_mem h.table hr)
            (by simp [scopedOffsets]) h0 ha
      obtain ⟨loc', hr'', -, hav⟩ := mem_pinRestoreWrites hav
      obtain rfl : loc = loc' := Option.some.inj (hr.symm.trans hr'')
      rcases hav with ⟨rfl, rfl⟩ | ⟨rfl, rfl⟩ | ⟨rfl, rfl⟩
      exacts [congrArg PinContext.padcfg0 (hheld hlock), congrArg PinContext.padcfg1 (hheld hlock),
        congrArg PinContext.padcfg2 (hheld hlock)]
    · refine ⟨u, by simp [restorePin, hr', hctx, hv], ?_, fun _ a v hav => ?_⟩
      · simpa only [pinRestoreRegs, pinRestoreWrites, hr, if_neg hv] using wrote_nil u
      · obtain ⟨-, -, hv', -⟩ := mem_pinRestoreWrites hav
        exact absurd hv' hv
  · obtain ⟨loc, hr, hv, hav⟩ := mem_pinRestoreWrites hav
    rw [mem_pinRestoreRegs]
    rcases hav with ⟨ha, -⟩ | ⟨ha, -⟩ | ⟨ha, -⟩
    exacts [⟨loc, hr, hv, 0, by omega, ha.symm⟩, ⟨loc, hr, hv, 1, by omega, ha.symm⟩, ⟨loc, hr, hv, 2, by omega, ha.symm⟩]
  · obtain ⟨loc, hr, -, k, hk, rfl⟩ := mem_pinRestoreRegs.1 hap
    obtain ⟨loc', hr', -, k', hk', e⟩ := mem_pinRestoreRegs.1 haq
    have := (padcfgReg_inj h.layout (resolve_some hr).1 (resolve_some hr').1 (mem_communityPins_of_resolve hr)
      (mem_communityPins_of_resolve hr') hk hk' e.symm).2.1
    omega

/-! ## The whole restore -/

/-- The registers between the restore and the re-validation: told from the state before the resume (R186 to R188). -/
structure Restored (s w : State) : Prop where
  wrote : wrote (restoreRegs s) (restoreWrites s) (poweredUp s) w
  hostown : ∀ c C g G, s.table.communities[c]? = some C → (commCtx s c).valid = true → C.hostOwnerOffset ≠ 0 →
    (groupsOf C)[g]? = some G → w.mem.readWord (groupReg C G C.hostOwnerOffset) = (commCtx s c).hostown.getD g 0
  enable : ∀ c C g G, s.table.communities[c]? = some C → C.interruptEnableOffset ≠ 0 → (groupsOf C)[g]? = some G →
    w.mem.readWord (groupReg C G C.interruptEnableOffset) = restoredEnable s c C g G
  padcfg : ∀ p loc, resolve s.table p = some loc → (pinCtx s p).valid = true → lockBitSet s p = false →
    heldPadcfgs s.params loc p w.mem = pinCtx s p

theorem restoreRegs_aligned (h : Settled s) (ha : a ∈ restoreRegs s) : a % 4 = 0 := by
  rcases List.mem_append.1 ha with ha | ha
  · obtain ⟨x, hx, ha⟩ := List.mem_flatMap.1 ha
    exact communityRestoreRegs_aligned h (List.mem_of_getElem? (mem_indexedFrom_zero.1 hx)) ha
  · obtain ⟨p, -, ha⟩ := List.mem_flatMap.1 ha
    exact pinRestoreRegs_aligned h ha

/-- The GPI_IE register of a community without a valid snapshot is not restored. -/
theorem enable_notMem_restoreRegs (h : Settled s) (hc : s.table.communities[c]? = some C)
    (hv : ¬ (commCtx s c).valid = true) {G : PadGroup} (hG : G ∈ groupsOf C) (h0 : C.interruptEnableOffset ≠ 0) :
    groupReg C G C.interruptEnableOffset ∉ restoreRegs s := by
  intro ha
  rcases List.mem_append.1 ha with ha | ha
  · obtain ⟨⟨c', C'⟩, hx, ha⟩ := List.mem_flatMap.1 ha
    obtain ⟨hv', o, ho, ho0, G', hG', e⟩ := mem_communityRestoreRegs.1 ha
    obtain rfl : c = c' := layout_community h.layout hc (mem_indexedFrom_zero.1 hx)
      (mem_commRegs_of_written s.params (.inr rfl) h0 hG) (e ▸ mem_commRegs_of_written s.params ho ho0 hG')
    exact hv hv'
  · obtain ⟨p, -, ha⟩ := List.mem_flatMap.1 ha
    exact groupReg_notMem_pinRestoreRegs h hc hG (by simp [scopedOffsets]) h0 ha

/-- PADCFG_LOCK of a pin is no register that a resume writes. -/
theorem lockReg_ne_written (h : Settled s) (hr : resolve s.table p = some loc) (h0 : loc.com.padConfigLockOffset ≠ 0)
    (hc : s.table.communities[c]? = some C) {G : PadGroup} (hG : G ∈ groupsOf C) {o : Nat}
    (ho : o = C.hostOwnerOffset ∨ o = C.interruptEnableOffset) (ho0 : o ≠ 0) : groupReg C G o ≠ lockReg loc := by
  intro e
  have hcom := (resolve_some hr).1
  obtain ⟨g, hg⟩ := List.getElem?_of_mem hG
  obtain ⟨rfl, -, hoff⟩ := groupReg_inj h.layout hc hcom hg (resolve_group h.table hr).1
    (by rcases ho with rfl | rfl <;> simp [scopedOffsets]) (by simp [scopedOffsets]) ho0 h0 e
  obtain rfl : C = loc.com := Option.some.inj (hc.symm.trans hcom)
  obtain ⟨hhost, hie⟩ := lock_ne_written h.layout (resolve_com_mem hr) hG
  rcases ho with rfl | rfl
  · exact hhost ho0 hoff.symm
  · exact hie ho0 hoff.symm

/-- The restore of the communities leaves every pin's lock bit. -/
theorem lockBitSet_restoreCommunities {ms : List MicroStep} (h : Settled s)
    (hw : wrote ((indexedFrom 0 s.table.communities).flatMap (communityRestoreRegs s)) ms s t)
    (hr : resolve s.table p = some loc) : lockBitSet t p = lockBitSet s p := by
  refine lockBitSet_wrote h hw hr (fun b hb => restoreRegs_aligned h (List.mem_append_left _ hb)) fun h0 hin => ?_
  obtain ⟨x, hx, hin⟩ := List.mem_flatMap.1 hin
  obtain ⟨-, o, ho, ho0, G, hG, e⟩ := mem_communityRestoreRegs.1 hin
  exact lockReg_ne_written h hr h0 (mem_indexedFrom_zero.1 hx) hG ho ho0 e

/-- The restore of the pins leaves every pad group's register. -/
theorem groupReg_restorePins {ms : List MicroStep} (h : Settled s)
    (hw : wrote ((allPins s.table).flatMap (pinRestoreRegs s)) ms t w) (hc : s.table.communities[c]? = some C)
    {G : PadGroup} (hG : G ∈ groupsOf C) {o : Nat} (ho : o ∈ scopedOffsets C) (h0 : o ≠ 0) :
    w.mem.readWord (groupReg C G o) = t.mem.readWord (groupReg C G o) := by
  refine wrote_other hw (groupReg_onBus h.table (List.mem_of_getElem? hc) hG ho h0).1
    (fun b hb => restoreRegs_aligned h (List.mem_append_right _ hb)) fun hin => ?_
  obtain ⟨p, -, hin⟩ := List.mem_flatMap.1 hin
  exact groupReg_notMem_pinRestoreRegs h hc hG ho h0 hin

/-- The restore of the pins after bus writes, told from the state before those. -/
theorem restorePins_wrote {as : List Nat} {ms : List MicroStep} (h : Settled s) (hw : wrote as ms s t) :
    ∃ w, forEach (allPins s.table) restorePin t = .next w ∧
      wrote ((allPins s.table).flatMap (pinRestoreRegs s)) ((allPins s.table).flatMap (pinRestoreWrites s)) t w ∧
      ∀ p ∈ allPins s.table, lockBitSet t p = false → ∀ a v, .write a v ∈ pinRestoreWrites s p → w.mem.readWord a = v := by
  have hregs : pinRestoreRegs t = pinRestoreRegs s := by
    funext p; simp only [pinRestoreRegs, wrote_table hw, wrote_params hw, wrote_pinCtx hw]
  have hsteps : pinRestoreWrites t = pinRestoreWrites s := by
    funext p; simp only [pinRestoreWrites, wrote_table hw, wrote_params hw, wrote_pinCtx hw]
  simpa only [hregs, hsteps, wrote_table hw] using restorePins_quiet (h.of_wrote hw)

/-- The restore runs to its end, over the communities and then over the pins (R186). -/
theorem restore_quiet (h : Settled s) :
    ∃ t w, forEach (indexedFrom 0 s.table.communities) restoreCommunity (poweredUp s) = .next t ∧ t.table = s.table ∧
      forEach (allPins s.table) restorePin t = .next w ∧ Restored s w := by
  have h' : Settled (poweredUp s) := ⟨h.params, h.table, h.layout, h.quiet⟩
  obtain ⟨t, hrun, hwrote, hcomm⟩ := restoreCommunities_quiet h'
  obtain ⟨w, hrun', hwrote', hpins⟩ := restorePins_wrote h' hwrote
  refine ⟨t, w, hrun, wrote_table (s := poweredUp s) hwrote, hrun', wrote_append hwrote hwrote',
    fun c C g G hc hv h0 hG => ?hostown, fun c C g G hc h0 hG => ?enable, fun p loc hr hv hl => ?padcfg⟩
  case hostown =>
    rw [groupReg_restorePins h hwrote' hc (List.mem_of_getElem? hG) (by simp [scopedOffsets]) h0]
    exact hcomm (c, C) (mem_indexedFrom_zero.2 hc) _ _
      (mem_communityRestoreWrites.2 ⟨hv, .inl (mem_kindWrites.2 ⟨h0, g, G, hG, rfl, rfl⟩)⟩)
  case enable =>
    have hin := List.mem_of_getElem? hG
    have hscoped : C.interruptEnableOffset ∈ scopedOffsets C := by simp [scopedOffsets]
    by_cases hv : (commCtx s c).valid = true
    · rw [groupReg_restorePins h hwrote' hc hin hscoped h0, restoredEnable, if_pos hv]
      exact hcomm (c, C) (mem_indexedFrom_zero.2 hc) _ _
        (mem_communityRestoreWrites.2 ⟨hv, .inr (mem_kindWrites.2 ⟨h0, g, G, hG, rfl, rfl⟩)⟩)
    · rw [restoredEnable, if_neg hv]
      exact wrote_other (wrote_append hwrote hwrote')
        (groupReg_onBus h.table (List.mem_of_getElem? hc) hin hscoped h0).1 (fun b hb => restoreRegs_aligned h hb)
        (enable_notMem_restoreRegs h hc hv hin h0)
  case padcfg =>
    have hlock : lockBitSet t p = false := (lockBitSet_restoreCommunities h' hwrote hr).trans hl
    have hword (k : Nat) (v : Word) (hw : .write (padcfgReg s.params loc.com p k) v ∈ pinRestoreWrites s p) :=
      hpins p (resolve_mem_allPins hr) hlock _ v hw
    rw [heldPadcfgs, hword 0 (pinCtx s p).padcfg0 (by simp [pinRestoreWrites, hr, hv]),
      hword 1 (pinCtx s p).padcfg1 (by simp [pinRestoreWrites, hr, hv]),
      hword 2 (pinCtx s p).padcfg2 (by simp [pinRestoreWrites, hr, hv]), ← hv]

end

end Sys2Proof.Machine
end

section
/-! PROOFS. The re-validation of a resume (spec/44_power_context.md R186, R189): with no agent step to come and no two
registers at one address, the pins are re-validated in ascending order, each in the registers that the restore left.

A pad group's GPI_IE register is written once for each of its re-armed pins, so what a pin reads there depends on the pins
before it. `Revalidated` says what stands after the pins `done`; guards read no register that a re-validation writes, so they may be
told from the registers at any point of it (`SameGuards`). -/

namespace Sys2Proof.Machine

/-! ## The pins of a pad group -/

section
variable {P : Params} {T : Table} {c g i : Nat} {C : Community} {G : PadGroup}

theorem groupsChain_le {gs : List PadGroup} {a stop : Nat} (hc : groupsChain gs a stop = true) : a ≤ stop := by
  induction gs generalizing a with
  | nil => exact (beq_iff_eq.1 hc).le
  | cons H rest ih =>
    simp only [groupsChain, Bool.and_eq_true, beq_iff_eq] at hc
    have := ih hc.2
    omega

/-- A pad group of a chain lies in the chain's range, and its pins are found in it. -/
theorem findGroup_chain {gs : List PadGroup} {a stop : Nat} (n : Nat) (hc : groupsChain gs a stop = true)
    (hg : gs[g]? = some G) (hi : i < G.size) :
    a ≤ G.basePin ∧ G.basePin + G.size ≤ stop ∧ findGroup gs n (G.basePin + i) = some (n + g, G) := by
  induction gs generalizing a n g with
  | nil => simp at hg
  | cons H rest ih =>
    simp only [groupsChain, Bool.and_eq_true, beq_iff_eq] at hc
    obtain ⟨hbase, hrest⟩ := hc
    unfold findGroup
    cases g with
    | zero =>
      obtain rfl : H = G := by simpa using hg
      exact ⟨hbase.ge, groupsChain_le hrest, if_pos ⟨by omega, by omega⟩⟩
    | succ g =>
      obtain ⟨hbegin, hend, hfind⟩ := ih (n + 1) hrest (by simpa using hg)
      exact ⟨by omega, hend, by rw [if_neg (by omega), hfind, Nat.add_assoc, Nat.add_comm 1 g]⟩

/-- The pins of a community's pad group are its own, and `resolveIn` finds them in that group. -/
theorem resolveIn_groupPin (hw : tableWf P T = true) (hC : C ∈ T.communities) (hg : (groupsOf C)[g]? = some G)
    (hi : i < G.size) (c : Nat) :
    C.pinBase ≤ G.basePin + i ∧ G.basePin + i < C.pinBase + C.pinsTotal ∧
      resolveIn C c (G.basePin + i) = some ⟨c, g, C, G⟩ := by
  obtain ⟨-, hlisted, hsize, -⟩ := tableWf_community hw hC
  unfold groupsOf at hg
  unfold resolveIn
  cases hgs : C.padGroups with
  | some gs =>
    rw [hgs] at hg
    obtain ⟨-, -, hchain, -⟩ := hlisted gs hgs
    obtain ⟨hbegin, hend, hfind⟩ := findGroup_chain 0 hchain hg hi
    rw [pinEnd] at hend
    exact ⟨by omega, by omega, by simp [hfind]⟩
  | none =>
    obtain ⟨hpos, -⟩ := hsize hgs
    rw [hgs] at hg
    simp only [List.getElem?_map, Option.map_eq_some_iff] at hg
    obtain ⟨k, hk, rfl⟩ := hg
    obtain ⟨hlt, hget⟩ := List.getElem?_eq_some_iff.1 hk
    obtain rfl : g = k := (List.getElem_range hlt).symm.trans hget
    simp only [implicitGroup] at hi ⊢
    have hdiv : (C.pinBase + g * C.defaultPadGroupSize + i - C.pinBase) / C.defaultPadGroupSize = g := by
      rw [Nat.add_assoc, Nat.add_sub_cancel_left, Nat.mul_comm, Nat.mul_add_div hpos,
        Nat.div_eq_of_lt (by omega), Nat.add_zero]
    exact ⟨by omega, by omega, by rw [hdiv]⟩

/-- A pad group's pins resolve to it (R111). -/
theorem resolve_groupPin (hw : tableWf P T = true) (hc : T.communities[c]? = some C) (hg : (groupsOf C)[g]? = some G)
    (hi : i < G.size) : resolve T (G.basePin + i) = some ⟨c, g, C, G⟩ := by
  have hC := List.mem_of_getElem? hc
  obtain ⟨hbegin, hend, hplace⟩ := resolveIn_groupPin hw hC hg hi c
  obtain ⟨loc, hr⟩ := (resolve_isSome_iff hw _).2 (mem_allPins.2 ⟨C, hC, hbegin, hend⟩)
  obtain ⟨hcom, hbegin', hend', hplace'⟩ := resolve_some hr
  have hcc : loc.c = c :=
    (community_index_le hw hcom hc hbegin' hend).antisymm (community_index_le hw hc hcom hbegin hend')
  obtain rfl : loc.com = C := by rw [hcc, hc] at hcom; exact (Option.some.inj hcom).symm
  rw [hr, ← hplace, ← hcc, hplace']

end

/-! ## One pin -/

/-- The advisories of one pin's re-validation (R189). -/
def pinAdvisories (s : State) (m : Memory) (p : Nat) : List Event :=
  match resolve s.table p with
  | none => []
  | some loc =>
    if (irqOf s p).state = .unmasked ∧ rearms s m p = false ∨
        (irqOf s p).state = .masked ∧ mayMutate s.params loc p m = false then
      [.advisory (irqOf s p).owner p]
    else []

/-- The accesses of the re-validation of a pin whose GPI_IE register shows `v` (R189). -/
def pinAccesses (s : State) (m : Memory) (loc : Loc) (p : Nat) (v : Word) : List MicroStep :=
  if (irqOf s p).state = .unregistered ∨ (irqOf s p).state = .unmasked ∧ loc.com.interruptEnableOffset = 0 then []
  else
    guardReads s.params loc p m ++
      if rearms s m p then
        [.read (enableReg loc) v, .write (enableReg loc) (v ||| 1#32 <<< (p - loc.grp.basePin))]
      else []

theorem resumeAdvisories_eq (s : State) (m : Memory) :
    resumeAdvisories s m = (allPins s.table).flatMap (pinAdvisories s m) := rfl

section
variable {s t u w : State} {m m' : Memory} {p : Nat} {loc : Loc} {v : Word}

theorem revalidateSteps_of_resolve (hr : resolve s.table p = some loc) (m : Memory) : revalidateSteps s m p =
    pinAccesses s m loc p
      (restoredEnable s loc.c loc.com loc.g loc.grp ||| rearmBits s m loc.grp (p - loc.grp.basePin)) := by
  unfold revalidateSteps pinAccesses
  rw [hr]

theorem pinAdvisories_of_resolve (hr : resolve s.table p = some loc) (m : Memory) : pinAdvisories s m p =
    if (irqOf s p).state = .unmasked ∧ rearms s m p = false ∨
        (irqOf s p).state = .masked ∧ mayMutate s.params loc p m = false then
      [.advisory (irqOf s p).owner p]
    else [] := by
  rw [pinAdvisories, hr]

theorem rearms_of_resolve (hr : resolve s.table p = some loc) (m : Memory) : rearms s m p =
    ((irqOf s p).state == .unmasked && loc.com.interruptEnableOffset != 0 && mayMutate s.params loc p m) := by
  rw [rearms, hr]

/-- A re-armed pin is unmasked, its community has GPI_IE, and its guard passes (R189). -/
theorem rearms_iff (hr : resolve s.table p = some loc) : rearms s m p = true ↔
    (irqOf s p).state = .unmasked ∧ loc.com.interruptEnableOffset ≠ 0 ∧ mayMutate s.params loc p m = true := by
  simp [rearms_of_resolve hr, and_assoc]

theorem pinAccesses_absent (h0 : loc.com.interruptEnableOffset = 0) (hr : resolve s.table p = some loc) (v v' : Word) :
    pinAccesses s m loc p v = pinAccesses s m loc p v' := by
  have hno : rearms s m p = false := Bool.eq_false_iff.2 fun h => (rearms_iff hr).1 h |>.2.1 h0
  simp [pinAccesses, hno]

/-- What the re-validation of one pin does with no agent step to come, told from the state it meets (R189). -/
theorem revalidatePin_quiet (hr : resolve s.table p = some loc) (hq : Quiet s) (hguard : guardOnBus s.params loc p)
    (hact : isActive s loc.c = true) (hbus : loc.com.interruptEnableOffset ≠ 0 → onBus (enableReg loc)) :
    ∃ t, revalidatePin p s = .next t ∧
      t = { s with mem := t.mem, draws := t.draws, irq := t.irq, events := s.events ++ pinAdvisories s s.mem p,
                   trace := s.trace ++ pinAccesses s s.mem loc p (s.mem.readWord (enableReg loc)) } ∧
      (∀ q, irqOf t q = if q = p ∧ (irqOf s p).state = .unmasked ∧ rearms s s.mem p = false then
        { irqOf s p with state := .masked } else irqOf s q) ∧
      (rearms s s.mem p = true → plainReg s (enableReg loc) → t.mem.readWord (enableReg loc) =
        s.mem.readWord (enableReg loc) ||| 1#32 <<< (p - loc.grp.basePin)) ∧
      ∀ q, (rearms s s.mem p = true → q < enableReg loc ∨ enableReg loc + 4 ≤ q) →
        t.mem.readByte q = s.mem.readByte q := by
  obtain ⟨hpass, hrefused, hmasked⟩ := revalidateRearmsOrTells s p loc hq hguard hact hbus
  have hrun (hreg : (irqOf s p).state ≠ .unregistered) : revalidatePin p s = revalidate loc p s := by
    rw [revalidatePin, if_neg hreg, hr]
  rw [pinAdvisories_of_resolve hr]
  cases hst : (irqOf s p).state with
  | unregistered =>
    have hno : rearms s s.mem p = false := Bool.eq_false_iff.2 fun h => by simp [rearms_iff hr, hst] at h
    exact ⟨s, by rw [revalidatePin, if_pos hst], by simp [pinAccesses, hst], by simp, by simp [hno], fun _ _ => rfl⟩
  | masked =>
    have hno : rearms s s.mem p = false := Bool.eq_false_iff.2 fun h => by simp [rearms_iff hr, hst] at h
    refine ⟨_, (hrun (by simp [hst])).trans (hmasked hst), ?_, fun q => (if_neg (by simp)).symm, by simp [hno],
      fun _ _ => rfl⟩
    cases hm : mayMutate s.params loc p s.mem <;> simp [pinAccesses, hst, hno]
  | unmasked =>
    cases hre : rearms s s.mem p with
    | true =>
      obtain ⟨-, h0, hm⟩ := (rearms_iff hr).1 hre
      obtain ⟨t, ht, hshape, hword, hframe⟩ := hpass hst h0 hm
      refine ⟨t, (hrun (by simp [hst])).trans ht, ?_, ?_, fun _ => hword, fun q hout => hframe q (hout rfl)⟩
      · rw [hshape]
        simp [pinAccesses, hst, h0, hre]
      · intro q
        rw [hshape]
        exact (if_neg (by simp)).symm
    | false =>
      have hno : loc.com.interruptEnableOffset = 0 ∨ mayMutate s.params loc p s.mem = false := by
        by_contra! hyes
        have := (rearms_iff (m := s.mem) hr).2 ⟨hst, hyes.1, by simpa using hyes.2⟩
        simp [hre] at this
      obtain ⟨t, ht, hshape, hirq⟩ := hrefused hst hno
      refine ⟨t, (hrun (by simp [hst])).trans ht, ?_, by simpa using hirq, by simp, fun q _ => ?_⟩
      · rw [hshape]
        simp [pinAccesses, hst, hre]
      · rw [hshape]

end

section
variable {s t u w : State} {m m' : Memory} {p : Nat} {loc : Loc} {v : Word} {done rest : List Nat}

/-! ## What a guard sees -/

/-- Every pin's guard reads the same in both register spaces. -/
def SameGuards (s : State) (m m' : Memory) : Prop :=
  ∀ p loc, resolve s.table p = some loc →
    mayMutate s.params loc p m = mayMutate s.params loc p m' ∧ guardReads s.params loc p m = guardReads s.params loc p m'

theorem SameGuards.refl (s : State) (m : Memory) : SameGuards s m m := fun _ _ _ => ⟨rfl, rfl⟩

theorem SameGuards.symm (h : SameGuards s m m') : SameGuards s m' m :=
  fun p loc hr => ⟨(h p loc hr).1.symm, (h p loc hr).2.symm⟩

theorem SameGuards.trans {m'' : Memory} (h : SameGuards s m m') (h' : SameGuards s m' m'') : SameGuards s m m'' :=
  fun p loc hr => ⟨(h p loc hr).1.trans (h' p loc hr).1, (h p loc hr).2.trans (h' p loc hr).2⟩

/-- The guard reads HOSTSW_OWN, padcfg0 and PADCFG_LOCK of its pin alone (R126). -/
theorem guard_congr {P : Params} (hhost : loc.com.hostOwnerOffset ≠ 0 → m.readWord (hostReg loc) = m'.readWord (hostReg loc))
    (hpad : m.readWord (padcfgReg P loc.com p 0) = m'.readWord (padcfgReg P loc.com p 0))
    (hlock : loc.com.padConfigLockOffset ≠ 0 → m.readWord (lockReg loc) = m'.readWord (lockReg loc)) :
    mayMutate P loc p m = mayMutate P loc p m' ∧ guardReads P loc p m = guardReads P loc p m' := by
  have hostOwned_eq : hostOwned loc p m = hostOwned loc p m' := by
    by_cases h0 : loc.com.hostOwnerOffset = 0
    · simp [hostOwned, h0]
    · simp only [hostOwned, hhost h0]
  have hostReads_eq : hostReads loc m = hostReads loc m' := by
    by_cases h0 : loc.com.hostOwnerOffset = 0
    · simp [hostReads, h0]
    · simp only [hostReads, readOf, hhost h0]
  have lockHeld_eq : lockHeld loc p m = lockHeld loc p m' := by
    by_cases h0 : loc.com.padConfigLockOffset = 0
    · simp [lockHeld, h0]
    · simp only [lockHeld, hlock h0]
  have lockReads_eq : lockReads loc m = lockReads loc m' := by
    by_cases h0 : loc.com.padConfigLockOffset = 0
    · simp [lockReads, h0]
    · simp only [lockReads, readOf, hlock h0]
  have acpi_eq : inAcpiMode P loc p m = inAcpiMode P loc p m' := by simp only [inAcpiMode, hpad]
  simp only [mayMutate, guardReads, readOf, hostOwned_eq, hostReads_eq, lockHeld_eq, lockReads_eq, acpi_eq, hpad, and_self]

theorem enableReg_onBus (h : Settled s) (hr : resolve s.table p = some loc) (h0 : loc.com.interruptEnableOffset ≠ 0) :
    onBus (enableReg loc) :=
  groupReg_onBus h.table (resolve_com_mem hr) (resolve_grp_mem h.table hr) (by simp [scopedOffsets]) h0

/-- `a` is the GPI_IE register of a pin among `ps` that is re-armed (R189). -/
def RearmedReg (s : State) (m : Memory) (ps : List Nat) (a : Nat) : Prop :=
  ∃ p ∈ ps, ∃ loc, resolve s.table p = some loc ∧ rearms s m p = true ∧ enableReg loc = a

/-- A register apart from those re-armed keeps its word. -/
theorem readWord_of_rearmedReg (h : Settled s)
    (hframe : ∀ q, (∀ a, RearmedReg s m done a → q < a ∨ a + 4 ≤ q) → u.mem.readByte q = w.mem.readByte q) {a : Nat}
    (ha : a % 4 = 0) (hn : ¬ RearmedReg s m done a) : u.mem.readWord a = w.mem.readWord a := by
  refine readWord_congr _ _ _ fun q _ _ => hframe q fun b hb => ?_
  have hne : b ≠ a := fun e => hn (e ▸ hb)
  obtain ⟨p, -, loc, hr, hre, rfl⟩ := hb
  have := (enableReg_onBus h hr ((rearms_iff hr).1 hre).2.1).1
  omega

/-- A re-armed register is the GPI_IE register of a pad group, and no other. -/
theorem rearmedReg_groupReg (h : Settled s) {c : Nat} {C : Community} {G : PadGroup} {o : Nat}
    (hc : s.table.communities[c]? = some C) (hG : G ∈ groupsOf C) (ho : o ∈ scopedOffsets C) (h0 : o ≠ 0)
    (hin : RearmedReg s m done (groupReg C G o)) : o = C.interruptEnableOffset := by
  obtain ⟨p, -, loc, hr, hre, e⟩ := hin
  have hcom := (resolve_some hr).1
  obtain ⟨g, hg⟩ := List.getElem?_of_mem hG
  obtain ⟨rfl, -, hoff⟩ := groupReg_inj h.layout hc hcom hg (resolve_group h.table hr).1 ho (by simp [scopedOffsets]) h0
    ((rearms_iff hr).1 hre).2.1 e.symm
  obtain rfl : C = loc.com := Option.some.inj (hc.symm.trans hcom)
  exact hoff

theorem rearmedReg_padcfgReg (h : Settled s) (hr : resolve s.table p = some loc) {k : Nat} (hk : k ≤ 2) :
    ¬ RearmedReg s m done (padcfgReg s.params loc.com p k) := by
  rintro ⟨p', -, loc', hr', hre, e⟩
  exact groupReg_ne_padcfgReg h.layout (resolve_some hr').1 (resolve_some hr).1 (resolve_grp_mem h.table hr')
    (by simp [scopedOffsets]) ((rearms_iff hr').1 hre).2.1 (mem_communityPins_of_resolve hr) hk e

/-- Re-arming leaves what every guard reads. -/
theorem sameGuards_of_frame (h : Settled s)
    (hframe : ∀ q, (∀ a, RearmedReg s m done a → q < a ∨ a + 4 ≤ q) → u.mem.readByte q = w.mem.readByte q) :
    SameGuards s u.mem w.mem := by
  intro p loc hr
  obtain ⟨hhost, hpad, hlock⟩ := guardOnBus_of_resolve h.params h.table hr
  have hcom := (resolve_some hr).1
  have hG := resolve_grp_mem h.table hr
  refine guard_congr (fun h0 => ?_) (readWord_of_rearmedReg h hframe hpad.1 (rearmedReg_padcfgReg h hr (by omega)))
    fun h0 => ?_
  · refine readWord_of_rearmedReg h hframe (hhost h0).1 fun hin => ?_
    have he := rearmedReg_groupReg h hcom hG (by simp [scopedOffsets]) h0 hin
    exact hostOwner_ne_enable h.layout (resolve_com_mem hr) hG (he ▸ h0) he
  · refine readWord_of_rearmedReg h hframe (hlock h0).1 fun hin => ?_
    have he := rearmedReg_groupReg h hcom hG (by simp [scopedOffsets]) h0 hin
    exact (lock_ne_written h.layout (resolve_com_mem hr) hG).2 (he ▸ h0) he

/-! ## The pins in order -/

/-- What stands after the pins `done` are re-validated: told from the state `s` before the resume and the restored state `w`,
with the guards told from `m` (R189). -/
structure Revalidated (s : State) (m : Memory) (w : State) (done : List Nat) (u : State) : Prop where
  shape : u = { w with mem := u.mem, draws := u.draws, irq := u.irq,
                       events := s.events ++ done.flatMap (pinAdvisories s m),
                       trace := w.trace ++ done.flatMap (revalidateSteps s m) }
  records : ∀ q, irqOf u q = if q ∈ done ∧ (irqOf s q).state = .unmasked ∧ rearms s m q = false then
    { irqOf s q with state := .masked } else irqOf s q
  enable : ∀ c C g G, s.table.communities[c]? = some C → C.interruptEnableOffset ≠ 0 → (groupsOf C)[g]? = some G →
    ∀ i < 32, (u.mem.readWord (groupReg C G C.interruptEnableOffset)).getLsbD i =
      ((restoredEnable s c C g G).getLsbD i ||
        (decide (i < G.size ∧ G.basePin + i ∈ done) && rearms s m (G.basePin + i)))
  frame : ∀ q, (∀ a, RearmedReg s m done a → q < a ∨ a + 4 ≤ q) → u.mem.readByte q = w.mem.readByte q

theorem Revalidated.nil (hw : Restored s w) : Revalidated s m w [] w where
  shape := by
    have hevents : w.events = s.events := by rw [hw.wrote.1]; rfl
    simp [← hevents]
  records q := by rw [if_neg (by simp)]; exact wrote_irqOf hw.wrote q
  enable c C g G hc h0 hG i _ := by simp [hw.enable c C g G hc h0 hG]
  frame _ _ := rfl

/-- The pins done are those below the next one. -/
theorem mem_done_iff (hw : tableWf s.params s.table = true) (hsplit : allPins s.table = done ++ p :: rest) {q : Nat} :
    q ∈ done ↔ q ∈ allPins s.table ∧ q < p := by
  have hsorted := allPins_pairwise hw
  rw [hsplit, List.pairwise_append, List.pairwise_cons] at hsorted
  obtain ⟨-, ⟨hrest, -⟩, hdone⟩ := hsorted
  rw [hsplit]
  constructor
  · intro hq
    exact ⟨List.mem_append_left _ hq, hdone q hq p (List.mem_cons_self ..)⟩
  · rintro ⟨hq, hlt⟩
    rcases List.mem_append.1 hq with hq | hq
    · exact hq
    · rcases List.mem_cons.1 hq with rfl | hq
      · omega
      · have := hrest q hq
        omega

/-- What the next pin reads of its GPI_IE register: the restored word with the bits of the re-armed pins below it (R189). -/
theorem Revalidated.enable_next (h : Settled s) (hu : Revalidated s m w done u)
    (hsplit : allPins s.table = done ++ p :: rest) (hr : resolve s.table p = some loc)
    (h0 : loc.com.interruptEnableOffset ≠ 0) : u.mem.readWord (enableReg loc) =
      restoredEnable s loc.c loc.com loc.g loc.grp ||| rearmBits s m loc.grp (p - loc.grp.basePin) := by
  obtain ⟨hg, hbegin, hend⟩ := resolve_group h.table hr
  have hcom := (resolve_some hr).1
  refine BitVec.eq_of_getLsbD_eq fun i hi => ?_
  rw [hu.enable _ _ _ _ hcom h0 hg i hi, BitVec.getLsbD_or, getLsbD_rearmBits _ _ _ _ _ hi]
  congr 2
  rw [decide_eq_decide, mem_done_iff h.table hsplit]
  constructor
  · rintro ⟨-, -, hlt⟩; omega
  · intro hlt
    have hsize : i < loc.grp.size := by omega
    exact ⟨hsize, resolve_mem_allPins (resolve_groupPin h.table hcom hg hsize), by omega⟩

/-- Told from a state with the same configuration, records and guards, a pin's re-validation is the same. -/
theorem revalidation_congr (hp : u.params = s.params) (ht : u.table = s.table) (hirq : irqOf u p = irqOf s p)
    (hg : SameGuards s u.mem m) (hr : resolve s.table p = some loc) :
    rearms u u.mem p = rearms s m p ∧ pinAdvisories u u.mem p = pinAdvisories s m p ∧
      pinAccesses u u.mem loc p v = pinAccesses s m loc p v := by
  obtain ⟨hmay, hreads⟩ := hg p loc hr
  have hre : rearms u u.mem p = rearms s m p := by simp only [rearms, ht, hp, hirq, hr, hmay]
  exact ⟨hre, by simp only [pinAdvisories, ht, hp, hirq, hr, hmay, hre],
    by simp only [pinAccesses, hp, hirq, hreads, hre]⟩

/-- The configuration is the one before the resume, every community is active, and no agent step is to come. -/
theorem Revalidated.settled (h : Settled s) (hw : Restored s w) (hu : Revalidated s m w done u) :
    Settled u ∧ u.params = s.params ∧ u.table = s.table ∧ u.active = s.table.communities.map fun _ => true := by
  have hwrote := hw.wrote
  have hs : Settled w := Settled.of_wrote (s := poweredUp s) ⟨h.params, h.table, h.layout, h.quiet⟩ hwrote
  have hparams : w.params = s.params := wrote_params (s := poweredUp s) hwrote
  have htable : w.table = s.table := wrote_table (s := poweredUp s) hwrote
  have hactive : w.active = s.table.communities.map fun _ => true := by rw [hwrote.1]; rfl
  rw [hu.shape]
  exact ⟨⟨hs.params, hs.table, hs.layout, hs.quiet⟩, hparams, htable, hactive⟩

/-- One more pin adds at most its own bit, in its own pad group (R189). -/
theorem armed_append (h : Settled s) (hr : resolve s.table p = some loc) {c g i : Nat} {C : Community} {G : PadGroup}
    (hc : s.table.communities[c]? = some C) (hg : (groupsOf C)[g]? = some G) :
    (decide (i < G.size ∧ G.basePin + i ∈ done ++ [p]) && rearms s m (G.basePin + i)) =
      ((decide (i < G.size ∧ G.basePin + i ∈ done) && rearms s m (G.basePin + i)) ||
        (decide (loc.c = c ∧ loc.g = g ∧ i = p - G.basePin) && rearms s m p)) := by
  have hown : loc.c = c ∧ loc.g = g → G.basePin ≤ p ∧ p < G.basePin + G.size := by
    rintro ⟨rfl, rfl⟩
    obtain rfl : C = loc.com := Option.some.inj (hc.symm.trans (resolve_some hr).1)
    obtain ⟨hg', hrange⟩ := resolve_group h.table hr
    rwa [Option.some.inj (hg.symm.trans hg')]
  by_cases hi : i < G.size
  · by_cases hip : G.basePin + i = p
    · have hplace := resolve_groupPin h.table hc hg hi
      rw [hip, hr] at hplace
      obtain rfl := Option.some.inj hplace
      have hbit : i = p - G.basePin := by omega
      simp [hi, hip, ← hbit]
    · have hno : ¬ (loc.c = c ∧ loc.g = g ∧ i = p - G.basePin) := by
        rintro ⟨h1, h2, h3⟩
        have := hown ⟨h1, h2⟩
        omega
      simp [hi, hip, hno]
  · have hno : ¬ (loc.c = c ∧ loc.g = g ∧ i = p - G.basePin) := by
      rintro ⟨h1, h2, h3⟩
      have := hown ⟨h1, h2⟩
      omega
    simp [hi, hno]

/-- A pad group's GPI_IE after one more pin: the pin's own bit is added if it is re-armed and the pad group is its own. -/
theorem enableBit_revalidated (h : Settled s) (hr : resolve s.table p = some loc)
    (hword : rearms s m p = true → t.mem.readWord (enableReg loc) =
      u.mem.readWord (enableReg loc) ||| 1#32 <<< (p - loc.grp.basePin))
    (hframe : ∀ q, (rearms s m p = true → q < enableReg loc ∨ enableReg loc + 4 ≤ q) →
      t.mem.readByte q = u.mem.readByte q) {c g i : Nat} {C : Community} {G : PadGroup}
    (hc : s.table.communities[c]? = some C) (h0 : C.interruptEnableOffset ≠ 0) (hg : (groupsOf C)[g]? = some G)
    (hi : i < 32) : (t.mem.readWord (groupReg C G C.interruptEnableOffset)).getLsbD i =
      ((u.mem.readWord (groupReg C G C.interruptEnableOffset)).getLsbD i ||
        (decide (loc.c = c ∧ loc.g = g ∧ i = p - G.basePin) && rearms s m p)) := by
  have hcom := (resolve_some hr).1
  have hgrp := (resolve_group h.table hr).1
  by_cases hsame : rearms s m p = true ∧ loc.c = c ∧ loc.g = g
  · obtain ⟨hyes, rfl, rfl⟩ := hsame
    obtain rfl : C = loc.com := Option.some.inj (hc.symm.trans hcom)
    obtain rfl : G = loc.grp := Option.some.inj (hg.symm.trans hgrp)
    have hbit : (1#32 <<< (p - loc.grp.basePin)).getLsbD i = decide (i = p - loc.grp.basePin) := getLsbD_bitMask hi
    rw [hword hyes, BitVec.getLsbD_or, hbit]
    simp [hyes]
  · have hscoped (D : Community) : D.interruptEnableOffset ∈ scopedOffsets D := by simp [scopedOffsets]
    have hkept : t.mem.readWord (groupReg C G C.interruptEnableOffset) =
        u.mem.readWord (groupReg C G C.interruptEnableOffset) := by
      refine readWord_congr _ _ _ fun q _ _ => hframe q fun hyes => ?_
      have h0' := ((rearms_iff hr).1 hyes).2.1
      have hne : groupReg C G C.interruptEnableOffset ≠ enableReg loc := fun e => by
        obtain ⟨hcc, hgg, -⟩ := groupReg_inj h.layout hc hcom hg hgrp (hscoped C) (hscoped loc.com) h0 h0' e
        exact hsame ⟨hyes, hcc.symm, hgg.symm⟩
      have ha := (enableReg_onBus h hr h0').1
      have hb := (groupReg_onBus h.table (List.mem_of_getElem? hc) (List.mem_of_getElem? hg) (hscoped C) h0).1
      omega
    have hno : ¬ ((loc.c = c ∧ loc.g = g ∧ i = p - G.basePin) ∧ rearms s m p = true) :=
      fun ⟨⟨hcc, hgg, _⟩, hyes⟩ => hsame ⟨hyes, hcc, hgg⟩
    rw [hkept, ← Bool.decide_eq_true (b := rearms s m p), ← Bool.decide_and, decide_eq_false hno, Bool.or_false]

/-- The next pin in order (R189). -/
theorem Revalidated.next (h : Settled s) (hw : Restored s w) (hm : SameGuards s w.mem m) (hu : Revalidated s m w done u)
    (hsplit : allPins s.table = done ++ p :: rest) :
    ∃ t, revalidatePin p u = .next t ∧ Revalidated s m w (done ++ [p]) t := by
  obtain ⟨loc, hr⟩ := (resolve_isSome_iff h.table p).2 (hsplit ▸ by simp)
  have hcom := (resolve_some hr).1
  obtain ⟨hsettled, hp, ht, hactive⟩ := hu.settled h hw
  have hact : isActive u loc.c = true := by
    have hlt : loc.c < s.table.communities.length := (List.getElem?_eq_some_iff.1 hcom).1
    rw [isActive, hactive, List.getD_eq_getElem _ _ (by simpa using hlt), List.getElem_map]
  have hnew : p ∉ done := fun hin => lt_irrefl p ((mem_done_iff h.table hsplit).1 hin).2
  have hirq : irqOf u p = irqOf s p := by rw [hu.records, if_neg fun hin => hnew hin.1]
  obtain ⟨hre, hadv, hacc⟩ := revalidation_congr (v := u.mem.readWord (enableReg loc)) hp ht hirq
    ((sameGuards_of_frame h hu.frame).trans hm) hr
  have hsteps : pinAccesses s m loc p (u.mem.readWord (enableReg loc)) = revalidateSteps s m p := by
    rw [revalidateSteps_of_resolve hr]
    by_cases h0 : loc.com.interruptEnableOffset = 0
    · exact pinAccesses_absent h0 hr _ _
    · rw [hu.enable_next h hsplit hr h0]
  have hr' : resolve u.table p = some loc := by rw [ht, hr]
  obtain ⟨t, hrun, hshape, hrecords, hword, hframe⟩ := revalidatePin_quiet hr' hsettled.quiet
    (guardOnBus_of_resolve hsettled.params hsettled.table hr') hact fun h0 => enableReg_onBus h hr h0
  rw [hre] at hrecords hword hframe
  rw [hadv, hacc, hsteps] at hshape
  rw [hirq] at hrecords
  refine ⟨t, hrun, ?shape, fun q => ?records, fun c C g G hc h0 hg i hi => ?enable, fun q hq => ?frame⟩
  case shape =>
    conv_lhs => rw [hshape, hu.shape]
    simp
  case records =>
    rw [hrecords, hu.records]
    by_cases hqp : q = p
    · subst hqp
      simp [hnew]
    · simp [hqp]
  case enable =>
    rw [armed_append h hr hc hg, ← Bool.or_assoc, ← hu.enable c C g G hc h0 hg i hi]
    refine enableBit_revalidated h hr (fun hyes => hword hyes ?_) hframe hc h0 hg hi
    exact plainReg_enableReg hsettled.table hsettled.layout hr' ((rearms_iff hr).1 hyes).2.1
  case frame =>
    rw [hframe q fun hyes => hq _ ⟨p, by simp, loc, hr, hyes, rfl⟩]
    refine hu.frame q fun a ⟨p', hp', ha⟩ => hq a ⟨p', List.mem_append_left _ hp', ha⟩

/-- The pins to come, in order (R189). -/
theorem Revalidated.finish (h : Settled s) (hw : Restored s w) (hm : SameGuards s w.mem m) (hu : Revalidated s m w done u)
    (hsplit : allPins s.table = done ++ rest) :
    ∃ t, forEach rest revalidatePin u = .next t ∧ Revalidated s m w (allPins s.table) t := by
  induction rest generalizing done u with
  | nil => exact ⟨u, rfl, by rwa [hsplit, List.append_nil]⟩
  | cons p rest ih =>
    obtain ⟨u', hrun, hu'⟩ := hu.next h hw hm hsplit
    obtain ⟨t, hrun', ht⟩ := ih hu' (by simpa using hsplit)
    exact ⟨t, by rw [forEach_cons, hrun, thenState_next, hrun'], ht⟩

/-! ## The whole resume -/

/-- A resume with no agent step to come: the restore, then every pin's re-validation, with the guards told from the registers
it leaves, which show them what the restored ones showed (R186, R189). -/
theorem resumeSequence_quiet (h : Settled s) (hs : s.suspended = true) :
    ∃ w u, Restored s w ∧ Revalidated s u.mem w (allPins s.table) u ∧
      resumeSequence s = .next (respond .ok 0 (discardSnapshot u)) := by
  obtain ⟨t, w, hcomms, htable, hpins, hw⟩ := restore_quiet h
  obtain ⟨u, hrun, hu⟩ := (Revalidated.nil (m := w.mem) hw).finish h hw (.refl s w.mem) (rest := allPins s.table) rfl
  obtain ⟨u', hrun', hu'⟩ := (Revalidated.nil (m := u.mem) hw).finish h hw (sameGuards_of_frame h hu.frame).symm
    (rest := allPins s.table) rfl
  obtain rfl : u = u' := Host.Outcome.next.inj (hrun.symm.trans hrun')
  refine ⟨w, u, hw, hu', ?_⟩
  have htable' : w.table = s.table := wrote_table (s := poweredUp s) hw.wrote
  rw [resumeSequence, if_neg (by simp [hs])]
  show thenState (forEach (indexedFrom 0 s.table.communities) restoreCommunity (poweredUp s)) _ = _
  rw [hcomms, thenState_next, htable, hpins, thenState_next, htable', hrun, thenState_next]

/-- What a resume's run leaves, for either of its commands (R186, R191). -/
theorem exec_resume_quiet {i : Instr} (hcmd : i = .resume ∨ i = .setPowerState .working) (hi : s.initialized = true)
    (hs : s.suspended = true) (h : Settled s) (hrun : exec i s = .next t) :
    ∃ w u, Restored s w ∧ Revalidated s t.mem w (allPins s.table) u ∧ t = respond .ok 0 (discardSnapshot u) := by
  obtain ⟨w, u, hw, hu, hseq⟩ := resumeSequence_quiet h hs
  obtain rfl := Host.Outcome.next.inj (hseq.symm.trans ((exec_resume_or_working hcmd hi).symm.trans hrun))
  exact ⟨w, u, hw, hu, rfl⟩

/-- A re-armed register is one that a resume may write. -/
theorem rearmedReg_subset {a : Nat} (hin : RearmedReg s m (allPins s.table) a) : a ∈ resumeWrites s := by
  obtain ⟨p, hp, loc, hr, hre, rfl⟩ := hin
  obtain ⟨hun, h0, -⟩ := (rearms_iff hr).1 hre
  refine List.mem_append_right _ (List.mem_flatMap.2 ⟨p, hp, ?_⟩)
  simp [hr, hun, h0]

/-- A restored register is one that a resume may write. -/
theorem restoreRegs_subset {a : Nat} (hin : a ∈ restoreRegs s) : a ∈ resumeWrites s := by
  rcases List.mem_append.1 hin with hin | hin
  · obtain ⟨x, hx, hin⟩ := List.mem_flatMap.1 hin
    obtain ⟨hv, o, ho, h0, G, hG, rfl⟩ := mem_communityRestoreRegs.1 hin
    refine List.mem_append_left _ (List.mem_flatMap.2 ⟨x, hx, ?_⟩)
    rw [if_pos hv]
    refine List.mem_flatMap.2 ⟨G, hG, ?_⟩
    rcases ho with rfl | rfl <;> simp [h0]
  · obtain ⟨p, hp, hin⟩ := List.mem_flatMap.1 hin
    obtain ⟨loc, hr, hv, k, hk, rfl⟩ := mem_pinRestoreRegs.1 hin
    refine List.mem_append_right _ (List.mem_flatMap.2 ⟨p, hp, ?_⟩)
    simp only [hr, if_pos hv]
    exact List.mem_append_left _ (padcfgReg_mem_pinRegs _ _ _ hk)

theorem resumeSteps_eq (s : State) (m : Memory) :
    resumeSteps s m = restoreWrites s ++ (allPins s.table).flatMap (revalidateSteps s m) := rfl

/-- GPI_IE after a resume: the restored word with the bits of the re-armed pins (R186, R189). -/
theorem Revalidated.enable_all (h : Settled s) (hu : Revalidated s m w (allPins s.table) u) {c g : Nat} {C : Community}
    {G : PadGroup} (hc : s.table.communities[c]? = some C) (h0 : C.interruptEnableOffset ≠ 0)
    (hg : (groupsOf C)[g]? = some G) : u.mem.readWord (groupReg C G C.interruptEnableOffset) =
      restoredEnable s c C g G ||| rearmBits s m G G.size := by
  refine BitVec.eq_of_getLsbD_eq fun i hi => ?_
  rw [hu.enable _ _ _ _ hc h0 hg i hi, BitVec.getLsbD_or, getLsbD_rearmBits _ _ _ _ _ hi]
  congr 2
  rw [decide_eq_decide]
  exact ⟨And.left, fun hsize => ⟨hsize, resolve_mem_allPins (resolve_groupPin h.table hc hg hsize)⟩⟩

end

/-- Settles O52: the restored words stand through the re-validation, which writes GPI_IE registers alone. -/
theorem resumeRestoresRegisters : Obligations.ResumeRestoresRegisters := by
  intro s t i hcmd hi hs hp hw hd hq hrun
  have h : Settled s := ⟨hp, hw, hd, hq⟩
  obtain ⟨w, u, hrestored, hu, rfl⟩ := exec_resume_quiet hcmd hi hs h hrun
  refine ⟨?trace, fun p loc hr hv hl => ?padcfg, fun c C g G hc hv h0 hg => ?hostown,
    fun c C g G hc h0 hg => hu.enable_all h hc h0 hg, fun q hout => ?frame⟩
  case trace =>
    have htrace : u.trace = w.trace ++ _ := congrArg State.trace hu.shape
    have hwrites : w.trace = s.trace ++ restoreWrites s := congrArg State.trace hrestored.wrote.1
    show u.trace = _
    rw [htrace, hwrites, resumeSteps_eq, List.append_assoc]
  case padcfg =>
    obtain ⟨-, hbegin, hend, -⟩ := resolve_some hr
    have hkept (k : Nat) (hk : k ≤ 2) := readWord_of_rearmedReg h hu.frame
      (padcfgReg_onBus hp hw (resolve_com_mem hr) hbegin hend hk).1 (rearmedReg_padcfgReg h hr hk)
    rw [← hrestored.padcfg p loc hr hv hl]
    show heldPadcfgs s.params loc p u.mem = _
    simp only [heldPadcfgs, hkept 0 (by omega), hkept 1 (by omega), hkept 2 (by omega)]
  case hostown =>
    have hG := List.mem_of_getElem? hg
    have hscoped : C.hostOwnerOffset ∈ scopedOffsets C := by simp [scopedOffsets]
    rw [← hrestored.hostown c C g G hc hv h0 hg]
    refine readWord_of_rearmedReg h hu.frame (groupReg_onBus hw (List.mem_of_getElem? hc) hG hscoped h0).1 fun hin => ?_
    have he := rearmedReg_groupReg h hc hG hscoped h0 hin
    exact hostOwner_ne_enable hd (List.mem_of_getElem? hc) hG (he ▸ h0) he
  case frame =>
    have hfinal := hu.frame q fun a ha => hout a (rearmedReg_subset ha)
    exact hfinal.trans (hrestored.wrote.2 q fun a ha => hout a (restoreRegs_subset ha))

/-- Settles O53: the records and the events after every pin's re-validation; a re-armed pin's bit is among those added to its
GPI_IE register. -/
theorem resumeRevalidatesPins : Obligations.ResumeRevalidatesPins := by
  intro s t i hcmd hi hs hp hw hd hq hrun
  have h : Settled s := ⟨hp, hw, hd, hq⟩
  obtain ⟨w, u, hrestored, hu, rfl⟩ := exec_resume_quiet hcmd hi hs h hrun
  refine ⟨congrArg State.events hu.shape, allPins_pairwise hw, hu.records, fun p loc hr hre => ?_⟩
  obtain ⟨hg, hbegin, hend⟩ := resolve_group hw hr
  have hbit : p - loc.grp.basePin < 32 := Loc.bit_lt hw hr
  have hword := hu.enable_all h (resolve_some hr).1 ((rearms_iff hr).1 hre).2.1 hg
  show (u.mem.readWord (enableReg loc)).getLsbD _ = true
  rw [hword, BitVec.getLsbD_or, getLsbD_rearmBits _ _ _ _ _ hbit, Nat.add_sub_cancel' hbegin, hre]
  have hsize : p - loc.grp.basePin < loc.grp.size := by omega
  simp [hsize]

/-! ## Suspend, then resume -/

section
variable {s : State} {p k a : Nat} {loc : Loc}

theorem lockBitSet_eq_lockHeld (hr : resolve s.table p = some loc) : lockBitSet s p = lockHeld loc p s.mem := by
  rw [lockBitSet, hr]
  rfl

/-- Every register that a resume may write is HOSTSW_OWN or GPI_IE of a pad group, or a padcfg register of a pin with a valid
snapshot. -/
theorem mem_resumeWrites (hw : tableWf s.params s.table = true) (ha : a ∈ resumeWrites s) :
    (∃ (c : Nat) (C : Community) (G : PadGroup) (o : Nat), s.table.communities[c]? = some C ∧ G ∈ groupsOf C ∧
        o ∈ scopedOffsets C ∧ o ≠ 0 ∧ groupReg C G o = a) ∨
      ∃ p loc, resolve s.table p = some loc ∧ (pinCtx s p).valid = true ∧ ∃ k ≤ 2, padcfgReg s.params loc.com p k = a := by
  rcases List.mem_append.1 ha with ha | ha
  · obtain ⟨⟨c, C⟩, hc, ha⟩ := List.mem_flatMap.1 ha
    split at ha
    · obtain ⟨G, hG, ha⟩ := List.mem_flatMap.1 ha
      have hcom := mem_indexedFrom_zero.1 hc
      simp only [List.mem_append, List.mem_ite_nil_left, List.mem_singleton] at ha
      rcases ha with ⟨h0, rfl⟩ | ⟨h0, rfl⟩
      · exact .inl ⟨c, C, G, _, hcom, hG, by simp [scopedOffsets], h0, rfl⟩
      · exact .inl ⟨c, C, G, _, hcom, hG, by simp [scopedOffsets], h0, rfl⟩
    · cases ha
  · obtain ⟨p, -, ha⟩ := List.mem_flatMap.1 ha
    cases hr : resolve s.table p with
    | none => simp [hr] at ha
    | some loc =>
      simp only [hr, List.mem_append, List.mem_ite_nil_right, List.mem_singleton, mem_pinRegs] at ha
      rcases ha with ⟨hv, hk⟩ | ⟨⟨-, h0⟩, rfl⟩
      · exact .inr ⟨p, loc, hr, hv, hk⟩
      · exact .inl ⟨loc.c, loc.com, loc.grp, _, (resolve_some hr).1, resolve_grp_mem hw hr, by simp [scopedOffsets], h0, rfl⟩

/-- A padcfg register of a pin without a valid snapshot keeps its word if no byte outside `resumeWrites` changes (R194). -/
theorem padcfg_kept {m : Memory} (h : Settled s) (hr : resolve s.table p = some loc) (hv : ¬ (pinCtx s p).valid = true)
    (hk : k ≤ 2) (hframe : ∀ q, (∀ a ∈ resumeWrites s, q < a ∨ a + 4 ≤ q) → m.readByte q = s.mem.readByte q) :
    m.readWord (padcfgReg s.params loc.com p k) = s.mem.readWord (padcfgReg s.params loc.com p k) := by
  obtain ⟨hcom, hbegin, hend, -⟩ := resolve_some hr
  have hpin := mem_communityPins_of_resolve hr
  have haligned := (padcfgReg_onBus h.params h.table (resolve_com_mem hr) hbegin hend hk).1
  have hapart {a : Nat} (ha : a ∈ resumeWrites s) : a % 4 = 0 ∧ a ≠ padcfgReg s.params loc.com p k := by
    rcases mem_resumeWrites h.table ha with ⟨c, C, G, o, hc, hG, ho, h0, rfl⟩ | ⟨p', loc', hr', hv', k', hk', rfl⟩
    · exact ⟨(groupReg_onBus h.table (List.mem_of_getElem? hc) hG ho h0).1,
        groupReg_ne_padcfgReg h.layout hc hcom hG ho h0 hpin hk⟩
    · obtain ⟨hcom', hbegin', hend', -⟩ := resolve_some hr'
      refine ⟨(padcfgReg_onBus h.params h.table (resolve_com_mem hr') hbegin' hend' hk').1, fun e => hv ?_⟩
      obtain ⟨-, rfl, -⟩ := padcfgReg_inj h.layout hcom' hcom (mem_communityPins_of_resolve hr') hpin hk' hk e
      exact hv'
  refine readWord_congr _ _ _ fun q _ _ => hframe q fun a ha => ?_
  have := hapart ha
  omega

end

/-- Settles O55: a saved pin is not locked, so the resume restores its words; the registers of any other pin are none that
the resume may write. -/
theorem suspendResumeRoundTrip : Obligations.SuspendResumeRoundTrip := by
  intro s s1 s2 hi hs hp hw hd hq hsuspend hresume p loc hr
  obtain ⟨t, hrun, hshape, -, hctx, -⟩ := suspendTakesSnapshot s .suspend (.inl rfl) hi hs hp hw hq
  obtain rfl : t = s1 := Host.Outcome.next.inj (hrun.symm.trans hsuspend)
  have hparams : t.params = s.params := by rw [hshape]
  have htable : t.table = s.table := by rw [hshape]
  have hmem : t.mem = s.mem := by rw [hshape]
  have hi' : t.initialized = true := by rw [hshape]; exact hi
  have hs' : t.suspended = true := by rw [hshape]
  have hq' : Quiet t := by show t.agent = []; rw [hshape]; exact hq
  have hpin := hctx p
  rw [← htable] at hr hw hd
  rw [← hparams] at hp hw hd hpin ⊢
  rw [← hmem] at hpin ⊢
  simp only [← htable, hr] at hpin
  obtain ⟨-, hrestored, -, -, hframe⟩ :=
    resumeRestoresRegisters t s2 .resume (.inl rfl) hi' hs' hp hw hd hq' hresume
  by_cases hsave : wouldSave t.params loc p t.mem = true
  · rw [if_pos hsave] at hpin
    have hlock : lockBitSet t p = false := by
      simp only [wouldSave, Bool.and_eq_true, Bool.not_eq_true'] at hsave
      rw [lockBitSet_eq_lockHeld hr]
      exact hsave.1.2
    rw [hrestored p loc hr (by rw [hpin]; rfl) hlock, hpin]
  · have hv : ¬ (pinCtx t p).valid = true := by rw [hpin, if_neg hsave]; simp
    have hkept (k : Nat) (hk : k ≤ 2) := padcfg_kept ⟨hp, hw, hd, hq'⟩ hr hv hk hframe
    simp only [heldPadcfgs, hkept 0 (by omega), hkept 1 (by omega), hkept 2 (by omega)]

end Sys2Proof.Machine
end

section
/-! PROOFS. The lifecycle (spec/45_lifecycle.md): what `INIT` answers (R201, R202), that its check is W1 to W9 (R203), what an
accepted table buys (R204, R205), that nothing runs before `INIT` (R206) and that no step changes the table after it (R207).

`checkW2` and the chain of `checkW5` are recursive walks; each is tied to Mathlib's `List.IsChain`, and that to positions. -/

namespace Sys2Proof.Machine

/-! ## The table check, one lemma for each check -/

section
variable {P : Params} {T : Table}

/-- A chain, said by positions as R203 says it. -/
theorem isChain_iff_getElem? {α : Type} {R : α → α → Prop} {l : List α} :
    l.IsChain R ↔ ∀ i x y, l[i]? = some x → l[i + 1]? = some y → R x y := by
  rw [List.isChain_iff_getElem]
  constructor
  · intro h i x y hx hy
    obtain ⟨-, rfl⟩ := List.getElem?_eq_some_iff.1 hx
    obtain ⟨hi, rfl⟩ := List.getElem?_eq_some_iff.1 hy
    exact h i hi
  · exact fun h i hi => h i _ _ (List.getElem?_eq_getElem (by omega)) (List.getElem?_eq_getElem hi)

theorem checkW1_iff : checkW1 T = true ↔
    (∀ d ∈ T.pins, d.number < 2 ^ 16) ∧ ∀ C ∈ T.communities, C.pinBase + C.pinsTotal ≤ 2 ^ 16 := by
  simp only [checkW1, Bool.and_eq_true, List.all_eq_true, decide_eq_true_eq]
  exact Iff.rfl

theorem checkW2From_iff_isChain {Cs : List Community} :
    checkW2From Cs = true ↔ Cs.IsChain fun C D => C.pinBase + C.pinsTotal ≤ D.pinBase := by
  induction Cs with
  | nil => simp [checkW2From]
  | cons C rest ih =>
    cases rest with
    | nil => simp [checkW2From]
    | cons D rest => rw [checkW2From, Bool.and_eq_true, ih, List.isChain_cons_cons, decide_eq_true_eq, pinEnd]

theorem checkW2_iff : checkW2 T = true ↔ ∀ c C D, T.communities[c]? = some C → T.communities[c + 1]? = some D →
    C.pinBase + C.pinsTotal ≤ D.pinBase :=
  checkW2From_iff_isChain.trans isChain_iff_getElem?

theorem checkW3_iff : checkW3 T = true ↔ ∀ C ∈ T.communities, 1 ≤ C.pinsTotal := by
  simp only [checkW3, List.all_eq_true, decide_eq_true_eq]

theorem checkW4_iff : checkW4 T = true ↔
    ∀ C ∈ T.communities, ∀ gs, C.padGroups = some gs → ∀ G ∈ gs, 1 ≤ G.size ∧ G.size ≤ 32 := by
  rw [checkW4, List.all_eq_true]
  refine forall₂_congr fun C _ => ?_
  cases C.padGroups with
  | none => simp
  | some gs => simp

/-- The walk of W5 over a list with a first group: it begins at `start`, each group where the one before ended, the last ends
at `stop`. -/
theorem groupsChain_cons_iff {G : PadGroup} {rest : List PadGroup} {start stop : Nat} :
    groupsChain (G :: rest) start stop = true ↔
      G.basePin = start ∧ (G :: rest).IsChain (fun G H => H.basePin = G.basePin + G.size) ∧
        ∀ H, (G :: rest).getLast? = some H → H.basePin + H.size = stop := by
  induction rest generalizing G start with
  | nil => simp [groupsChain]
  | cons H rest ih =>
    rw [groupsChain, Bool.and_eq_true, ih, List.isChain_cons_cons, List.getLast?_cons_cons, beq_iff_eq, and_assoc]

theorem checkW5_iff : checkW5 T = true ↔ ∀ C ∈ T.communities, ∀ gs, C.padGroups = some gs →
    gs ≠ [] ∧ (∀ G, gs[0]? = some G → G.basePin = C.pinBase) ∧
    (∀ i G H, gs[i]? = some G → gs[i + 1]? = some H → H.basePin = G.basePin + G.size) ∧
    (∀ G, gs.getLast? = some G → G.basePin + G.size = C.pinBase + C.pinsTotal) ∧ ∀ G ∈ gs, 0 ≤ G.padownIndex := by
  rw [checkW5, List.all_eq_true]
  refine forall₂_congr fun C _ => ?_
  cases C.padGroups with
  | none => simp
  | some gs =>
    cases gs with
    | nil => simp
    | cons G rest =>
      simp only [Bool.and_eq_true, groupsChain_cons_iff, isChain_iff_getElem?, pinEnd, List.all_eq_true,
        decide_eq_true_eq, Option.some.injEq, forall_eq', List.getElem?_cons_zero]
      simp [and_assoc]

theorem checkW6_iff : checkW6 T = true ↔ ∀ C ∈ T.communities, C.padGroups = none →
    1 ≤ C.defaultPadGroupSize ∧ C.defaultPadGroupSize ≤ 32 := by
  rw [checkW6, List.all_eq_true]
  refine forall₂_congr fun C _ => ?_
  cases C.padGroups with
  | none => simp
  | some gs => simp

theorem noRepeats_iff_nodup {ns : List Nat} : noRepeats ns = true ↔ ns.Nodup := by
  induction ns with
  | nil => simp [noRepeats]
  | cons n rest ih => simp [noRepeats, ih]

theorem checkW7_iff : checkW7 T = true ↔
    (∀ n, n ∈ T.pins.map (·.number) ↔ ∃ C ∈ T.communities, C.pinBase ≤ n ∧ n < C.pinBase + C.pinsTotal) ∧
    (T.pins.map (·.number)).Nodup := by
  have inRange (n : Nat) : (∃ C ∈ T.communities, C.pinBase ≤ n ∧ n < pinEnd C) ↔ n ∈ allPins T := mem_allPins.symm
  simp only [checkW7, Bool.and_eq_true, noRepeats_iff_nodup, List.all_eq_true, List.any_eq_true, decide_eq_true_eq,
    List.contains_iff_mem, inRange, ← mem_allPins]
  exact ⟨fun ⟨⟨hnodup, hin⟩, hall⟩ => ⟨fun n => ⟨hin n, hall n⟩, hnodup⟩,
    fun ⟨h, hnodup⟩ => ⟨⟨hnodup, fun n => (h n).1⟩, fun n => (h n).2⟩⟩

theorem checkW8_iff : checkW8 P T = true ↔ ∀ C ∈ T.communities,
    C.mappedBase + C.padcfgOffset + (C.pinsTotal - 1) * P.padcfgStride + 8 + 3 < 2 ^ 64 ∧
    ∀ o ∈ scopedOffsets C, o ≠ 0 → ∀ G ∈ groupsOf C, C.mappedBase + o + G.padownIndex.toNat * 4 + 3 < 2 ^ 64 := by
  simp only [checkW8, List.all_eq_true, Bool.and_eq_true, decide_eq_true_eq, Bool.or_eq_true, beq_iff_eq,
    or_iff_not_imp_left]
  exact Iff.rfl

theorem checkW9_iff : checkW9 T = true ↔ ∀ C ∈ T.communities,
    C.mappedBase % 4 = 0 ∧ C.padcfgOffset % 4 = 0 ∧ ∀ o ∈ scopedOffsets C, o ≠ 0 → o % 4 = 0 := by
  have absent (o : Nat) : (o ≠ 0 → o % 4 = 0) ↔ o % 4 = 0 := by omega
  simp only [checkW9, List.all_eq_true, Bool.and_eq_true, beq_iff_eq, absent, and_assoc]

end

/-- Settles O15: the table check is the conjunction of the nine, each equivalent to its row of R203. -/
theorem tableCheckIsW1ToW9 : Obligations.TableCheckIsW1ToW9 := by
  intro P T
  simp only [tableWf, Bool.and_eq_true, checkW1_iff, checkW2_iff, checkW3_iff, checkW4_iff, checkW5_iff, checkW6_iff,
    checkW7_iff, checkW8_iff, checkW9_iff, tableMeetsR203, and_assoc]

/-- Settles O20: the declared pins are the communities' (W7), each of which has its pad group (W5, W6) of at most 32 pins
(W4, W6). -/
theorem acceptedTablesResolve : Obligations.AcceptedTablesResolve := by
  intro P T hw
  refine ⟨fun p => (resolve_isSome_iff hw p).trans (declared_iff_mem_allPins hw).symm, fun p loc hr => ?_⟩
  obtain ⟨hgroup, hbegin, hend⟩ := resolve_group hw hr
  have hsize := size_le_of_mem_groupsOf hw (resolve_com_mem hr) (resolve_grp_mem hw hr)
  exact ⟨hgroup, hbegin, hend, hsize, Loc.bit_lt hw hr⟩

/-! ## `INIT` -/

section
variable {s : State}

theorem exec_init_again (hi : s.initialized = true) : exec .init s = .next (raise .alreadyInitialized s) := by
  show execInit s = _
  rw [execInit, if_pos hi]

theorem exec_init_invalid (hi : s.initialized = false) (hw : tableWf s.params s.handed = false) :
    exec .init s = .next (raise .invalidTable s) := by
  show execInit s = _
  rw [execInit, if_neg (by simp [hi]), if_pos hw]

theorem exec_init_installs (hi : s.initialized = false) (hw : tableWf s.params s.handed = true) :
    exec .init s = .next (respond .ok 0 (installTable s.handed s)) := by
  show execInit s = _
  rw [execInit, if_neg (by simp [hi]), if_neg (by simp [hw])]

theorem irqOf_installTable (T : Table) (s : State) (p : Nat) : irqOf (installTable T s) p = IrqRecord.cleared := by
  rw [irqOf, installTable_irq, storeGet_storeFill, ite_self]

theorem pinCtx_installTable (T : Table) (s : State) (p : Nat) : pinCtx (installTable T s) p = PinContext.zero := by
  rw [pinCtx, installTable_ctxPin, storeGet_storeFill, ite_self]

theorem zeroComm_eq (C : Community) :
    zeroComm C = ⟨false, List.replicate (groupsOf C).length 0, List.replicate (groupsOf C).length 0⟩ := by
  rw [zeroComm, List.map_const']

end

/-- Settles O14: the arrays are filled over the table's pins, which ascend, so their index sets are those pins. -/
theorem initInstallsTable : Obligations.InitInstallsTable := by
  intro s hi hw
  have hkeys {α : Type} (v : α) := (perPin_storeFill hw v).1
  exact ⟨_, exec_init_installs hi hw, rfl, rfl, rfl, hkeys _, hkeys _,
    fun p => ⟨irqOf_installTable s.handed s p, pinCtx_installTable s.handed s p⟩,
    List.map_congr_left fun C _ => zeroComm_eq C⟩

/-- Settles O16: the check comes before the first write. -/
theorem initRefusesBadTable : Obligations.InitRefusesBadTable := fun _ => exec_init_invalid

/-- Settles O17: the first check of `INIT` looks at no table. -/
theorem secondInitIsRefused : Obligations.SecondInitIsRefused := fun _ => exec_init_again

/-! ## Before `INIT` -/

/-- Every command but `INIT` begins with the initialized check (R213). -/
theorem exec_eq_whenInit {i : Instr} (hi : i ≠ .init) (s : State) : ∃ k, exec i s = whenInit s k := by
  cases i with
  | init => exact absurd rfl hi
  | _ => exact ⟨_, rfl⟩

/-- Settles O18: the check that every other command begins with fails. -/
theorem nothingRunsBeforeInit : Obligations.NothingRunsBeforeInit := by
  intro i s hi hs
  obtain ⟨k, hk⟩ := exec_eq_whenInit hi s
  rw [hk]
  exact whenInit_false s k hs

/-! ## After `INIT` -/

/-- A piece of a command that ends in an initialized state. -/
abbrev StaysInitialized (r : Out) : Prop := Answers (fun t => t.initialized = true) r

section
variable {s u t : State}

theorem initialized_of_busOnly (hu : u.initialized = true) (hb : busOnly u t) : t.initialized = true :=
  (sameBlock_initialized hb.1).trans hu

theorem staysInitialized_bus {α : Type} {r : Run α} {k : α → State → Out} (hu : u.initialized = true)
    (hr : ∀ {v t}, r = .next (v, t) → busOnly u t) (hk : ∀ v t, t.initialized = true → StaysInitialized (k v t)) :
    StaysInitialized (r.andThen k) :=
  (answers_bus hr).andThen fun v t hb => hk v t (initialized_of_busOnly hu hb)

theorem staysInitialized_snapshotReg {C : Community} {G : PadGroup} {o : Nat} {store : Word → State → State}
    (hstore : ∀ v t, (store v t).initialized = t.initialized) (hu : u.initialized = true) :
    StaysInitialized (snapshotReg C G o store u) := by
  unfold snapshotReg
  split
  · exact hu
  · exact staysInitialized_bus hu memRead_busOnly fun v t ht => (hstore v t).trans ht

theorem storeIe_initialized (c g : Nat) (v : Word) (t : State) : (storeIe c g v t).initialized = t.initialized := rfl

theorem storeHostown_initialized (c g : Nat) (v : Word) (t : State) :
    (storeHostown c g v t).initialized = t.initialized := rfl

theorem staysInitialized_snapshotCommunity (x : Nat × Community) (hu : u.initialized = true) :
    StaysInitialized (snapshotCommunity x u) := by
  refine (Answers.forEach (P := fun t => t.initialized = true) (fun y _ _ h => ?_) hu).thenState fun _ h => h
  exact (staysInitialized_snapshotReg (storeIe_initialized x.1 y.1) h).thenState fun _ h' =>
    staysInitialized_snapshotReg (storeHostown_initialized x.1 y.1) h'

theorem staysInitialized_snapshotPin (pin : Nat) (hu : u.initialized = true) : StaysInitialized (snapshotPin pin u) := by
  unfold snapshotPin
  split
  · exact hu
  · refine staysInitialized_bus hu saveTest_busOnly fun save t ht => ?_
    split
    · exact staysInitialized_bus ht readPadcfgs_busOnly fun _ _ h => h
    · exact ht

theorem staysInitialized_suspendSequence (hi : s.initialized = true) : StaysInitialized (suspendSequence s) := by
  unfold suspendSequence
  split
  · exact hi
  · exact (Answers.forEach (fun x _ _ h => staysInitialized_snapshotCommunity x h) (u := zeroFill s) hi).thenState fun _ h1 =>
      (Answers.forEach (fun p _ _ h => staysInitialized_snapshotPin p h) h1).thenState fun _ h2 => h2

theorem staysInitialized_resumeSequence (hi : s.initialized = true) : StaysInitialized (resumeSequence s) := by
  cases hs : s.suspended with
  | false =>
    rw [resumeSequence, if_pos hs]
    exact hi
  | true =>
    refine (rechecks_resumeSequence hs).imp fun t ⟨u, ⟨es, hu, _⟩, ht⟩ => ?_
    subst ht
    exact (sameBlock_initialized hu).trans hi

theorem staysInitialized_whenInit {k : Out} (hi : s.initialized = true) (hk : StaysInitialized k) :
    StaysInitialized (whenInit s k) := by
  rw [whenInit_true s k hi]
  exact hk

/-- No command ends initialization. All but `INIT`, `SUSPEND` and `RESUME` are one lawful stretch. -/
theorem exec_staysInitialized (i : Instr) (hi : s.initialized = true) : StaysInitialized (exec i s) := by
  have hs := Lawful.refl s
  have lawful {r : Out} (hr : Keeps s r) : StaysInitialized r := hr.imp fun _ ht => ht.initialized.trans hi
  cases i with
  | init => rw [exec_init_again hi]; exact hi
  | suspend => exact staysInitialized_whenInit hi (staysInitialized_suspendSequence hi)
  | resume => exact staysInitialized_whenInit hi (staysInitialized_resumeSequence hi)
  | setPowerState state =>
    refine staysInitialized_whenInit hi ?_
    cases state with
    | sleeping => exact staysInitialized_suspendSequence hi
    | working => exact staysInitialized_resumeSequence hi
  | resolve pin => exact lawful (keeps_resolve hs)
  | regaddr pin kind => exact lawful (keeps_regaddr kind hs)
  | ownedByHost pin => exact lawful (keeps_ownedByHost hs)
  | acpiMode pin => exact lawful (keeps_acpiMode hs)
  | locked pin => exact lawful (keeps_locked hs)
  | isUnlocked pin => exact lawful (keeps_isUnlocked hs)
  | readPadcfg pin k => exact lawful (keeps_readPadcfg k hs)
  | writePadcfg pin k value => exact lawful (keeps_writePadcfg k value hs)
  | setTriggerType pin type => exact lawful (keeps_setTriggerType type hs)
  | getInterruptType pin => exact lawful (keeps_getInterruptType hs)
  | maskUnmask pin mask => exact lawful (keeps_maskUnmask mask hs)
  | register pin owner callback context => exact lawful (keeps_register owner callback context hs)
  | unregister pin => exact lawful (keeps_unregister hs)
  | enable pin => exact lawful (keeps_registeredMask _ false hs)
  | disable pin => exact lawful (keeps_registeredMask _ true hs)
  | dispatch first => exact lawful (keeps_dispatch first hs)
  | shouldSave pin => exact lawful (keeps_shouldSave hs)
  | getPinStatus pin => exact lawful (keeps_getPinStatus hs)

/-- No command of an initialized block writes the table (R207). -/
theorem exec_table {i : Instr} (hi : s.initialized = true) (h : exec i s = .next t) : t.table = s.table := by
  by_cases hinit : i = .init
  · subst hinit
    obtain rfl : raise .alreadyInitialized s = t := Host.Outcome.next.inj ((exec_init_again hi).symm.trans h)
    rfl
  · have ho := orderly_exec i hinit s
    rw [h] at ho
    exact ho.steady.table

end

/-- Settles O19: the agent's turn and the gate touch neither field, and no command of an initialized block does. -/
theorem tableNeverChangesAfterInit : Obligations.TableNeverChangesAfterInit := by
  intro s t hs ht
  have hturn : (agentTurn s).initialized = true := initialized_of_busOnly hs (agentTurn_busOnly s)
  have htable : (agentTurn s).table = s.table := (steady_agentTurn s).table
  rcases step_cases s with ⟨-, h⟩ | ⟨-, -, h⟩ | ⟨-, sub, rest, -, ⟨_, -, h⟩ | ⟨i, -, h⟩⟩ <;> rw [h] at ht
  · cases ht
  · cases ht; exact ⟨htable, hturn⟩
  · cases ht; exact ⟨htable, hturn⟩
  · have haccept : (accept sub rest (agentTurn s)).initialized = true := hturn
    exact ⟨(exec_table haccept ht).trans htable, (exec_staysInitialized i haccept).of_next ht⟩

end Sys2Proof.Machine
end

section
/-! PROOFS. Errors (spec/60_exceptions.md R211, R214, R215): what a pin command answers for a pin that does not resolve and for
a pin of an inactive community, and that in the working state no command answers `InactiveCommunity`.

Most pin commands begin with the initialized, the resolved and the active check, so most of these answers are one rule for those
checks. No command reaches its active check with a changed state: what decides is the state that it started in. -/

namespace Sys2Proof.Machine

section
variable {s : State} {pin : Nat} {loc : Loc}

/-! ## A pin that does not resolve -/

/-- A command ends at its resolved check, with the error that it names (R211). -/
theorem whenInit_unresolved {e : ResultCode} {k : Loc → Out} (hi : s.initialized = true)
    (hr : resolve s.table pin = none) : whenInit s (whenResolved e pin s k) = .next (raise e s) := by
  rw [whenInit_true _ _ hi, whenResolved_none _ _ _ _ hr]

theorem regAddr_unresolved (P : Params) {T : Table} (hr : resolve T pin = none) (kind : RegKind) :
    regAddr P T pin kind = none := by
  rw [regAddr, hr, Option.bind_none]

/-! ## A pin of an inactive community -/

/-- The state in which a failed active check ends the command `i` (R214, R215). -/
def inactiveRefusal (i : Instr) (pin c : Nat) (s : State) : State :=
  raise .inactiveCommunity (emit (.defectSignal i.opcode.bits pin c) s)

/-- A command whose active check comes straight after the resolved check ends there. -/
theorem checks_inactive {e : ResultCode} {i : Instr} {k : Loc → Out} (hi : s.initialized = true)
    (hr : resolve s.table pin = some loc) (hact : isActive s loc.c = false) :
    whenInit s (whenResolved e pin s fun l => whenActive i pin l s (k l)) = .next (inactiveRefusal i pin loc.c s) := by
  rw [whenInit_whenResolved hi hr, whenActive_false _ _ _ _ _ hact, inactiveRefusal]

theorem maskSequence_inactive {i : Instr} {mask : Bool} (hact : isActive s loc.c = false) :
    maskSequence i pin mask loc s = .next (inactiveRefusal i pin loc.c s) := by
  rw [maskSequence_eq, whenActive_false _ _ _ _ _ hact, inactiveRefusal]

end

/-- Settles O25: the resolved check ends these commands, each with its own error; `REGADDR` and `GET_PIN_STATUS` have that
check written out. -/
theorem unresolvedPinsAreRefused : Obligations.UnresolvedPinsAreRefused := by
  intro s pin hi hr
  have unresolved {e : ResultCode} {k : Loc → Out} := whenInit_unresolved (e := e) (k := k) hi hr
  refine ⟨fun i hmem => ?plain, fun kind => ?regaddr, fun k => unresolved, fun k v => unresolved, fun t => unresolved,
    fun m => unresolved, fun o c x => unresolved, unresolved, ?getPinStatus⟩
  case plain =>
    simp only [List.mem_cons, List.not_mem_nil, or_false] at hmem
    rcases hmem with rfl | rfl | rfl | rfl | rfl | rfl | rfl | rfl | rfl <;> exact unresolved
  case regaddr => exact exec_regaddr_none hi (regAddr_unresolved s.params hr kind)
  case getPinStatus =>
    show execGetPinStatus pin s = _
    rw [execGetPinStatus, whenInit_true _ _ hi, hr]
    rfl

/-- Settles O26: under the premises each command passes the checks that stand before its active check. -/
theorem inactiveCommunityIsRefused : Obligations.InactiveCommunityIsRefused := by
  intro s pin loc hi hr hact refused
  have inactive {e : ResultCode} {i : Instr} {k : Loc → Out} := checks_inactive (e := e) (i := i) (k := k) hi hr hact
  have body {i : Instr} {k : Out} := whenActive_false i pin loc s k hact
  refine ⟨fun h0 => ?ownedByHost, inactive, fun h0 => ⟨?locked, ?isUnlocked⟩, fun k => inactive, fun k v => inactive,
    fun t => inactive, fun hnone => ?getInterruptType, fun h0 m => ?maskUnmask, fun hbase hun o c x => ?register,
    fun h0 hreg => ⟨?enable, ?disable⟩, inactive⟩
  case ownedByHost | locked | isUnlocked => exact (whenInit_whenResolved hi hr).trans ((if_neg h0).trans body)
  case getInterruptType =>
    have hstart : exec (.getInterruptType pin) s = _ := whenInit_whenResolved hi hr
    rw [hnone] at hstart
    exact hstart.trans body
  case maskUnmask => exact (exec_maskUnmask_present hi hr h0).trans (maskSequence_inactive hact)
  case register =>
    exact (whenInit_whenResolved hi hr).trans ((if_neg (by omega)).trans ((if_neg (by simp [hun])).trans body))
  case enable | disable => exact (registeredMask_registered hi hr h0 hreg).trans (maskSequence_inactive hact)

/-! ## The working state -/

/-- Every pin that resolves lies in an active community. -/
def PinsActive (s : State) : Prop := ∀ pin loc, resolve s.table pin = some loc → isActive s loc.c = true

/-- Outside the suspend window the activity array, which has an entry for each community, holds true alone. -/
theorem pinsActive_of_working {s : State} (h : Invariant s) (hs : s.suspended = false) : PinsActive s := by
  obtain ⟨-, hshapes, -, hawake, -⟩ := h
  obtain ⟨hlength, -⟩ := shapesOk_iff.1 hshapes
  obtain ⟨hall, -⟩ := awakeOk_iff.1 hawake hs
  intro pin loc hr
  obtain ⟨hcom, -⟩ := resolve_some hr
  obtain ⟨hlt, -⟩ := List.getElem?_eq_some_iff.1 hcom
  rw [isActive, List.getD_eq_getElem _ _ (hlength ▸ hlt)]
  exact hall _ (List.getElem_mem _)

/-- A piece of a command whose answer, if any, has a code other than `InactiveCommunity`. -/
abbrev NeverInactive (r : Out) : Prop := Answers (fun t => t.respCode ≠ 0x06#8) r

theorem resultBits_ne_inactive {code : ResultCode} (h : code ≠ .inactiveCommunity) : resultBits code ≠ 0x06#8 := by
  cases code with
  | inactiveCommunity => exact absurd rfl h
  | _ => decide

section
variable {s : State} {pin : Nat}

theorem neverInactive_ok (value : Word64) (u : State) : NeverInactive (.next (respond .ok value u)) :=
  resultBits_ne_inactive (code := .ok) (by decide)

theorem neverInactive_raise {code : ResultCode} (u : State) (h : code ≠ .inactiveCommunity := by decide) :
    NeverInactive (.next (raise code u)) :=
  resultBits_ne_inactive h

/-- What a command responds last decides, whatever the piece before it answers. -/
theorem neverInactive_andThen {α : Type} {r : Run α} {k : α → State → Out} (hk : ∀ v u, NeverInactive (k v u)) :
    NeverInactive (r.andThen k) := by
  cases r with
  | next x => exact hk x.1 x.2
  | fault _ => trivial
  | refused _ => trivial

theorem neverInactive_thenState {r : Out} {k : State → Out} (hk : ∀ u, NeverInactive (k u)) :
    NeverInactive (thenState r k) := by
  cases r with
  | next u => exact hk u
  | fault _ => trivial
  | refused _ => trivial

theorem neverInactive_whenInit {k : Out} (hk : NeverInactive k) : NeverInactive (whenInit s k) := by
  unfold whenInit
  split
  · exact hk
  · exact neverInactive_raise s

/-- A pin command goes on, past its first checks, with a pin of an active community. -/
theorem neverInactive_pin {e : ResultCode} {k : Loc → Out} (hs : PinsActive s)
    (hk : ∀ loc, isActive s loc.c = true → NeverInactive (k loc)) (he : e ≠ .inactiveCommunity := by decide) :
    NeverInactive (whenInit s (whenResolved e pin s k)) := by
  refine neverInactive_whenInit ?_
  unfold whenResolved
  split
  · exact neverInactive_raise s he
  · next loc hr => exact hk loc (hs pin loc hr)

theorem neverInactive_whenActive {i : Instr} {loc : Loc} {k : Out} (hact : isActive s loc.c = true)
    (hk : NeverInactive k) : NeverInactive (whenActive i pin loc s k) := by
  rwa [whenActive_true _ _ _ _ _ hact]

theorem neverInactive_whenGuarded {loc : Loc} {u : State} {k : State → Out} (hk : ∀ u', NeverInactive (k u')) :
    NeverInactive (whenGuarded loc pin u k) := by
  refine neverInactive_andThen fun v u' => ?_
  cases v with
  | ownershipDenied => exact neverInactive_raise u'
  | locked => exact neverInactive_raise u'
  | pass => exact hk u'

theorem neverInactive_ite {p : Prop} [Decidable p] {a b : Out} (ha : NeverInactive a) (hb : NeverInactive b) :
    NeverInactive (if p then a else b) := by
  split
  · exact ha
  · exact hb

/-- The commands that answer what they read, past an active check. -/
theorem neverInactive_answer {α : Type} {i : Instr} {loc : Loc} {r : Run α} {value : α → Word64}
    (hact : isActive s loc.c = true) :
    NeverInactive (whenActive i pin loc s (r.andThen fun v u => .next (respond .ok (value v) u))) :=
  neverInactive_whenActive hact <| neverInactive_andThen fun _ u => neverInactive_ok _ u

theorem neverInactive_maskSequence {i : Instr} {mask : Bool} {loc : Loc} (hact : isActive s loc.c = true) :
    NeverInactive (maskSequence i pin mask loc s) := by
  rw [maskSequence_eq]
  exact neverInactive_whenActive hact <| neverInactive_whenGuarded fun _ => neverInactive_andThen fun _ _ =>
    neverInactive_thenState fun _ => neverInactive_ok _ _

theorem neverInactive_registeredMask {i : Instr} {mask : Bool} (hs : PinsActive s) :
    NeverInactive (registeredMask i pin mask s) :=
  neverInactive_pin hs fun _ hact => neverInactive_ite (neverInactive_raise s) <|
    neverInactive_ite (neverInactive_raise s) (neverInactive_maskSequence hact)

theorem neverInactive_suspendSequence (s : State) : NeverInactive (suspendSequence s) :=
  neverInactive_ite (neverInactive_ok _ _) <|
    neverInactive_thenState fun _ => neverInactive_thenState fun _ => neverInactive_ok _ _

theorem neverInactive_resumeSequence (s : State) : NeverInactive (resumeSequence s) :=
  neverInactive_ite (neverInactive_ok _ _) <| neverInactive_thenState fun _ => neverInactive_thenState fun _ =>
    neverInactive_thenState fun _ => neverInactive_ok _ _

/-- Only a failed active check answers `InactiveCommunity`, so no command does where every pin's community is active. -/
theorem exec_neverInactive (i : Instr) (hs : PinsActive s) : NeverInactive (exec i s) := by
  cases i with
  | init =>
    exact neverInactive_ite (neverInactive_raise s) <| neverInactive_ite (neverInactive_raise s) (neverInactive_ok _ _)
  | resolve pin => exact neverInactive_pin hs fun _ _ => neverInactive_ok _ _
  | regaddr pin kind =>
    refine neverInactive_whenInit ?_
    split
    · exact neverInactive_raise s
    · exact neverInactive_ok _ _
  | acpiMode pin | readPadcfg pin _ | shouldSave pin =>
    exact neverInactive_pin hs fun _ hact => neverInactive_answer hact
  | ownedByHost pin | locked pin | isUnlocked pin =>
    exact neverInactive_pin hs fun _ hact => neverInactive_ite (neverInactive_ok _ _) (neverInactive_answer hact)
  | writePadcfg pin k value =>
    exact neverInactive_pin hs fun _ hact => neverInactive_whenActive hact <| neverInactive_whenGuarded fun _ =>
      neverInactive_thenState fun _ => neverInactive_ok _ _
  | setTriggerType pin type =>
    exact neverInactive_pin hs fun _ hact => neverInactive_whenActive hact <| neverInactive_whenGuarded fun _ =>
      neverInactive_andThen fun _ _ => neverInactive_thenState fun _ => neverInactive_ok _ _
  | getInterruptType pin =>
    refine neverInactive_pin hs fun loc hact => ?_
    split
    · exact neverInactive_ok _ _
    · refine neverInactive_whenActive hact <| neverInactive_andThen fun v u => ?_
      split
      · exact neverInactive_raise u
      · exact neverInactive_ok _ _
  | maskUnmask pin mask =>
    exact neverInactive_pin hs fun _ hact => neverInactive_ite (neverInactive_raise s) (neverInactive_maskSequence hact)
  | register pin owner callback context =>
    exact neverInactive_pin hs fun _ hact => neverInactive_ite (neverInactive_raise s) <|
      neverInactive_ite (neverInactive_raise s) <| neverInactive_whenActive hact <|
        neverInactive_whenGuarded fun _ => neverInactive_ok _ _
  | unregister pin =>
    exact neverInactive_pin hs fun _ _ => neverInactive_ite (neverInactive_raise s) (neverInactive_ok _ _)
  | enable pin | disable pin => exact neverInactive_registeredMask hs
  | dispatch first => exact neverInactive_whenInit <| neverInactive_thenState fun _ => neverInactive_ok _ _
  | suspend => exact neverInactive_whenInit (neverInactive_suspendSequence s)
  | resume => exact neverInactive_whenInit (neverInactive_resumeSequence s)
  | setPowerState state =>
    refine neverInactive_whenInit ?_
    cases state with
    | sleeping => exact neverInactive_suspendSequence s
    | working => exact neverInactive_resumeSequence s
  | getPinStatus pin =>
    refine neverInactive_whenInit ?_
    split
    · exact neverInactive_ok _ _
    · exact neverInactive_ite (neverInactive_ok _ _) <| neverInactive_andThen fun _ _ => neverInactive_ok _ _

end

/-- Settles O27: in the working state every community is active, so no active check fails. -/
theorem workingStateNeverInactive : Obligations.WorkingStateNeverInactive :=
  fun i _ _ hinv hs h => (exec_neverInactive i (pinsActive_of_working hinv hs)).of_next h

end Sys2Proof.Machine
end
